-- ==== Sys2Proof/Word.lean ====
section
/-! DEFINITION. The words of the block (R8, R80) and the data of an IEEE 754 binary32 number (R10). -/

namespace Sys2Proof

/-- One 32-bit register word (R40, R43). -/
abbrev Word := BitVec 32
/-- The 64-bit command word `cmd` (R80). -/
abbrev CmdWord := BitVec 64
/-- A MIDI note number 0 to 127, the 7-bit field of R82. -/
abbrev Note := BitVec 7
/-- A velocity 0 to 127, the 7-bit field of R83. -/
abbrev Velocity := BitVec 7
/-- A parameter register address, 8 bits (R60, R84). -/
abbrev Addr := BitVec 8
/-- The response word (R44). -/
abbrev RespWord := BitVec 16

/-- The magnitude of a finite binary32: exponent and fraction bits read as one number, below the
pattern `0x7F800000` of the infinity. Consecutive magnitudes are consecutive numbers of the format. -/
abbrev F32Mag := Fin 0x7F800000

/-- A member of the binary32 instance of `Num` (R10): a NaN, a signed infinity, or a finite number
with its sign and magnitude (two zeros, subnormals included). A NaN keeps its sign bit and its
fraction bits, the latter less one, so that the members are exactly the 2^32 bit patterns (log 8). -/
inductive F32 where
  | nan (neg : Bool) (frac : Fin 0x7FFFFF)
  | inf (neg : Bool)
  | fin (neg : Bool) (mag : F32Mag)
  deriving DecidableEq, Repr, Inhabited

/-- The number `+0.0`. -/
def F32.zero : F32 := .fin false 0
/-- The number `1.0`, bits `0x3F800000`. -/
def F32.one : F32 := .fin false ⟨0x3F800000, by decide⟩

end Sys2Proof
end

