-- ==== Sys2Proof/Config.lean ====
section
/-! DEFINITION. The configuration record `CFG` of Table 00-1 (R7), its reference instance `CFG_REF`,
and the free values: constants without a body, of which nothing can be proved. -/

namespace Sys2Proof

/-- A decimal constant, kept exact as `num / den`; each numeric instance rounds it once (R13). -/
structure Dec where
  num : Int
  den : Nat
  deriving DecidableEq, Repr

/-- `SAT_KIND` of Table 00-1 (R135). -/
inductive SatKind where
  | clamp
  | tanh
  deriving DecidableEq, Repr

/-- `RETRIG` of Table 00-1 (R151). -/
inductive RetrigPolicy where
  | retrigger
  | legato
  deriving DecidableEq, Repr

/-- `FENV_MODE` of Table 00-1 (R153). -/
inductive FenvMode where
  | addHz
  | sweep
  deriving DecidableEq, Repr

/-- `FX_TOPOLOGY` of Table 00-1 (R185). -/
inductive FxTopology where
  | a
  | b
  deriving DecidableEq, Repr

/-- The elementary functions of `ELEM` (R11). -/
inductive ElemFn where
  | exp
  | exp2
  | tan
  | sin
  | tanh
  deriving DecidableEq, Repr, Inhabited

/-- The primitive operations whose answer can be a NaN (R11, R232). -/
inductive FloatOp where
  | add
  | sub
  | mul
  | div
  | floor
  deriving DecidableEq, Repr, Inhabited

/-- The provider of the elementary functions, `ELEM` of Table 00-1: the correctly rounded functions
of `CFG_REF`, or another provider, told apart by a number, whose functions are free but for the
properties of R12 (R11, U16; log 5). -/
inductive ElemProvider where
  | reference
  | other (id : Nat)
  deriving DecidableEq, Repr

/-- Which of the two stage parameters of topology A is meant (R187). -/
inductive FxStage where
  | modulation
  | ambience
  deriving DecidableEq, Repr, Inhabited

/-- A stage parameter of topology A, `MOD_FX` or `AMB_FX` (R187): which free stage it is, and the
size of its preallocated buffer in words (log 7). -/
structure StageParams where
  id : Nat
  size : Nat
  deriving DecidableEq, Repr

/-- The configuration record `CFG`, one field a row of Table 00-1 (R7). -/
structure Cfg where
  nVoices : Nat
  fs : Dec
  minFreq : Dec
  nyqFrac : Dec
  bendRange : Dec
  keytrack : Dec
  kMax : Dec
  satKind : SatKind
  driveK : Dec
  flushEps : Dec
  attackThresh : Dec
  instantTime : Dec
  tAttack : Dec
  tRelease : Dec
  activeEps : Dec
  foldK : Dec
  foldInMax : Dec
  retrig : RetrigPolicy
  velEn : Bool
  velCutAmt : Dec
  fenvMode : FenvMode
  fenvCeilHz : Dec
  fxTopology : FxTopology
  fxBypassEps : Dec
  fxK : Dec
  modFx : StageParams
  ambFx : StageParams
  ageW : Nat
  elem : ElemProvider
  deriving DecidableEq, Repr

/-- `CFG_REF`: the column "CFG_REF value" of Table 00-1 (R7). Topology A is not in it, so its two
stages have empty buffers. -/
def Cfg.ref : Cfg where
  nVoices := 4
  fs := ⟨48000, 1⟩
  minFreq := ⟨5, 1⟩
  nyqFrac := ⟨49, 100⟩
  bendRange := ⟨2, 1⟩
  keytrack := ⟨1, 2⟩
  kMax := ⟨7, 2⟩
  satKind := .clamp
  driveK := ⟨4, 1⟩
  flushEps := ⟨1, 100000000000000000000⟩
  attackThresh := ⟨999, 1000⟩
  instantTime := ⟨1, 1000⟩
  tAttack := ⟨1, 100⟩
  tRelease := ⟨1, 10⟩
  activeEps := ⟨1, 10000⟩
  foldK := ⟨5, 1⟩
  foldInMax := ⟨1000000, 1⟩
  retrig := .retrigger
  velEn := false
  velCutAmt := ⟨1, 2⟩
  fenvMode := .addHz
  fenvCeilHz := ⟨18000, 1⟩
  fxTopology := .b
  fxBypassEps := ⟨1, 1000⟩
  fxK := ⟨4, 1⟩
  modFx := ⟨0, 0⟩
  ambFx := ⟨0, 0⟩
  ageW := 32
  elem := .reference

/-- FREE VALUE (log 9): the reference elementary functions on a NaN or an infinity, where R11's "real
result rounded once" has no real result. -/
opaque Config.elemNonfinite : ElemFn → F32 → F32

/-- FREE VALUE (log 11): the assembler's `pow` outside the operands R221 to R224 use. -/
opaque Config.powOpen : F32 → F32 → F32

/-- FREE VALUE (log 7): the initial buffer of a stage of topology A (R187). -/
opaque Config.stageInit : FxStage → Nat → List Word

/-- FREE VALUE (log 7): the buffer of a stage after one input sample (R187). -/
opaque Config.stageNext : FxStage → Nat → List Word → F32 → List Word

/-- FREE VALUE (log 7): a stage's output on a finite input, finite as R187 demands. -/
opaque Config.stageOutFinite : FxStage → Nat → List Word → F32 → Bool × F32Mag

/-- FREE VALUE (log 7): a stage's output on an infinity or a NaN. -/
opaque Config.stageOutOther : FxStage → Nat → List Word → F32 → F32

/-- FREE VALUE (log 8): the sign bit and the fraction bits, less one, of the NaN that an operation
answers, a function of its operands. -/
opaque Config.nanResult : FloatOp → F32 → F32 → Bool × Fin 0x7FFFFF

end Sys2Proof
end

