-- ==== Sys2Proof/Machine/Float.lean ====
section
/-! DEFINITION. The primitive operations on binary32 (R10, R11, R13): every finite number is a whole
number of units of 2^-149, an operation is computed exactly on such numbers and rounded once, to
nearest, ties to even. Exceptional operands give the IEEE default results (R232). -/

namespace Sys2Proof

/-- `num / den` rounded to the nearest integer, ties to even. -/
def roundNearestEven (num den : Nat) : Nat :=
  let q := num / den
  let r := num % den
  if 2 * r < den then q else if den < 2 * r then q + 1 else q + q % 2

/-- The magnitude nearest to `num / den` units of 2^-149, as if the exponent had no upper limit: the
significand has 24 bits, and the spacing of the format doubles with each binade from 2^-149 up. -/
def roundMagnitude (num den : Nat) : Nat :=
  let k := Nat.log2 (num / den) - 23
  (k <<< 23) + roundNearestEven num (den <<< k)

/-- The number of a sign and a magnitude; past the largest finite magnitude, the infinity. -/
def F32.ofMagnitude (neg : Bool) (m : Nat) : F32 :=
  if h : m < 0x7F800000 then .fin neg ⟨m, h⟩ else .inf neg

/-- `num / den` units of 2^-149 with a sign, rounded once to the nearest binary32 (R10). -/
def F32.round (neg : Bool) (num den : Nat) : F32 := F32.ofMagnitude neg (roundMagnitude num den)

/-- The magnitude `m` in units of 2^-149. -/
def magUnits (m : Nat) : Nat :=
  if m < 0x800000 then m else (0x800000 + m % 0x800000) <<< (m / 0x800000 - 1)

/-- A finite number in units of 2^-149. -/
def signedUnits (neg : Bool) (m : F32Mag) : Int :=
  if neg then -(magUnits m : Int) else (magUnits m : Int)

/-- The signed quotient `n / den` of units rounded once; an exact zero takes the sign `zeroNeg`. -/
def F32.ofUnits (zeroNeg : Bool) (n : Int) (den : Nat) : F32 :=
  if n = 0 then .fin zeroNeg 0 else F32.round (decide (n < 0)) n.natAbs den

/-- The NaN that an operation answers on `a` and `b`: which one is free (log 8). -/
def F32.nanOf (op : FloatOp) (a b : F32) : F32 :=
  let r := Config.nanResult op a b
  .nan r.1 r.2

/-- `-a`: the sign bit inverted, also that of a NaN (log 15). -/
def F32.neg : F32 → F32
  | .nan s k => .nan (!s) k
  | .inf s => .inf (!s)
  | .fin s m => .fin (!s) m

/-- `|a|` (R11, exact): the sign bit cleared, also that of a NaN (log 15). -/
def F32.abs : F32 → F32
  | .nan _ k => .nan false k
  | .inf _ => .inf false
  | .fin _ m => .fin false m

/-- The exact sum of `a` and `b` rounded once; `bad` where there is none. -/
def F32.sumOf (bad a b : F32) : F32 :=
  match a, b with
  | .nan _ _, _ => bad
  | _, .nan _ _ => bad
  | .inf s, .inf t => if s = t then .inf s else bad
  | .inf s, .fin _ _ => .inf s
  | .fin _ _, .inf t => .inf t
  | .fin s m, .fin t n => F32.ofUnits (s && t) (signedUnits s m + signedUnits t n) 1

/-- `a + b` (R11): the exact sum rounded once. -/
def F32.add (a b : F32) : F32 := F32.sumOf (F32.nanOf .add a b) a b

/-- `a - b` (R11): the exact difference rounded once. -/
def F32.sub (a b : F32) : F32 := F32.sumOf (F32.nanOf .sub a b) a (F32.neg b)

/-- `a · b` (R11): the exact product rounded once. -/
def F32.mul (a b : F32) : F32 :=
  match a, b with
  | .nan _ _, _ => F32.nanOf .mul a b
  | _, .nan _ _ => F32.nanOf .mul a b
  | .inf s, .inf t => .inf (s != t)
  | .inf s, .fin t n => if n.val = 0 then F32.nanOf .mul a b else .inf (s != t)
  | .fin s m, .inf t => if m.val = 0 then F32.nanOf .mul a b else .inf (s != t)
  | .fin s m, .fin t n => F32.round (s != t) (magUnits m * magUnits n) (1 <<< 149)

/-- `a / b` (R11): the exact quotient rounded once. -/
def F32.div (a b : F32) : F32 :=
  match a, b with
  | .nan _ _, _ => F32.nanOf .div a b
  | _, .nan _ _ => F32.nanOf .div a b
  | .inf _, .inf _ => F32.nanOf .div a b
  | .inf s, .fin t _ => .inf (s != t)
  | .fin s _, .inf t => .fin (s != t) 0
  | .fin s m, .fin t n =>
      if n.val = 0 then (if m.val = 0 then F32.nanOf .div a b else .inf (s != t))
      else F32.round (s != t) (magUnits m <<< 149) (magUnits n)

/-- `floor(a)`: the largest integer not above `a`, exact (R11); a zero is kept as it is (log 10). -/
def F32.floor (a : F32) : F32 :=
  match a with
  | .nan _ _ => F32.nanOf .floor a a
  | .inf s => .inf s
  | .fin s m =>
      if m.val = 0 then .fin s m
      else F32.ofUnits false (Int.fdiv (signedUnits s m) (1 <<< 149) * (1 <<< 149)) 1

/-- Whether `a` is a NaN. -/
def F32.isNaN : F32 → Bool
  | .nan _ _ => true
  | .inf _ => false
  | .fin _ _ => false

/-- Whether `a` is finite. -/
def F32.isFinite : F32 → Bool
  | .nan _ _ => false
  | .inf _ => false
  | .fin _ _ => true

/-- The place of a number that is no NaN on the line, in units of 2^-149; an infinity stands at 2^128. -/
def F32.place : F32 → Int
  | .nan _ _ => 0
  | .inf s => if s then -(1 <<< 277) else 1 <<< 277
  | .fin s m => signedUnits s m

/-- `a < b` (R11): exact, false with a NaN. -/
def F32.lt (a b : F32) : Bool := !a.isNaN && !b.isNaN && decide (a.place < b.place)

/-- `a <= b` (R11): exact, false with a NaN. -/
def F32.le (a b : F32) : Bool := !a.isNaN && !b.isNaN && decide (a.place ≤ b.place)

/-- `a = b` (R11): exact, so the two zeros are equal, and false with a NaN. -/
def F32.eq (a b : F32) : Bool := !a.isNaN && !b.isNaN && decide (a.place = b.place)

/-- An integer as a binary32; exact below 2^24 (R11, R18). -/
def F32.ofInt (n : Int) : F32 := F32.ofUnits false (n * (1 <<< 149)) 1

/-- A decimal constant, rounded once to the nearest binary32 (R13). -/
def F32.ofDec (d : Dec) : F32 := F32.ofUnits false (d.num * (1 <<< 149)) d.den

/-- The constant pi: `0x40490FDB` (R11). -/
def F32.pi : F32 := .fin false ⟨0x40490FDB, by decide⟩

/-- A 32-bit word read as a binary32 (R10: 1 sign bit, 8 exponent bits, 23 fraction bits). -/
def F32.ofBits (w : Word) : F32 :=
  if h : w.toNat % 0x80000000 < 0x7F800000 then .fin w.msb ⟨w.toNat % 0x80000000, h⟩
  else if w.toNat % 0x80000000 = 0x7F800000 then .inf w.msb
  else .nan w.msb ⟨w.toNat % 0x80000000 - 0x7F800001, by omega⟩

/-- The bit pattern of a binary32 (R10). -/
def F32.toBits : F32 → Word
  | .nan s k => BitVec.ofNat 32 ((if s then 0x80000000 else 0) + 0x7F800001 + k.val)
  | .inf s => BitVec.ofNat 32 ((if s then 0x80000000 else 0) + 0x7F800000)
  | .fin s m => BitVec.ofNat 32 ((if s then 0x80000000 else 0) + m.val)

end Sys2Proof
end

