-- ==== Sys2Proof/Machine/Irrational.lean ====
section
/-! DEFINITION. That exp, sine and cosine of a nonzero fraction are no fractions. The exact comparisons
of ElemExact.lean end because of it: the real value never stands on the fraction it is compared with. -/

namespace Sys2Proof

open Polynomial

/-- `b^(2p) (z^k + (-z)^k)` is a whole number for `k < 2p`, when `b² z²` is one. -/
theorem symmetric_power_whole (z : ℂ) (a b : ℤ) (hz : (b : ℂ) ^ 2 * z ^ 2 = a) (p k : ℕ)
    (hk : k < 2 * p) : (b : ℂ) ^ (2 * p) * (z ^ k + (-z) ^ k) ∈ (Int.castRingHom ℂ).range := by
  rcases Nat.even_or_odd' k with ⟨j, rfl | rfl⟩
  · refine ⟨2 * a ^ j * b ^ (2 * p - 2 * j), ?_⟩
    have h : (b : ℂ) ^ (2 * p) = b ^ (2 * p - 2 * j) * b ^ (2 * j) := by
      rw [← pow_add]
      congr 1
      omega
    have h2 : (b : ℂ) ^ (2 * j) * z ^ (2 * j) = a ^ j := by
      rw [pow_mul, pow_mul, ← mul_pow, hz]
    have h3 : (-z) ^ (2 * j) = z ^ (2 * j) := by rw [pow_mul, neg_sq, ← pow_mul]
    rw [h, h3]
    simp only [eq_intCast, Int.cast_mul, Int.cast_ofNat, Int.cast_pow]
    linear_combination (-2 * (b : ℂ) ^ (2 * p - 2 * j)) * h2
  · refine ⟨0, ?_⟩
    have : (-z) ^ (2 * j + 1) = -z ^ (2 * j + 1) := Odd.neg_pow ⟨j, rfl⟩ z
    rw [this]
    simp

/-- The core: for a nonzero whole number `a` and `b² z² = a`, the number `e^z + e^(-z)` is no nonzero
fraction. It is Hermite's argument, on the approximations Mathlib has for Lindemann's theorem. -/
theorem exp_add_exp_neg_ne (z : ℂ) (a b : ℤ) (ha : a ≠ 0) (hb : b ≠ 0)
    (hz : (b : ℂ) ^ 2 * z ^ 2 = a) (u : ℤ) (w : ℕ) (hu : u ≠ 0) (hw : w ≠ 0) :
    (w : ℂ) * (Complex.exp z + Complex.exp (-z)) ≠ u := by
  intro he
  let f : ℤ[X] := C (b ^ 2) * X ^ 2 - C a
  have hf0 : f.eval 0 = -a := by simp [f]
  have hdeg : f.natDegree ≤ 2 := by
    refine (natDegree_sub_le _ _).trans ?_
    simp only [natDegree_C, max_le_iff, Nat.zero_le, and_true]
    exact natDegree_C_mul_X_pow_le _ _
  have hroot : ∀ y : ℂ, (b : ℂ) ^ 2 * y ^ 2 = a → y ∈ f.aroots ℂ := by
    intro y hy
    rw [mem_aroots]
    refine ⟨fun h => ha ?_, ?_⟩
    · have := hf0
      rw [h] at this
      simpa using this.symm
    · simp [f, hy]
  obtain ⟨c, hc⟩ := LindemannWeierstrass.exp_polynomial_approx f (by rw [hf0]; simpa using ha)
  have hlim : Filter.Tendsto
      (fun n : ℕ => (2 * w * ((b : ℝ) ^ 2 * |c|)) * (((b : ℝ) ^ 2 * |c|) ^ n / (n.factorial : ℝ)))
      Filter.atTop (nhds 0) := by
    simpa using (FloorSemiring.tendsto_pow_div_factorial_atTop ((b : ℝ) ^ 2 * |c|)).const_mul
      (2 * w * ((b : ℝ) ^ 2 * |c|))
  obtain ⟨N, hN⟩ := (hlim.eventually (gt_mem_nhds one_pos)).exists_forall_of_atTop
  obtain ⟨p, hp, hprime⟩ := Nat.exists_infinite_primes (N + 1 + a.natAbs + u.natAbs + b.natAbs + 1)
  obtain ⟨n, hn, gp, hgp, happrox⟩ := hc p (by rw [hf0, Int.natAbs_neg]; omega) hprime
  have h1 := happrox (hroot z hz)
  have h2 := happrox (hroot (-z) (by rw [neg_sq]; exact hz))
  -- the polynomial part is a whole number
  have hwhole : (b : ℂ) ^ (2 * p) * (aeval z gp + aeval (-z) gp) ∈ (Int.castRingHom ℂ).range := by
    have hd : gp.natDegree < 2 * p := by
      have := hprime.two_le
      have : p * f.natDegree ≤ p * 2 := Nat.mul_le_mul_left p hdeg
      omega
    rw [aeval_eq_sum_range' hd, aeval_eq_sum_range' hd, ← Finset.sum_add_distrib, Finset.mul_sum]
    refine sum_mem fun k hk => ?_
    have hterm := symmetric_power_whole z a b hz p k (Finset.mem_range.mp hk)
    have : (b : ℂ) ^ (2 * p) * (gp.coeff k • z ^ k + gp.coeff k • (-z) ^ k) =
        (Int.castRingHom ℂ) (gp.coeff k) * ((b : ℂ) ^ (2 * p) * (z ^ k + (-z) ^ k)) := by
      simp only [zsmul_eq_mul, eq_intCast]
      ring
    rw [this]
    exact mul_mem ⟨_, rfl⟩ hterm
  obtain ⟨m, hm⟩ := hwhole
  rw [eq_intCast] at hm
  -- the whole number that is too small
  set t : ℤ := n * u * b ^ (2 * p) - p * (w * m) with ht
  have ht0 : t ≠ 0 := by
    intro h0
    have hdvd : (p : ℤ) ∣ n * u * b ^ (2 * p) := ⟨w * m, by linarith [h0]⟩
    have hpz : Prime (p : ℤ) := Nat.prime_iff_prime_int.mp hprime
    have hsmall : ∀ x : ℤ, x ≠ 0 → x.natAbs < p → ¬ (p : ℤ) ∣ x := fun x hx hlt h =>
      absurd (Nat.le_of_dvd (Int.natAbs_pos.mpr hx) (Int.natCast_dvd.mp h)) (by omega)
    rcases hpz.dvd_or_dvd hdvd with h | h
    · rcases hpz.dvd_or_dvd h with h | h
      · exact hn h
      · exact hsmall u hu (by omega) h
    · exact hsmall b hb (by omega) (hpz.dvd_of_dvd_pow h)
  have hone : (1 : ℝ) ≤ ‖(t : ℂ)‖ := by
    rw [Complex.norm_intCast]
    exact_mod_cast Int.one_le_abs ht0
  have hval : (t : ℂ) = w * (b : ℂ) ^ (2 * p) *
      ((n • Complex.exp z - p • aeval z gp) + (n • Complex.exp (-z) - p • aeval (-z) gp)) := by
    rw [ht]
    push_cast
    simp only [zsmul_eq_mul, nsmul_eq_mul]
    linear_combination (p * w : ℂ) * (-hm) - (n * (b : ℂ) ^ (2 * p)) * he
  have hbound : ‖(t : ℂ)‖ ≤ w * (b ^ 2) ^ p * (2 * (|c| ^ p / (p - 1).factorial)) := by
    rw [hval, norm_mul, norm_mul, Complex.norm_natCast, norm_pow, Complex.norm_intCast, pow_mul, sq_abs]
    have habs : c ^ p / ((p - 1).factorial : ℝ) ≤ |c| ^ p / (p - 1).factorial :=
      div_le_div_of_nonneg_right ((le_abs_self _).trans_eq (abs_pow c p)) (Nat.cast_nonneg _)
    refine mul_le_mul_of_nonneg_left ?_ (by positivity)
    refine (norm_add_le _ _).trans ?_
    linarith
  have hsmall := hN (p - 1) (by omega)
  have hpow : (((b : ℝ) ^ 2 * |c|)) ^ p = ((b : ℝ) ^ 2 * |c|) * ((b : ℝ) ^ 2 * |c|) ^ (p - 1) := by
    rw [← pow_succ']
    congr 1
    have := hprime.pos
    omega
  have : w * ((b : ℝ) ^ 2) ^ p * (2 * (|c| ^ p / (p - 1).factorial)) =
      (2 * w * ((b : ℝ) ^ 2 * |c|)) * (((b : ℝ) ^ 2 * |c|) ^ (p - 1) / ((p - 1).factorial : ℝ)) := by
    have h3 : ((b : ℝ) ^ 2) ^ p * |c| ^ p = ((b : ℝ) ^ 2 * |c|) * ((b : ℝ) ^ 2 * |c|) ^ (p - 1) := by
      rw [← mul_pow, hpow]
    linear_combination (2 * w / ((p - 1).factorial : ℝ)) * h3
  linarith

/-- The exponential of a nonzero fraction is no fraction. -/
theorem exp_rat_ne (q r : ℚ) (hq : q ≠ 0) : Real.exp q ≠ r := by
  intro h
  have hr : (0 : ℝ) < r := h ▸ Real.exp_pos _
  have hr' : 0 < r := by exact_mod_cast hr
  have hs : 0 < r + r⁻¹ := by positivity
  refine exp_add_exp_neg_ne (q : ℂ) (q.num ^ 2) q.den (by simpa using hq) (by simp) ?_
    (r + r⁻¹).num (r + r⁻¹).den (by simpa using hs.ne') (by simp) ?_
  · have : (q : ℂ) * q.den = q.num := by exact_mod_cast Rat.mul_den_eq_num q
    push_cast
    rw [← this]
    ring
  · have h2 : Complex.exp (q : ℂ) + Complex.exp (-(q : ℂ)) = ((r + r⁻¹ : ℚ) : ℂ) := by
      have h3 : Complex.exp (q : ℂ) = (r : ℂ) := by
        have : ((Real.exp q : ℝ) : ℂ) = ((r : ℝ) : ℂ) := by rw [h]
        simpa using this
      rw [Complex.exp_neg, h3]
      push_cast
      rfl
    rw [h2]
    exact_mod_cast Rat.den_mul_eq_num (r + r⁻¹)

/-- The cosine of a nonzero fraction is no fraction. -/
theorem cos_rat_ne (q r : ℚ) (hq : q ≠ 0) : Real.cos q ≠ r := by
  intro h
  by_cases hr : r = 0
  · rw [hr, Rat.cast_zero, Real.cos_eq_zero_iff] at h
    obtain ⟨k, hk⟩ := h
    have h1 : (2 * (k : ℝ) + 1) ≠ 0 := by
      intro h0
      rw [h0] at hk
      simp at hk
      exact hq hk
    refine irrational_pi ⟨2 * q / (2 * k + 1), ?_⟩
    push_cast
    rw [hk]
    field_simp
  · refine exp_add_exp_neg_ne ((q : ℂ) * Complex.I) (-q.num ^ 2) q.den (by simpa using hq) (by simp) ?_
      (2 * r).num (2 * r).den (by simpa using hr) (by simp) ?_
    · have : (q : ℂ) * q.den = q.num := by exact_mod_cast Rat.mul_den_eq_num q
      push_cast
      rw [← this, mul_pow, Complex.I_sq]
      ring
    · have h2 : Complex.exp ((q : ℂ) * Complex.I) + Complex.exp (-((q : ℂ) * Complex.I)) =
          ((2 * r : ℚ) : ℂ) := by
        have h3 : Complex.cos (q : ℂ) = (r : ℂ) := by
          have : ((Real.cos q : ℝ) : ℂ) = ((r : ℝ) : ℂ) := by rw [h]
          simpa using this
        have h4 := Complex.two_cos (q : ℂ)
        rw [neg_mul] at h4
        push_cast
        rw [← h3, h4]
      rw [h2]
      exact_mod_cast Rat.den_mul_eq_num (2 * r)

/-- The sine of a nonzero fraction is no fraction. -/
theorem sin_rat_ne (q r : ℚ) (hq : q ≠ 0) : Real.sin q ≠ r := by
  intro h
  refine cos_rat_ne (2 * q) (1 - 2 * r ^ 2) (by simpa using hq) ?_
  push_cast
  rw [Real.cos_two_mul, Real.cos_sq', h]
  ring

end Sys2Proof
end

