-- ==== Sys2Proof/Machine/ElemExact.lean ====
section
/-! DEFINITION. The real functions rounded once to binary32, for every finite operand (R11). The
real value is compared with a fraction by as many terms of its series as the comparison takes, which
are finitely many, as the value is no fraction; the nearest binary32 is found by such comparisons with
the midpoints of the format. Elem.lean comes here only where its fixed precisions do not settle a
rounding (log 4). -/

namespace Sys2Proof

/-- The first `n` terms of the series with terms `c k · x^k / k!`. -/
def seriesSum (c : Nat → Int) (x : Rat) : Nat → Rat
  | 0 => 0
  | n + 1 => seriesSum c x n + c n * (x ^ n / n.factorial)

/-- The coefficients of the series of exp. -/
def expCoef (_ : Nat) : Int := 1

/-- The coefficients of the series of the cosine. -/
def cosCoef (k : Nat) : Int := if k % 4 = 0 then 1 else if k % 4 = 2 then -1 else 0

/-- The coefficients of the series of the sine. -/
def sinCoef (k : Nat) : Int := if k % 4 = 1 then 1 else if k % 4 = 3 then -1 else 0

/-- `n` terms tell on which side of `q` the sum of the series lies: the rest, at most twice the first
term left out, is less than the distance. -/
abbrev termsSuffice (c : Nat → Int) (x q : Rat) (n : Nat) : Prop :=
  2 * |x| ≤ n + 1 ∧ 2 * (|x| ^ n / n.factorial) < |seriesSum c x n - q|

/-- `v` is the sum of the series at `x`, with the bound on the rest that `termsSuffice` uses. -/
def seriesHas (c : Nat → Int) (x : Rat) (v : ℝ) : Prop :=
  ∀ n : Nat, 2 * |x| ≤ n + 1 →
    |v - (seriesSum c x n : ℝ)| ≤ 2 * ((|x| ^ n / n.factorial : Rat) : ℝ)

/-- A number that is not the fraction `q` is told from it by some number of terms. -/
theorem exists_termsSuffice {c : Nat → Int} {x q : Rat} {v : ℝ} (h : seriesHas c x v)
    (hne : v ≠ q) : ∃ n, termsSuffice c x q n := by
  have hpos : 0 < |v - q| := abs_pos.mpr (sub_ne_zero.mpr hne)
  have hlim : Filter.Tendsto (fun n : ℕ => 2 * (|(x : ℝ)| ^ n / (n.factorial : ℝ)))
      Filter.atTop (nhds 0) := by
    simpa using (FloorSemiring.tendsto_pow_div_factorial_atTop |(x : ℝ)|).const_mul 2
  obtain ⟨n, hn, hx⟩ := ((hlim.eventually (gt_mem_nhds (half_pos hpos))).and
    (Filter.eventually_ge_atTop ⌈2 * |x|⌉₊)).exists
  have hx' : 2 * |x| ≤ n + 1 := by
    have : 2 * |x| ≤ (n : Rat) := Nat.ceil_le.mp hx
    linarith
  refine ⟨n, hx', ?_⟩
  have hb := h n hx'
  have hcast : ((|x| ^ n / n.factorial : Rat) : ℝ) = |(x : ℝ)| ^ n / (n.factorial : ℝ) := by
    push_cast
    rfl
  rw [hcast] at hb
  have htri : |v - q| ≤ |v - (seriesSum c x n : ℝ)| + |(seriesSum c x n : ℝ) - q| := abs_sub_le _ _ _
  have hgoal : 2 * ((|x| ^ n / n.factorial : Rat) : ℝ) < |((seriesSum c x n - q : Rat) : ℝ)| := by
    rw [hcast]
    push_cast
    linarith
  exact_mod_cast hgoal

/-- Whether the sum of the series lies above `q`, by the first number of terms that tells. -/
def seriesAbove (c : Nat → Int) (x q : Rat) (h : ∃ n, termsSuffice c x q n) : Bool :=
  decide (q < seriesSum c x (Nat.find h))

/-- The comparison is right. -/
theorem seriesAbove_iff {c : Nat → Int} {x q : Rat} {v : ℝ} (hv : seriesHas c x v)
    (h : ∃ n, termsSuffice c x q n) : seriesAbove c x q h = true ↔ (q : ℝ) < v := by
  obtain ⟨hx, hlt⟩ := Nat.find_spec h
  have hb := hv _ hx
  have hlt' : 2 * ((|x| ^ (Nat.find h) / (Nat.find h).factorial : Rat) : ℝ) <
      |(seriesSum c x (Nat.find h) : ℝ) - q| := by exact_mod_cast hlt
  rw [seriesAbove, decide_eq_true_iff, ← Rat.cast_lt (K := ℝ)]
  rw [abs_le] at hb
  rcases lt_abs.mp hlt' with h1 | h1
  · exact ⟨fun _ => by linarith, fun _ => by linarith⟩
  · exact ⟨fun _ => by linarith, fun _ => by linarith⟩

/-- Mathlib's bound on the rest of the series of exp, at `x` and at `x i`. -/
theorem exp_series_rest (z : ℂ) (x : Rat) (hz : ‖z‖ = |(x : ℝ)|) (n : Nat) (hn : 2 * |x| ≤ n + 1) :
    ‖Complex.exp z - ∑ k ∈ Finset.range n, z ^ k / k.factorial‖ ≤
      2 * ((|x| ^ n / n.factorial : Rat) : ℝ) := by
  have hn' : 2 * |(x : ℝ)| ≤ n + 1 := by exact_mod_cast hn
  refine (Complex.exp_bound' (x := z) (n := n) ?_).trans_eq ?_
  · rw [hz, div_le_iff₀ (by positivity)]
    push_cast
    linarith
  · rw [hz]
    push_cast
    ring

theorem seriesSum_eq (c : Nat → Int) (x : Rat) (n : Nat) :
    (seriesSum c x n : ℝ) = ∑ k ∈ Finset.range n, (c k : ℝ) * ((x : ℝ) ^ k / k.factorial) := by
  induction n with
  | zero => simp [seriesSum]
  | succ n ih =>
    rw [Finset.sum_range_succ, ← ih, seriesSum]
    push_cast
    rfl

theorem exp_seriesHas (x : Rat) : seriesHas expCoef x (Real.exp x) := by
  intro n hn
  have h := exp_series_rest (x : ℂ) x (by simp) n hn
  rw [seriesSum_eq]
  refine le_trans (le_of_eq ?_) h
  rw [← Real.norm_eq_abs, ← Complex.norm_real]
  congr 1
  push_cast
  simp [expCoef]

/-- A power of `x i`, by its real and imaginary part. -/
theorem mul_I_pow (x : ℝ) (k : Nat) :
    ((x : ℂ) * Complex.I) ^ k = ((cosCoef k * x ^ k : ℝ) : ℂ) + ((sinCoef k * x ^ k : ℝ) : ℂ) * Complex.I := by
  have hI : Complex.I ^ k = (cosCoef k : ℂ) + (sinCoef k : ℂ) * Complex.I := by
    rw [Complex.I_pow_eq_pow_mod]
    have : k % 4 < 4 := Nat.mod_lt _ (by norm_num)
    unfold cosCoef sinCoef
    interval_cases k % 4 <;> simp [Complex.I_sq, Complex.I_pow_three]
  rw [mul_pow, hI]
  push_cast
  ring

/-- The partial sum of exp at `x i` is that of the cosine and, times i, that of the sine. -/
theorem mul_I_series (x : Rat) (n : Nat) :
    ∑ k ∈ Finset.range n, (((x : ℝ) : ℂ) * Complex.I) ^ k / (k.factorial : ℂ) =
      ((seriesSum cosCoef x n : ℝ) : ℂ) + ((seriesSum sinCoef x n : ℝ) : ℂ) * Complex.I := by
  rw [seriesSum_eq, seriesSum_eq]
  push_cast
  rw [Finset.sum_mul, ← Finset.sum_add_distrib]
  refine Finset.sum_congr rfl fun k _ => ?_
  have := mul_I_pow (x : ℝ) k
  push_cast at this ⊢
  rw [this]
  ring

theorem cos_sin_rest (x : Rat) (n : Nat) (hn : 2 * |x| ≤ n + 1) :
    ‖(((Real.cos x - seriesSum cosCoef x n : ℝ) : ℂ) +
      ((Real.sin x - seriesSum sinCoef x n : ℝ) : ℂ) * Complex.I)‖ ≤
      2 * ((|x| ^ n / n.factorial : Rat) : ℝ) := by
  have h := exp_series_rest (((x : ℝ) : ℂ) * Complex.I) x (by simp) n hn
  rw [mul_I_series, Complex.exp_mul_I] at h
  refine le_trans (le_of_eq ?_) h
  congr 1
  push_cast
  ring

theorem cos_seriesHas (x : Rat) : seriesHas cosCoef x (Real.cos x) := by
  intro n hn
  refine le_trans ?_ (cos_sin_rest x n hn)
  refine le_trans (le_of_eq ?_) (Complex.abs_re_le_norm _)
  simp only [Complex.add_re, Complex.ofReal_re, Complex.re_ofReal_mul, Complex.I_re, mul_zero, add_zero]

theorem sin_seriesHas (x : Rat) : seriesHas sinCoef x (Real.sin x) := by
  intro n hn
  refine le_trans ?_ (cos_sin_rest x n hn)
  refine le_trans (le_of_eq ?_) (Complex.abs_im_le_norm _)
  simp only [Complex.add_im, Complex.ofReal_im, Complex.im_ofReal_mul, Complex.I_im, mul_one, zero_add]

/-- Whether `e^x` is above `q`. -/
def expAbove (x q : Rat) : Bool :=
  if h : x = 0 then decide (q < 1)
  else seriesAbove expCoef x q (exists_termsSuffice (exp_seriesHas x) (exp_rat_ne x q h))

/-- Whether `sin x` is above `q`. -/
def sinAbove (x q : Rat) : Bool :=
  if h : x = 0 then decide (q < 0)
  else seriesAbove sinCoef x q (exists_termsSuffice (sin_seriesHas x) (sin_rat_ne x q h))

/-- Whether `cos x` is above `q`. -/
def cosAbove (x q : Rat) : Bool :=
  if h : x = 0 then decide (q < 1)
  else seriesAbove cosCoef x q (exists_termsSuffice (cos_seriesHas x) (cos_rat_ne x q h))

theorem expAbove_iff (x q : Rat) : expAbove x q = true ↔ (q : ℝ) < Real.exp x := by
  unfold expAbove
  split
  · next h => rw [h]; simpa using by norm_cast
  · exact seriesAbove_iff (exp_seriesHas x) _

theorem sinAbove_iff (x q : Rat) : sinAbove x q = true ↔ (q : ℝ) < Real.sin x := by
  unfold sinAbove
  split
  · next h => rw [h]; simp
  · exact seriesAbove_iff (sin_seriesHas x) _

theorem cosAbove_iff (x q : Rat) : cosAbove x q = true ↔ (q : ℝ) < Real.cos x := by
  unfold cosAbove
  split
  · next h => rw [h]; simpa using by norm_cast
  · exact seriesAbove_iff (cos_seriesHas x) _

/-- Whether `|sin x|` is above `q`, for `q` not below 0. -/
def sinMagAbove (x q : Rat) : Bool := if sinAbove x 0 then sinAbove x q else !sinAbove x (-q)

/-- Whether `|tan x|` is above `q`, for `q` not below 0: `tan² x` is
`(1 - cos 2x) / (1 + cos 2x)`. -/
def tanMagAbove (x q : Rat) : Bool := !cosAbove (2 * x) ((1 - q * q) / (1 + q * q))

/-- Whether `tanh x` is above `q`, for `x` and `q` not below 0: `tanh x` is
`(e^2x - 1) / (e^2x + 1)`. -/
def tanhMagAbove (x q : Rat) : Bool := decide (q < 1) && expAbove (2 * x) ((1 + q) / (1 - q))

/-- Whether 2 to the power of `a` units of 2^-149 is above `t` units of 2^-150, in whole numbers. -/
def exp2Above (a : Int) (t : Nat) : Bool :=
  decide (t ^ (2 ^ 149) * 2 ^ (-a).toNat < 2 ^ (150 * 2 ^ 149 + a.toNat))

/-- Whether `x` to the power `y`, both in units of 2^-149, is above `t` units of 2^-150. -/
def powAbove (x y t : Nat) : Bool :=
  decide (t ^ (2 ^ 149) * 2 ^ (149 * y) < x ^ y * 2 ^ (150 * 2 ^ 149))

/-- The largest magnitude from `k` on, `k + 2^n` not reached, whose midpoint with its predecessor has
the value above it; `above` compares the value with a number of units of 2^-150. -/
def largestBelow (above : Nat → Bool) : Nat → Nat → Nat
  | 0, k => k
  | n + 1, k =>
    let j := k + 2 ^ n
    if decide (j ≤ 0x7F800000) && above (magUnits (j - 1) + magUnits j) then largestBelow above n j
    else largestBelow above n k

/-- The binary32 nearest to a value that is no midpoint of the format, from the comparison of its
magnitude with fractions (R10). -/
def roundAbove (neg : Bool) (above : Nat → Bool) : F32 := F32.ofMagnitude neg (largestBelow above 31 0)

/-- `n` units of 2^-149. -/
def unitsRat (n : Int) : Rat := n / 2 ^ 149

/-- `t` units of 2^-150. -/
def halfUnitsRat (t : Nat) : Rat := t / 2 ^ 150

/-- An elementary function on a finite number: the real result rounded once (R11). A sine, tangent
or hyperbolic tangent of a zero is that zero (log 10). -/
def exactElem (f : ElemFn) (s : Bool) (m : F32Mag) : F32 :=
  let x := unitsRat (magUnits m)
  match f with
  | .exp => roundAbove false fun t => expAbove (unitsRat (signedUnits s m)) (halfUnitsRat t)
  | .exp2 => roundAbove false (exp2Above (signedUnits s m))
  | .tan => if m.val = 0 then .fin s m
      else roundAbove (s != (sinAbove x 0 != cosAbove x 0)) fun t => tanMagAbove x (halfUnitsRat t)
  | .sin => if m.val = 0 then .fin s m
      else roundAbove (s != !sinAbove x 0) fun t => sinMagAbove x (halfUnitsRat t)
  | .tanh => if m.val = 0 then .fin s m
      else roundAbove s fun t => tanhMagAbove x (halfUnitsRat t)

end Sys2Proof
end

