-- ==== Sys2Proof/Machine/Elem.lean ====
section
/-! DEFINITION. The elementary functions `ELEM` (R11): those of `CFG_REF`, each "the real result
rounded once to the nearest binary32", and those of another provider, which are free but for the
properties R12 asks of any provider.

A reference function encloses the real result between two fractions computed in whole-number
arithmetic at a working precision of `p` bits, rounds both ends to binary32, and answers when the two
agree; where they differ it tries the next precision, and after the last one it compares the real
result with the format's midpoints exactly, as ElemExact.lean does (log 4). -/

namespace Sys2Proof

/-- A number between `lo / 2^p` and `hi / 2^p`, for a precision `p` kept beside it. -/
structure Ivl where
  lo : Nat
  hi : Nat
  deriving DecidableEq, Repr

/-- A number of 2^-149 units between `loNum / loDen` and `hiNum / hiDen`. -/
structure Enclosure where
  loNum : Nat
  loDen : Nat
  hiNum : Nat
  hiDen : Nat
  deriving DecidableEq, Repr

/-- The sum of two enclosed numbers. -/
def Ivl.add (a b : Ivl) : Ivl := ⟨a.lo + b.lo, a.hi + b.hi⟩

/-- The product of two enclosed numbers, rounded outward. -/
def Ivl.mul (p : Nat) (a b : Ivl) : Ivl := ⟨(a.lo * b.lo) >>> p, ((a.hi * b.hi) >>> p) + 1⟩

/-- An enclosed number divided by a positive integer, rounded outward. -/
def Ivl.divNat (a : Ivl) (k : Nat) : Ivl := ⟨a.lo / k, a.hi / k + 1⟩

/-- An enclosed number divided by 2^j, rounded outward. -/
def Ivl.shiftRight (a : Ivl) (j : Nat) : Ivl := ⟨a.lo >>> j, (a.hi >>> j) + 1⟩

/-- The number 1. -/
def Ivl.one (p : Nat) : Ivl := ⟨1 <<< p, 1 <<< p⟩

/-- `n` more terms of the series of e^r, from the term `t = r^k / k!` on, added to `acc`; the rest of
the series is at most twice the first term left out, for `r <= 1`. -/
def expTerms (p : Nat) (r : Ivl) : Nat → Nat → Ivl → Ivl → Ivl
  | 0, _, t, acc => ⟨acc.lo, acc.hi + 2 * t.hi⟩
  | n + 1, k, t, acc => expTerms p r n (k + 1) ((Ivl.mul p t r).divNat (k + 1)) (acc.add t)

/-- e^r for `0 <= r <= 1`. -/
def expUnit (p : Nat) (r : Ivl) : Ivl := expTerms p r (p / 4 + 8) 0 (Ivl.one p) ⟨0, 0⟩

/-- The square, `n` times over. -/
def squareTimes (p : Nat) : Nat → Ivl → Ivl
  | 0, e => e
  | n + 1, e => squareTimes p n (Ivl.mul p e e)

/-- e^r for `0 <= r`: the argument is halved until it is below 1, the result squared as often. -/
def expIvl (p : Nat) (r : Ivl) : Ivl :=
  let j := Nat.log2 r.hi + 1 - p
  squareTimes p j (expUnit p (r.shiftRight j))

/-- `x` units of 2^-149 at precision `p`. -/
def unitsIvl (p x : Nat) : Ivl := ⟨(x <<< p) >>> 149, ((x <<< p) >>> 149) + 1⟩

/-- e^x, or e^-x when `neg`, for `x` units of 2^-149. -/
def expEnclosure (neg : Bool) (x p : Nat) : Enclosure :=
  let e := expIvl p (unitsIvl p x)
  if neg then ⟨1 <<< (p + 149), e.hi, 1 <<< (p + 149), e.lo⟩
  else ⟨e.lo <<< 149, 1 <<< p, e.hi <<< 149, 1 <<< p⟩

/-- `n` terms of `c · (1 + 1/(3 m) + 1/(5 m^2) + ...)` from the `k`-th on, where `q` is `c` over the
`k`-th power of `m`, in whole numbers: the floors' sum, and what is left of `q`. -/
def inverseOddTerms (m : Nat) : Nat → Nat → Nat → Nat → Nat × Nat
  | 0, _, q, acc => (acc, q)
  | n + 1, k, q, acc => inverseOddTerms m n (k + 1) (q / m) (acc + q / (2 * k + 1))

/-- The natural logarithm of 2, as `2 · artanh (1/3)`. -/
def ln2Ivl (p : Nat) : Ivl :=
  let n := p / 3 + 4
  let r := inverseOddTerms 9 n 0 ((2 <<< p) / 3) 0
  ⟨r.1, r.1 + n + 2 * (r.2 + 1)⟩

/-- 2^(n + f) for an integer `n` and a fraction `f` of `frac` units of 2^-149. -/
def exp2Enclosure (n : Int) (frac p : Nat) : Enclosure :=
  let l := ln2Ivl p
  let e := expUnit p ⟨(frac * l.lo) >>> 149, ((frac * l.hi) >>> 149) + 1⟩
  let up := 149 + n.toNat
  let down := p + (-n).toNat
  ⟨e.lo <<< up, 1 <<< down, e.hi <<< up, 1 <<< down⟩

/-- `2 n` terms of `q · (1 - 1/(3 m) + 1/(5 m^2) - ...)` from the `k`-th on, the positive and the
negative terms apart, and what is left of `q`. -/
def arctanTerms (m : Nat) : Nat → Nat → Nat → Ivl → Ivl → (Ivl × Ivl) × Nat
  | 0, _, q, pos, neg => ((pos, neg), q)
  | n + 1, k, q, pos, neg =>
      arctanTerms m n (k + 2) (q / m / m)
        (pos.add ⟨q / (2 * k + 1), q / (2 * k + 1) + 1⟩)
        (neg.add ⟨q / m / (2 * k + 3), q / m / (2 * k + 3) + 1⟩)

/-- `c · arctan (1/m)` by `2 n` terms of its series. -/
def arctanInverse (c m p n : Nat) : Ivl :=
  let r := arctanTerms (m * m) n 0 ((c <<< p) / m) ⟨0, 0⟩ ⟨0, 0⟩
  ⟨r.1.1.lo - r.1.2.hi - (r.2 + 1), r.1.1.hi - r.1.2.lo + (r.2 + 1)⟩

/-- pi/2 by Machin's formula, `8 arctan (1/5) - 2 arctan (1/239)`. -/
def halfPiIvl (p : Nat) : Ivl :=
  let a := arctanInverse 8 5 p (p / 9 + 2)
  let b := arctanInverse 2 239 p (p / 31 + 2)
  ⟨a.lo - b.hi, a.hi - b.lo⟩

/-- A sine and a cosine, neither below 0. -/
structure SinCos where
  sin : Ivl
  cos : Ivl
  deriving DecidableEq, Repr

/-- `4 n` terms of the series of sine and cosine at `y / 2^p`, from the term `t = y^k / k!` on, sorted
into the positive and negative terms of the two; the rest is at most the first term left out. -/
def sinCosTerms (p y : Nat) : Nat → Nat → Ivl → Ivl → Ivl → Ivl → Ivl → SinCos
  | 0, _, t, cPos, sPos, cNeg, sNeg =>
      ⟨⟨sPos.lo - sNeg.hi - t.hi, sPos.hi + t.hi - sNeg.lo⟩,
        ⟨cPos.lo - cNeg.hi - t.hi, cPos.hi + t.hi - cNeg.lo⟩⟩
  | n + 1, k, t, cPos, sPos, cNeg, sNeg =>
      let t1 := (Ivl.mul p t ⟨y, y⟩).divNat (k + 1)
      let t2 := (Ivl.mul p t1 ⟨y, y⟩).divNat (k + 2)
      let t3 := (Ivl.mul p t2 ⟨y, y⟩).divNat (k + 3)
      let t4 := (Ivl.mul p t3 ⟨y, y⟩).divNat (k + 4)
      sinCosTerms p y n (k + 4) t4 (cPos.add t) (sPos.add t1) (cNeg.add t2) (sNeg.add t3)

/-- Sine and cosine of a number in [0, 1]; neither changes by more than its argument does. -/
def sinCosUnit (p : Nat) (y : Ivl) : SinCos :=
  let r := sinCosTerms p y.lo (p / 14 + 3) 0 (Ivl.one p) ⟨0, 0⟩ ⟨0, 0⟩ ⟨0, 0⟩ ⟨0, 0⟩
  let w := y.hi - y.lo
  ⟨⟨r.sin.lo, r.sin.hi + w⟩, ⟨r.cos.lo - w, r.cos.hi⟩⟩

/-- `x` units of 2^-149 as `q · pi/2 + r` with `0 <= r < pi/2`: `q mod 4` and sine and cosine of `r`
(of the complement of `r` where that is smaller); `none` where the precision does not settle `q`. -/
def reduceQuadrant (p x : Nat) : Option (Nat × SinCos) :=
  let extra := Nat.log2 x - 149 + 8
  let h := halfPiIvl (p + extra)
  let a := unitsIvl (p + extra) x
  let q := a.lo / h.hi
  let r : Ivl := ⟨a.lo - q * h.hi, a.hi - q * h.lo⟩
  if h.lo < r.hi then none
  else if 2 * r.lo ≤ h.lo then some (q % 4, sinCosUnit p (r.shiftRight extra))
  else
    let sc := sinCosUnit p (Ivl.shiftRight ⟨h.lo - r.hi, h.hi - r.lo⟩ extra)
    some (q % 4, ⟨sc.cos, sc.sin⟩)

/-- The sine of `x` units of 2^-149: whether it is negative, and its magnitude. -/
def sinEnclosure (x p : Nat) : Option (Bool × Enclosure) :=
  match reduceQuadrant p x with
  | none => none
  | some (q, sc) =>
    let v := if q % 2 = 0 then sc.sin else sc.cos
    some (decide (2 ≤ q), ⟨v.lo <<< 149, 1 <<< p, v.hi <<< 149, 1 <<< p⟩)

/-- The tangent of `x` units of 2^-149: whether it is negative, and its magnitude. -/
def tanEnclosure (x p : Nat) : Option (Bool × Enclosure) :=
  match reduceQuadrant p x with
  | none => none
  | some (q, sc) =>
    let n := if q % 2 = 0 then sc.sin else sc.cos
    let d := if q % 2 = 0 then sc.cos else sc.sin
    if d.lo = 0 then none
    else some (decide (q % 2 = 1), ⟨n.lo <<< 149, d.hi, n.hi <<< 149, d.lo⟩)

/-- The hyperbolic tangent of `x` units of 2^-149, as `(e^2x - 1) / (e^2x + 1)`. -/
def tanhEnclosure (x p : Nat) : Enclosure :=
  let e := expIvl p (unitsIvl p (2 * x))
  let one := 1 <<< p
  ⟨(e.lo - one) <<< 149, e.lo + one, (e.hi - one) <<< 149, e.hi + one⟩

/-- Both ends of an enclosure rounded, when they round to one number. -/
def Enclosure.settled (neg : Bool) (e : Enclosure) : Option F32 :=
  let lo := F32.round neg e.loNum e.loDen
  if lo = F32.round neg e.hiNum e.hiDen then some lo else none

/-- The working precisions tried, in order. -/
def workingPrecisions : List Nat := [64, 128, 256, 512]

/-- The answer of the first precision that settles the rounding. -/
def firstSettled (f : Nat → Option F32) : List Nat → Option F32
  | [] => none
  | p :: ps =>
    match f p with
    | some r => some r
    | none => firstSettled f ps

/-- `exp` of a finite number. Above 89 the result is past the largest finite number; below -104 it is
under half of the smallest. -/
def refExp (s : Bool) (m : F32Mag) : Option F32 :=
  let x := magUnits m
  if s then
    if (104 <<< 149) < x then some .zero
    else firstSettled (fun p => (expEnclosure true x p).settled false) workingPrecisions
  else if (89 <<< 149) < x then some (.inf false)
  else firstSettled (fun p => (expEnclosure false x p).settled false) workingPrecisions

/-- `exp2` of a finite number: exact at an integer, past the format's range from 128 on and below -150. -/
def refExp2 (s : Bool) (m : F32Mag) : Option F32 :=
  let n := Int.fdiv (signedUnits s m) (1 <<< 149)
  let frac := (Int.fmod (signedUnits s m) (1 <<< 149)).toNat
  if 128 ≤ n then some (.inf false)
  else if n < -150 then some .zero
  else if frac = 0 then some (F32.round false (1 <<< (149 + n.toNat)) (1 <<< (-n).toNat))
  else firstSettled (fun p => (exp2Enclosure n frac p).settled false) workingPrecisions

/-- `sin` of a finite number; a zero is returned as it is (log 10). -/
def refSin (s : Bool) (m : F32Mag) : Option F32 :=
  if m.val = 0 then some (.fin s m)
  else firstSettled
    (fun p => (sinEnclosure (magUnits m) p).bind fun r => r.2.settled (s != r.1)) workingPrecisions

/-- `tan` of a finite number; a zero is returned as it is (log 10). -/
def refTan (s : Bool) (m : F32Mag) : Option F32 :=
  if m.val = 0 then some (.fin s m)
  else firstSettled
    (fun p => (tanEnclosure (magUnits m) p).bind fun r => r.2.settled (s != r.1)) workingPrecisions

/-- `tanh` of a finite number; a zero is returned as it is (log 10), and past 16 the result rounds to 1. -/
def refTanh (s : Bool) (m : F32Mag) : Option F32 :=
  if m.val = 0 then some (.fin s m)
  else if (16 <<< 149) < magUnits m then some (.fin s ⟨0x3F800000, by decide⟩)
  else firstSettled (fun p => (tanhEnclosure (magUnits m) p).settled s) workingPrecisions

/-- A reference function on a finite number; `none` where no working precision settles the rounding. -/
def refElem : ElemFn → Bool → F32Mag → Option F32
  | .exp, s, m => refExp s m
  | .exp2, s, m => refExp2 s m
  | .tan, s, m => refTan s m
  | .sin, s, m => refSin s m
  | .tanh, s, m => refTanh s m

/-- The real result rounded once (R11), for every finite number (log 4). -/
def refElemOf (f : ElemFn) (s : Bool) (m : F32Mag) : F32 := (refElem f s m).getD (exactElem f s m)

/-- A binary32 number in the closed range [lo, hi]. -/
def F32.within (lo hi x : F32) : Prop := F32.le lo x = true ∧ F32.le x hi = true

/-- The properties (a) to (e) of R12, with (a) asked of the operands of `exp2` in `on2` and (b) of
those of `exp` in `onE`; (f) holds of every function. The equalities of (e) are R11's `=`, which holds
between the two zeros: which zero a `tanh` answers is left open. That `exp2(0)`, `exp(0)` and `tanh(0)`
mean both zeros, and that (c) ends at the binary32 product of 0.49 and PI, is the reading of log 5. -/
structure ElemPropsOn (on2 onE : F32 → Prop) (elem : ElemFn → F32 → F32) : Prop where
  exp2_pos : ∀ x, on2 x → F32.lt .zero (elem .exp2 x) = true
  exp2_zero : ∀ s, elem .exp2 (.fin s 0) = .one
  exp_range : ∀ x, onE x → F32.lt .zero (elem .exp x) = true ∧ F32.le (elem .exp x) .one = true
  exp_zero : ∀ s, elem .exp (.fin s 0) = .one
  tan_pos : ∀ x, F32.lt .zero x = true → F32.le x (F32.mul (F32.ofDec ⟨49, 100⟩) F32.pi) = true →
    (elem .tan x).isFinite = true ∧ F32.lt .zero (elem .tan x) = true
  sin_range : ∀ x, x.isFinite = true → F32.within (F32.neg .one) .one (elem .sin x)
  tanh_range : ∀ x, x.isFinite = true → F32.within (F32.neg .one) .one (elem .tanh x)
  tanh_zero : ∀ s, F32.eq (elem .tanh (.fin s 0)) .zero = true
  tanh_odd : ∀ x, x.isFinite = true → F32.eq (elem .tanh (F32.neg x)) (F32.neg (elem .tanh x)) = true
  tanh_mono : ∀ x y, F32.le x y = true → x.isFinite = true → y.isFinite = true →
    F32.le (elem .tanh x) (elem .tanh y) = true

/-- R12, as it stands: `exp2` is above 0 on every finite operand, `exp` in (0, 1] on every finite
operand not above 0. -/
abbrev ElemProps (elem : ElemFn → F32 → F32) : Prop :=
  ElemPropsOn (fun x => x.isFinite = true) (fun x => x.isFinite = true ∧ F32.le x .zero = true) elem

/-- R12 as far as the correctly rounded functions of `CFG_REF` have it (log 12): far below 0 their
`exp` and `exp2` round to 0, so (a) and (b) are asked from -126 and from -80 on. -/
abbrev ElemPropsInRange (elem : ElemFn → F32 → F32) : Prop :=
  ElemPropsOn (F32.within (F32.ofInt (-126)) (F32.ofInt 127)) (F32.within (F32.ofInt (-80)) .zero) elem

/-- Elementary functions with the properties of R12, the simplest there are: constants, and a `tanh`
that is 0. They show that R12 can be met; no provider is set to them. -/
def constantElem : ElemFn → F32 → F32
  | .exp, _ => .one
  | .exp2, _ => .one
  | .tan, _ => .one
  | .sin, _ => .zero
  | .tanh, .fin s _ => .fin s 0
  | .tanh, .inf s => .inf s
  | .tanh, .nan s k => .nan s k

theorem constantElem_tanh_finite (x : F32) (h : x.isFinite = true) :
    ∃ s, constantElem .tanh x = .fin s 0 ∧ constantElem .tanh (F32.neg x) = .fin (!s) 0 := by
  cases x with
  | nan s k => cases h
  | inf s => cases h
  | fin s m => exact ⟨s, rfl, rfl⟩

theorem constantElem_props : ElemProps constantElem where
  exp2_pos _ _ := show F32.lt .zero .one = true by decide
  exp2_zero _ := rfl
  exp_range _ _ := show F32.lt .zero .one = true ∧ F32.le .one .one = true by decide
  exp_zero _ := rfl
  tan_pos _ _ _ := show F32.isFinite .one = true ∧ F32.lt .zero .one = true by decide
  sin_range _ _ := show F32.within (F32.neg .one) .one .zero from ⟨by decide, by decide⟩
  tanh_range x h := by
    obtain ⟨s, hs, -⟩ := constantElem_tanh_finite x h
    rw [hs]
    cases s <;> exact ⟨by decide, by decide⟩
  tanh_zero s := by cases s <;> decide
  tanh_odd x h := by
    obtain ⟨s, hs, hn⟩ := constantElem_tanh_finite x h
    rw [hs, hn]
    cases s <;> decide
  tanh_mono x y _ hx hy := by
    obtain ⟨s, hs, -⟩ := constantElem_tanh_finite x hx
    obtain ⟨t, ht, -⟩ := constantElem_tanh_finite y hy
    rw [hs, ht]
    cases s <;> cases t <;> decide

/-- A provider as R11 has it: "a record of total functions on `Num` of which it assumes only the
properties of rule R12". -/
structure ElemRecord where
  elem : ElemFn → F32 → F32 := constantElem
  props : ElemProps elem := by exact constantElem_props
  deriving Inhabited

/-- FREE VALUE (log 5): the providers that are not the reference one, by their number. -/
opaque Config.elemOther : Nat → ElemRecord

/-- An elementary function of a provider (R11): the reference one correctly rounded where the operand
is finite (on another operand free, log 9); any other provider's free but for R12 (log 5). -/
def elemApply (provider : ElemProvider) (f : ElemFn) (x : F32) : F32 :=
  match provider with
  | .other id => (Config.elemOther id).elem f x
  | .reference =>
    match x with
    | .nan s k => Config.elemNonfinite f (.nan s k)
    | .inf s => Config.elemNonfinite f (.inf s)
    | .fin s m => refElemOf f s m

/-- Every provider that is not the reference one has the properties of R12. -/
theorem elemApply_other_props (id : Nat) : ElemProps (elemApply (.other id)) :=
  (Config.elemOther id).props

end Sys2Proof
end

