-- ==== Sys2Proof/Machine/Numeric.lean ====
section
/-! DEFINITION. The interface of the numeric domain `Num` (R10, R11), its binary32 instance, and the
clamp `san` (R14). Every formula of the spec is written once over the interface. -/

namespace Sys2Proof

/-- The numeric domain `Num`: the primitive operations and the elementary functions of R11, and the
rounding of a decimal constant (R13). `a > b` and `a >= b` are `lt b a` and `le b a`; `max` and `min`
are `maxNum` and `minNum` below. -/
class NumDomain (α : Type) extends Add α, Sub α, Mul α, Div α, Neg α where
  floor : α → α
  abs : α → α
  lt : α → α → Bool
  le : α → α → Bool
  eq : α → α → Bool
  isNaN : α → Bool
  ofInt : Int → α
  ofDec : Dec → α
  pi : α
  exp : α → α
  exp2 : α → α
  tan : α → α
  sin : α → α
  tanh : α → α

/-- The binary32 instance (R10) over any total elementary functions, the field `ELEM` (R11). -/
@[reducible] def f32With (elem : ElemFn → F32 → F32) : NumDomain F32 where
  add := F32.add
  sub := F32.sub
  mul := F32.mul
  div := F32.div
  neg := F32.neg
  floor := F32.floor
  abs := F32.abs
  lt := F32.lt
  le := F32.le
  eq := F32.eq
  isNaN := F32.isNaN
  ofInt := F32.ofInt
  ofDec := F32.ofDec
  pi := F32.pi
  exp := elem .exp
  exp2 := elem .exp2
  tan := elem .tan
  sin := elem .sin
  tanh := elem .tanh

/-- The binary32 instance (R10) with the elementary functions of a provider. -/
@[reducible] def f32Domain (provider : ElemProvider) : NumDomain F32 := f32With (elemApply provider)

/-- `san(x, lo, hi)` (R14); no `hi` stands for `+Inf`, "meaning no upper clamp". -/
def san {α : Type} [N : NumDomain α] (x lo : α) (hi : Option α) : α :=
  if N.isNaN x then lo
  else if N.lt x lo then lo
  else match hi with
    | none => x
    | some h => if N.lt h x then h else x

/-- `max` on operands that are no NaN (R11). -/
def maxNum {α : Type} [N : NumDomain α] (a b : α) : α := if N.lt a b then b else a

/-- `min` on operands that are no NaN (R11). -/
def minNum {α : Type} [N : NumDomain α] (a b : α) : α := if N.lt b a then b else a

end Sys2Proof
end

