-- ==== Sys2Proof/Syntax.lean ====
section
/-! DEFINITION. The six commands of the opcode map (Table 30-2), the block's instructions (R85). -/

namespace Sys2Proof

/-- One constructor per row of the opcode table, with the operands its rule names. Ignored bits are
no operands (R88). -/
inductive Instr where
  /-- R200. -/
  | nop
  /-- R201: the note, and the velocity when the command carries one (`HV = 1`, R83). -/
  | noteOn (note : Note) (velocity : Option Velocity)
  /-- R202: the note. -/
  | noteOff (note : Note)
  /-- R203: the register address and the 32 bits to store. -/
  | setp (addr : Addr) (value : Word)
  /-- R204. -/
  | tick
  /-- R206. -/
  | init
  deriving DecidableEq, Repr

end Sys2Proof
end

