-- ==== Sys2Proof/WellFormed.lean ====
section
/-! DEFINITION. Well-formedness: of instructions (every operand value is legal, its range is its
type), of the command words a driver may send, and of the configuration record. -/

namespace Sys2Proof

/-- A well-formed instruction. The operand ranges of R82 to R84 are the operands' types, and the
spec calls no operand value illegal: a SETP to an unmapped address is "a legal encoding that does
nothing" (R88) and a velocity of 0 "an ordinary velocity" (R83). -/
def Instr.wf : Instr → Bool
  | .nop => true
  | .noteOn _ _ => true
  | .noteOff _ => true
  | .setp _ _ => true
  | .tick => true
  | .init => true

/-- The driver's duty of R87: "A driver must not use reserved opcodes" (0x06 to 0xFF). -/
def CmdWord.wf (w : CmdWord) : Bool := decide (w.toNat < 6 * 2 ^ 56)

/-- A decimal constant is a proper fraction: its denominator is not 0. -/
def Dec.wf (d : Dec) : Bool := decide (0 < d.den)

/-- A decimal constant is a proper fraction above 0. -/
def Dec.pos (d : Dec) : Bool := d.wf && decide (0 < d.num)

/-- A decimal constant is a proper fraction not below 0. -/
def Dec.nonneg (d : Dec) : Bool := d.wf && decide (0 ≤ d.num)

/-- The constraint of Table 00-1 on the pool: `1 <= N_VOICES <= 128`. -/
def Cfg.poolWf (c : Cfg) : Bool := decide (1 ≤ c.nVoices) && decide (c.nVoices ≤ 128)

/-- Every number of the configuration is a proper fraction. -/
def Cfg.numbersWf (c : Cfg) : Bool :=
  [c.fs, c.minFreq, c.nyqFrac, c.bendRange, c.keytrack, c.kMax, c.driveK, c.flushEps,
    c.attackThresh, c.instantTime, c.tAttack, c.tRelease, c.activeEps, c.foldK, c.foldInMax,
    c.velCutAmt, c.fenvCeilHz, c.fxBypassEps, c.fxK].all Dec.wf

/-- The sample rate is above 0 (N6: "every rule is written for general `N_VOICES >= 1` and `FS > 0`"). -/
def Cfg.rateWf (c : Cfg) : Bool := c.fs.pos

/-- The configuration record is well formed. -/
def Cfg.wf (c : Cfg) : Bool := c.poolWf && c.numbersWf && c.rateWf

end Sys2Proof
end

