-- ==== Sys2Proof/Decode.lean ====
section
/-! DEFINITION. The decoder of the 64-bit command word, total and rejecting by name, and the encoder
(`30_encoding.md`). -/

namespace Sys2Proof

/-- Why a word is no command. -/
inductive DecodeReject where
  /-- An opcode 0x06 to 0xFF (R87). The block goes on "exactly as for NOP", and so does `step`. -/
  | reservedOpcode (op : BitVec 8)
  deriving DecidableEq, Repr

/-- The field `op = cmd[63:56]` (R80). -/
def opField (w : CmdWord) : BitVec 8 := w.extractLsb' 56 8
/-- The bit `HV = cmd[48]` (R83). -/
def hvField (w : CmdWord) : Bool := w.getLsbD 48
/-- The note operand `cmd[46:40]` (R82); bit 47 is ignored. -/
def noteField (w : CmdWord) : Note := w.extractLsb' 40 7
/-- The velocity operand `cmd[38:32]` (R83); bit 39 is ignored. -/
def velocityField (w : CmdWord) : Velocity := w.extractLsb' 32 7
/-- The address operand `cmd[47:40]`, all 8 bits (R84). -/
def addrField (w : CmdWord) : Addr := w.extractLsb' 40 8
/-- The data word `cmd[31:0]` (R84). -/
def dataField (w : CmdWord) : Word := w.extractLsb' 0 32

/-- The decoder: it "looks at `op` only" to choose the command (R85, Table 30-2), then takes the
operands of the command's format (R81 to R84). -/
def decode (w : CmdWord) : Except DecodeReject Instr :=
  match (opField w).toNat with
  | 0x00 => .ok .nop
  | 0x01 => .ok (.noteOn (noteField w) (if hvField w then some (velocityField w) else none))
  | 0x02 => .ok (.noteOff (noteField w))
  | 0x03 => .ok (.setp (addrField w) (dataField w))
  | 0x04 => .ok .tick
  | 0x05 => .ok .init
  | _ => .error (.reservedOpcode (opField w))

/-- A command word from its five fields `op`, `fl`, `a`, `b`, `d` (R80). -/
def cmdWord (op fl a b : BitVec 8) (d : Word) : CmdWord := op ++ fl ++ a ++ b ++ d

/-- The encoder: every field a command does not use is written as zero (R81, R90). -/
def encode : Instr → CmdWord
  | .nop => cmdWord 0x00#8 0#8 0#8 0#8 0#32
  | .noteOn n none => cmdWord 0x01#8 0#8 (n.setWidth 8) 0#8 0#32
  | .noteOn n (some v) => cmdWord 0x01#8 1#8 (n.setWidth 8) (v.setWidth 8) 0#32
  | .noteOff n => cmdWord 0x02#8 0#8 (n.setWidth 8) 0#8 0#32
  | .setp a v => cmdWord 0x03#8 0#8 a 0#8 v
  | .tick => cmdWord 0x04#8 0#8 0#8 0#8 0#32
  | .init => cmdWord 0x05#8 0#8 0#8 0#8 0#32

/-- The one command word of an instruction whose bits are `w`, of which the opcode table gives
`nbits`: every bit above is 0. Words arrive whole on the port, so there is no byte order (R67). -/
def tableWord (nbits w : Nat) : CmdWord := BitVec.ofNat 64 (w % 2 ^ nbits)

/-- What the decoder reads from a word of the opcode table; `none` where it rejects. -/
def decodeTableWord (nbits w : Nat) : Option Instr :=
  match decode (tableWord nbits w) with
  | .ok i => some i
  | .error _ => none

end Sys2Proof
end

