-- ==== Sys2Proof/Machine/State.lean ====
section
/-! DEFINITION. The state of the block (`10_state.md`), its reset value (Table 70-1), and the two ways
a step could stop, of which the spec gives the block none. -/

namespace Sys2Proof.Machine

/-- Why the block could fault: never. "The block raises no synchronous exception. No command and no
micro-operation can fault, trap, abort, be refused by the block, or report an error" (R230). -/
inductive Fault where
  deriving DecidableEq, Repr

/-- Why the model could refuse. -/
inductive Refusal where
  /-- Raised by an arm of `exec` that has no meaning yet, with its mnemonic; safe. No arm raises it:
  every command of the opcode table has its meaning. -/
  | notModelled (mnemonic : String)
  deriving DecidableEq, Repr

/-- The stage of an envelope generator (R25): three values, the fourth code "never occurs". -/
inductive Stage where
  | attack
  | decay
  | release
  deriving DecidableEq, Repr

/-- One envelope-generator state, `aenv` or `fenv` (R25). -/
structure Env (α : Type) where
  stage : Stage
  val : α
  deriving DecidableEq, Repr

/-- The voice record `V[i]` (R21, Table 10-2), over a numeric domain. -/
structure Voice (α : Type) where
  phSaw : α
  phSub : α
  note : Note
  vel : α
  gate : Bool
  aenv : Env α
  fenv : Env α
  s1 : α
  s2 : α
  s3 : α
  deriving DecidableEq, Repr

/-- The allocator's entry of one slot: `A.valid[i]`, `A.note[i]`, `A.age[i]` (R35). -/
structure Slot where
  valid : Bool
  note : Note
  age : Nat
  deriving DecidableEq, Repr

/-- The allocator registers `A` (R35); the ages and the counter are unbounded (R37; log 6). -/
structure Alloc where
  slots : List Slot
  ctr : Nat
  deriving DecidableEq, Repr

/-- The effects-chain state `X` (R38): the buffers of the two stages of topology A; empty in topology B. -/
structure FxState where
  mod : List Word
  amb : List Word
  deriving DecidableEq, Repr

/-- The 14 mapped parameter registers (R40, Table 20-1). -/
inductive ParamReg where
  | pCutoff
  | pDrive
  | pSub
  | pFold
  | pDecay
  | pAenvDepth
  | pFenvDepth
  | pFx
  | pBend
  | dCutoffHz
  | dDriveAmt
  | dResonance
  | dDecayS
  | dFenvDepth
  deriving DecidableEq, Repr

/-- The parameter registers `P` (R40, R62): the raw 32 bits of each. -/
structure Params where
  pCutoff : Word
  pDrive : Word
  pSub : Word
  pFold : Word
  pDecay : Word
  pAenvDepth : Word
  pFenvDepth : Word
  pFx : Word
  pBend : Word
  dCutoffHz : Word
  dDriveAmt : Word
  dResonance : Word
  dDecayS : Word
  dFenvDepth : Word
  deriving DecidableEq, Repr

/-- The machine: the state of the block (R20), its ports (R6), and the configuration it was built with. -/
structure State where
  /-- The MODEL's own field: the configuration record `CFG` (R7), which no step changes (log 1). -/
  cfg : Cfg
  /-- The voice register file `V` (R21), slot 0 first. -/
  voices : List (Voice F32)
  /-- The allocator registers `A` (R35). -/
  alloc : Alloc
  /-- The effects-chain state `X` (R38). -/
  fx : FxState
  /-- The parameter registers `P` (R40). -/
  params : Params
  /-- The register `OUT` and the port `out` (R43). -/
  out : Word
  /-- The register `RESP` and the port `resp` (R44). -/
  resp : RespWord
  /-- The port `out_valid`: the last step completed a TICK (R6). -/
  outValid : Bool
  /-- The port `resp_valid`: the last step completed a NOTEON or NOTEOFF (R6). -/
  respValid : Bool
  /-- The port `cmd_ready`: 0 only during reset, commands being atomic steps (R6, R260). -/
  cmdReady : Bool
  /-- The reset input `rst`, driven from outside (R260; log 3). -/
  rst : Bool
  /-- The command words still to be accepted, next first: `cmd_valid` and `cmd` (R6, R15). -/
  pending : List CmdWord
  /-- The index `pc` of the next command in the driver's stream (R9, R46). -/
  pc : Nat
  deriving DecidableEq, Repr

/-- An envelope at reset: RELEASE, 0.0 (Table 10-2). -/
def Env.reset : Env F32 := ⟨.release, .zero⟩

/-- A voice record at reset (Table 10-2, R33). -/
def Voice.reset : Voice F32 where
  phSaw := .zero
  phSub := .zero
  note := 0
  vel := .one
  gate := false
  aenv := Env.reset
  fenv := Env.reset
  s1 := .zero
  s2 := .zero
  s3 := .zero

/-- A slot at reset (R37). -/
def Slot.reset : Slot := ⟨false, 0, 0⟩

/-- The allocator at reset (R37). -/
def Alloc.resetOf (c : Cfg) : Alloc := ⟨List.replicate c.nVoices Slot.reset, 0⟩

/-- A buffer brought to its preallocated size (R187: "`S` is of fixed size"). -/
def fitBuffer (size : Nat) (b : List Word) : List Word := (b ++ List.replicate size 0#32).take size

/-- `MOD_FX.init` and `AMB_FX.init` (R39, R187): the initial state a stage parameter supplies, free but
of its fixed size (log 7). -/
def stageInitial (kind : FxStage) (p : StageParams) : List Word :=
  fitBuffer p.size (Config.stageInit kind p.id)

/-- The effects-chain state at reset (R39). -/
def FxState.resetOf (c : Cfg) : FxState :=
  match c.fxTopology with
  | .a => ⟨stageInitial .modulation c.modFx, stageInitial .ambience c.ambFx⟩
  | .b => ⟨[], []⟩

/-- The parameter registers at reset (Table 20-1, column "reset bits"). -/
def Params.reset : Params where
  pCutoff := 0x3F000000#32
  pDrive := 0x00000000#32
  pSub := 0x00000000#32
  pFold := 0x00000000#32
  pDecay := 0x3F000000#32
  pAenvDepth := 0x00000000#32
  pFenvDepth := 0x00000000#32
  pFx := 0x00000000#32
  pBend := 0x00000000#32
  dCutoffHz := 0x43960000#32
  dDriveAmt := 0x00000000#32
  dResonance := 0x00000000#32
  dDecayS := 0x3E21E89B#32
  dFenvDepth := 0x00000000#32

/-- The reset state of a block built with the configuration `c` (R261, Table 70-1), with no command
waiting. -/
def State.resetOf (c : Cfg) : State where
  cfg := c
  voices := List.replicate c.nVoices Voice.reset
  alloc := Alloc.resetOf c
  fx := FxState.resetOf c
  params := Params.reset
  out := 0x00000000#32
  resp := 0x0000#16
  outValid := false
  respValid := false
  cmdReady := true
  rst := false
  pending := []
  pc := 0

/-- The machine right after reset (R261), built with `CFG_REF`. -/
def State.reset : State := State.resetOf Cfg.ref

end Sys2Proof.Machine
end

