-- ==== Sys2Proof/Machine/Ops.lean ====
section
/-! DEFINITION. The named operations over the state: the parameter register space (R60 to R64), the
voice register file, the command port, and reset (R260).

TAKING AN EXCEPTION and returning from one: the block has neither (R230, R235, R236), so no operation
here saves a state or moves the command index anywhere but on by one. -/

namespace Sys2Proof.Machine

/-- The address of each mapped register (Table 20-1). -/
def ParamReg.addr : ParamReg → Addr
  | .pCutoff => 0x00#8
  | .pDrive => 0x01#8
  | .pSub => 0x02#8
  | .pFold => 0x03#8
  | .pDecay => 0x04#8
  | .pAenvDepth => 0x05#8
  | .pFenvDepth => 0x06#8
  | .pFx => 0x07#8
  | .pBend => 0x08#8
  | .dCutoffHz => 0x10#8
  | .dDriveAmt => 0x11#8
  | .dResonance => 0x12#8
  | .dDecayS => 0x13#8
  | .dFenvDepth => 0x14#8

/-- The register an address names; `none` for the 242 unmapped addresses (R60, R70). -/
def paramAt (a : Addr) : Option ParamReg :=
  match a.toNat with
  | 0x00 => some .pCutoff
  | 0x01 => some .pDrive
  | 0x02 => some .pSub
  | 0x03 => some .pFold
  | 0x04 => some .pDecay
  | 0x05 => some .pAenvDepth
  | 0x06 => some .pFenvDepth
  | 0x07 => some .pFx
  | 0x08 => some .pBend
  | 0x10 => some .dCutoffHz
  | 0x11 => some .dDriveAmt
  | 0x12 => some .dResonance
  | 0x13 => some .dDecayS
  | 0x14 => some .dFenvDepth
  | _ => none

/-- The raw word of a register (R64). -/
def Params.get (p : Params) : ParamReg → Word
  | .pCutoff => p.pCutoff
  | .pDrive => p.pDrive
  | .pSub => p.pSub
  | .pFold => p.pFold
  | .pDecay => p.pDecay
  | .pAenvDepth => p.pAenvDepth
  | .pFenvDepth => p.pFenvDepth
  | .pFx => p.pFx
  | .pBend => p.pBend
  | .dCutoffHz => p.dCutoffHz
  | .dDriveAmt => p.dDriveAmt
  | .dResonance => p.dResonance
  | .dDecayS => p.dDecayS
  | .dFenvDepth => p.dFenvDepth

/-- A register with a new word, "all 32 bits at once" (R63). -/
def Params.set (p : Params) (r : ParamReg) (v : Word) : Params :=
  match r with
  | .pCutoff => { p with pCutoff := v }
  | .pDrive => { p with pDrive := v }
  | .pSub => { p with pSub := v }
  | .pFold => { p with pFold := v }
  | .pDecay => { p with pDecay := v }
  | .pAenvDepth => { p with pAenvDepth := v }
  | .pFenvDepth => { p with pFenvDepth := v }
  | .pFx => { p with pFx := v }
  | .pBend => { p with pBend := v }
  | .dCutoffHz => { p with dCutoffHz := v }
  | .dDriveAmt => { p with dDriveAmt := v }
  | .dResonance => { p with dResonance := v }
  | .dDecayS => { p with dDecayS := v }
  | .dFenvDepth => { p with dFenvDepth := v }

/-- `MemRead(a, 4)` (R64); `none` at an unmapped address, where it "is not defined and never happens". -/
def memRead (p : Params) (a : Addr) : Option Word := (paramAt a).map p.get

/-- `MemWrite(a, 4, v)` (R63): a mapped register takes the bits as given, an unmapped address nothing. -/
def memWrite (p : Params) (a : Addr) (v : Word) : Params :=
  match paramAt a with
  | some r => p.set r v
  | none => p

/-- The state with the voice of one slot changed. -/
def State.modifyVoice (s : State) (slot : Nat) (f : Voice F32 → Voice F32) : State :=
  { s with voices := s.voices.modify slot f }

/-- A command is accepted: it leaves the port, `pc` goes on by one (R46), and the one-cycle pulses of
the command before it are over (R6). -/
def State.accept (s : State) (rest : List CmdWord) : State :=
  { s with pending := rest, pc := s.pc + 1, outValid := false, respValid := false }

/-- No command waits: "the block then idles with `cmd_ready` = 1, holding `OUT`, `RESP` and all state"
(R276); a pulse of the command before is over (R6). -/
def State.idle (s : State) : State := { s with outValid := false, respValid := false }

/-- While `rst` is 1: the whole state is overwritten with its reset value and the block accepts no
command (R260). The configuration, the driver's stream and the input itself are not the block's. -/
def State.underReset (s : State) : State :=
  { State.resetOf s.cfg with cmdReady := false, rst := s.rst, pending := s.pending, pc := s.pc }

/-- The first clock edge with `rst` = 0: "the state is the reset state of rule R261 and `cmd_ready` =
1" (R260). -/
def State.leaveReset (s : State) : State :=
  { State.resetOf s.cfg with pending := s.pending, pc := s.pc }

/-- A TICK's answer: `OUT` takes the sample's bit pattern and `out_valid` is raised (R43, R204). -/
def State.raiseSample (s : State) (y : F32) : State :=
  { s with out := F32.toBits y, outValid := true }

/-- A NOTEON's or NOTEOFF's answer: `RESP` takes the word and `resp_valid` is raised (R44). -/
def State.raiseResponse (s : State) (r : RespWord) : State :=
  { s with resp := r, respValid := true }

end Sys2Proof.Machine
end

