-- ==== Sys2Proof/Machine/Operands.lean ====
section
/-! DEFINITION. The operand forms: the sanitised read `rd` of a parameter register (R65), the note
and velocity operands as numbers (R18, R151), and the patch a TICK reads. -/

namespace Sys2Proof.Machine

/-- `FMAX`, `FS · NYQ_FRAC` (R62), by one multiplication of the two rounded constants (R13). -/
def fmax {α : Type} [N : NumDomain α] (c : Cfg) : α := N.ofDec c.fs * N.ofDec c.nyqFrac

/-- The low end of a register's legal range (Table 20-1, column "range"). -/
def ParamReg.lo {α : Type} [N : NumDomain α] (c : Cfg) : ParamReg → α
  | .pBend => N.ofInt (-1)
  | .dCutoffHz => N.ofDec c.minFreq
  | .pCutoff | .pDrive | .pSub | .pFold | .pDecay | .pAenvDepth | .pFenvDepth | .pFx
  | .dDriveAmt | .dResonance | .dDecayS | .dFenvDepth => N.ofInt 0

/-- The high end of a register's legal range; `none` for `+Inf` (Table 20-1, column "range"). -/
def ParamReg.hi {α : Type} [N : NumDomain α] (c : Cfg) : ParamReg → Option α
  | .dCutoffHz => some (fmax c)
  | .dDecayS => none
  | .dFenvDepth =>
    match c.fenvMode with
    | .addHz => some (fmax c)
    | .sweep => some (N.ofInt 1)
  | .pCutoff | .pDrive | .pSub | .pFold | .pDecay | .pAenvDepth | .pFenvDepth | .pFx | .pBend
  | .dDriveAmt | .dResonance => some (N.ofInt 1)

/-- `rd(a)` (R65): the only way an operation sees a parameter. -/
def rd (c : Cfg) (p : Params) (r : ParamReg) : F32 :=
  san (N := f32Domain c.elem) (F32.ofBits (p.get r))
    (r.lo (N := f32Domain c.elem) c) (r.hi (N := f32Domain c.elem) c)

/-- The parameter values a TICK consumes, sanitised (R66: the ten registers that are read). -/
structure Patch (α : Type) where
  bend : α
  sub : α
  fold : α
  aenvDepth : α
  fx : α
  cutoffHz : α
  driveAmt : α
  resonance : α
  decayS : α
  fenvDepth : α
  deriving DecidableEq, Repr

/-- Every parameter read of one TICK; the registers are stable within it (R72). -/
def readPatch (c : Cfg) (p : Params) : Patch F32 where
  bend := rd c p .pBend
  sub := rd c p .pSub
  fold := rd c p .pFold
  aenvDepth := rd c p .pAenvDepth
  fx := rd c p .pFx
  cutoffHz := rd c p .dCutoffHz
  driveAmt := rd c p .dDriveAmt
  resonance := rd c p .dResonance
  decayS := rd c p .dDecayS
  fenvDepth := rd c p .dFenvDepth

/-- A note number less a reference note, a signed integer converted exactly (R18 (a)). -/
def noteOffset {α : Type} [N : NumDomain α] (note : Note) (ref : Int) : α :=
  N.ofInt ((note.toNat : Int) - ref)

/-- The stored velocity: `velocity / 127`, or 1.0 when the command carried none (R83, R151). -/
def velocityNum {α : Type} [N : NumDomain α] : Option Velocity → α
  | some v => N.ofInt (v.toNat : Int) / N.ofInt 127
  | none => N.ofInt 1

end Sys2Proof.Machine
end

