-- ==== Sys2Proof/Machine/Flags.lean ====
section
/-! DEFINITION. The few-bit items of R45. "The block has no condition codes or arithmetic flags": what
there is are the derived flag `active(i)` (R30) and the fields of `RESP` (R44). -/

namespace Sys2Proof.Machine

/-- `VOICE.ISACTIVE(i)` (R150): gated, or the amplitude envelope strictly above `ACTIVE_EPS`. -/
def isActive {α : Type} [N : NumDomain α] (c : Cfg) (v : Voice α) : Bool :=
  v.gate || N.lt (N.ofDec c.activeEps) v.aenv.val

/-- How a NOTEON got its slot (R170): `kind` of the response. -/
inductive NoteOnKind where
  /-- (a) The note already held the slot. -/
  | held
  /-- (b) A free slot was claimed. -/
  | free
  /-- (c) The slot was stolen. -/
  | steal
  deriving DecidableEq, Repr

/-- The two bits `RESP[14:13]` of a NOTEON (R44). -/
def NoteOnKind.code : NoteOnKind → BitVec 2
  | .held => 1#2
  | .free => 2#2
  | .steal => 3#2

/-- The response word (R44): `found`, `kind`, five zeros, and the slot index in 8 bits. -/
def respWord (found : Bool) (kind : BitVec 2) (slot : Nat) : RespWord :=
  BitVec.ofBool found ++ kind ++ 0#5 ++ BitVec.ofNat 8 slot

/-- The response to a NOTEON: `found = 1`, the kind and the chosen slot (R201). -/
def noteOnResponse (kind : NoteOnKind) (slot : Nat) : RespWord := respWord true kind.code slot

/-- The response to a NOTEOFF: the freed slot with `kind = 0`, or `0x0000` for "not found" (R202). -/
def noteOffResponse : Option Nat → RespWord
  | some slot => respWord true 0#2 slot
  | none => respWord false 0#2 0

end Sys2Proof.Machine
end

