-- ==== Sys2Proof/Machine/Allocator.lean ====
section
/-! DEFINITION. The Voice Allocator (`45_allocator.md`): ALLOC.NOTEON, ALLOC.NOTEOFF. -/

namespace Sys2Proof.Machine

/-- The slot that holds a note (R170 (a), R171); at most one does (R36 (a)). -/
def slotHolding (slots : List Slot) (note : Note) : Option Nat :=
  slots.findIdx? fun x => x.valid && x.note == note

/-- The lowest free slot (R170 (b)); free is `A.valid = 0` and nothing else (R172). -/
def lowestFree (slots : List Slot) : Option Nat := slots.findIdx? fun x => !x.valid

/-- The slot with the smallest age from index `i` on, against the best so far. -/
def oldestFrom : List Slot → Nat → Nat → Nat → Nat
  | [], _, best, _ => best
  | x :: xs, i, best, age =>
    if x.age < age then oldestFrom xs (i + 1) i x.age else oldestFrom xs (i + 1) best age

/-- The slot with the smallest age, "the lowest `i` among equals" (R170 (c)). -/
def oldestSlot : List Slot → Nat
  | [] => 0
  | x :: xs => oldestFrom xs 1 0 x.age

/-- The choice of `ALLOC.NOTEON(note)` (R170): the slot and how it was got, by priority (a), (b), (c). -/
def chooseSlot (slots : List Slot) (note : Note) : Nat × NoteOnKind :=
  match slotHolding slots note with
  | some i => (i, .held)
  | none =>
    match lowestFree slots with
    | some i => (i, .free)
    | none => (oldestSlot slots, .steal)

/-- `ALLOC.NOTEON(note)` (R170): the counter first, then the chosen slot takes the note and the
incremented counter as its age. -/
def allocNoteOn (a : Alloc) (note : Note) : (Nat × NoteOnKind) × Alloc :=
  let ctr := a.ctr + 1
  let r := chooseSlot a.slots note
  (r, ⟨a.slots.set r.1 ⟨true, note, ctr⟩, ctr⟩)

/-- `ALLOC.NOTEOFF(note)` (R171): the freed slot, or `none` for "not found". -/
def allocNoteOff (a : Alloc) (note : Note) : Option Nat × Alloc :=
  match slotHolding a.slots note with
  | some i => (some i, { a with slots := a.slots.modify i fun x => { x with valid := false } })
  | none => (none, a)

end Sys2Proof.Machine
end

