-- ==== Sys2Proof/Machine/Effects.lean ====
section
/-! DEFINITION. The Effects Chain (`46_effects.md`): FX.PROCESS, FX.B, FX.A and the free stages of
topology A. -/

namespace Sys2Proof.Machine

section Chain
variable {α : Type} [N : NumDomain α]

/-- `FX.B(x, amt)` (R186): the single saturating stage, mixed in by the amount. -/
def fxB (c : Cfg) (x amt : α) : α :=
  let gfx := N.ofInt 1 + N.ofDec c.fxK * amt
  let wet := san (x * gfx) (N.ofInt (-1)) (some (N.ofInt 1))
  x + amt * (wet - x)

/-- The three-way crossfade of topology A (R188) between the dry signal `x`, the modulation stage's
output `m` and the ambience stage's output `b`. -/
def crossfade (x m b amt : α) : α :=
  if N.le amt (N.ofDec ⟨1, 2⟩) then
    let t := N.ofInt 2 * amt
    x + t * (m - x)
  else
    let t := N.ofInt 2 * amt - N.ofInt 1
    m + t * (b - m)

/-- `FX.A(x, amt)` (R188): both stages are stepped, the ambience stage fed by the modulation stage. -/
def fxA {σ τ : Type} (modStep : σ → α → σ × α) (ambStep : τ → α → τ × α) (x amt : α) (st : σ × τ) :
    α × (σ × τ) :=
  let m := modStep st.1 x
  let b := ambStep st.2 m.2
  (crossfade x m.2 b.2 amt, (m.1, b.1))

/-- `FX.PROCESS(x, amt)` (R185): strictly below the threshold the operand itself is returned and no
state is touched; otherwise the configured topology. -/
def fxProcess {σ τ : Type} (c : Cfg) (modStep : σ → α → σ × α) (ambStep : τ → α → τ × α)
    (x amt : α) (st : σ × τ) : α × (σ × τ) :=
  if N.lt amt (N.ofDec c.fxBypassEps) then (x, st)
  else match c.fxTopology with
    | .b => (fxB c x amt, st)
    | .a => fxA modStep ambStep x amt st

end Chain

/-- A stage of topology A (R187; log 7): its next buffer is free but of its fixed size, its output on
a finite input free but finite. -/
def stageStep (kind : FxStage) (p : StageParams) (buffer : List Word) (x : F32) : List Word × F32 :=
  (fitBuffer p.size (Config.stageNext kind p.id buffer x),
    match x with
    | .fin _ _ =>
      let y := Config.stageOutFinite kind p.id buffer x
      .fin y.1 y.2
    | .nan s k => Config.stageOutOther kind p.id buffer (.nan s k)
    | .inf s => Config.stageOutOther kind p.id buffer (.inf s))

/-- The chain on the block's own state `X` (R38, R185). -/
def fxRun (c : Cfg) (x amt : F32) (st : FxState) : F32 × FxState :=
  let r := fxProcess (N := f32Domain c.elem) c (stageStep .modulation c.modFx)
    (stageStep .ambience c.ambFx) x amt (st.mod, st.amb)
  (r.1, ⟨r.2.1, r.2.2⟩)

end Sys2Proof.Machine
end

