-- ==== Sys2Proof/Machine/Envelope.lean ====
section
/-! DEFINITION. The Envelope Generator (`42_envelope.md`): ENV.COEF, ENV.GATE_ON, ENV.GATE_OFF,
ENV.STEP. -/

namespace Sys2Proof.Machine

variable {α : Type} [N : NumDomain α]

/-- `ENV.COEF(time)` (R120); `none` is the mark `INSTANT`. -/
def envCoef (c : Cfg) (time : α) : Option α :=
  if N.lt time (N.ofDec c.instantTime) then none
  else some (N.ofInt 1 - N.exp (N.ofInt (-1) / (time * N.ofDec c.fs)))

/-- `ENV.GATE_ON(e)` (R121): the stage only; the value is kept. -/
def envGateOn (e : Env α) : Env α := { e with stage := .attack }

/-- `ENV.GATE_OFF(e)` (R122): RELEASE "from any state"; the value is kept. -/
def envGateOff (e : Env α) : Env α := { e with stage := .release }

/-- The target of a stage (R123, Table 42-1). -/
def stageTarget (st : Stage) (sustain : α) : α :=
  match st with
  | .attack => N.ofInt 1
  | .decay => sustain
  | .release => N.ofInt 0

/-- The time of a stage (R123, Table 42-1). -/
def stageTime (st : Stage) (tA tD tR : α) : α :=
  match st with
  | .attack => tA
  | .decay => tD
  | .release => tR

/-- One update of an envelope value (R123): an instant stage assigns its target exactly. -/
def approach (coef : Option α) (val target : α) : α :=
  match coef with
  | none => target
  | some k => val + k * (target - val)

/-- The stage after an update to `val` (R123): ATTACK ends once the new value reaches `ATTACK_THRESH`. -/
def stageAfter (c : Cfg) (st : Stage) (val : α) : Stage :=
  match st with
  | .attack => if N.le (N.ofDec c.attackThresh) val then .decay else .attack
  | .decay => .decay
  | .release => .release

/-- `ENV.STEP(e, sustain, tA, tD, tR)` (R123); the value it returns is the new `val`. -/
def envStep (c : Cfg) (e : Env α) (sustain tA tD tR : α) : Env α :=
  let val := approach (envCoef c (stageTime e.stage tA tD tR)) e.val (stageTarget e.stage sustain)
  ⟨stageAfter c e.stage val, val⟩

end Sys2Proof.Machine
end

