-- ==== Sys2Proof/Machine/Filter.lean ====
section
/-! DEFINITION. The Virtual-Analog Filter (`43_filter.md`): FLT.SAT, FLT.STEP, FLT.RESET, FLT.FLUSH. -/

namespace Sys2Proof.Machine

variable {α : Type} [N : NumDomain α]

/-- The level `L` of the saturator at a drive amount (R135). -/
def satLevel (c : Cfg) (d : α) : α := N.ofInt 1 / (N.ofInt 1 + N.ofDec c.driveK * d)

/-- `FLT.SAT(x, d)` (R135), of the configured kind. -/
def fltSat (c : Cfg) (x d : α) : α :=
  let l := satLevel c d
  match c.satKind with
  | .clamp => san x (-l) (some l)
  | .tanh => l * N.tanh (x / l)

/-- `FLT.FLUSH(s)` (R138): strictly below `FLUSH_EPS` in magnitude becomes positive zero. -/
def fltFlush (c : Cfg) (s : α) : α := if N.lt (N.abs s) (N.ofDec c.flushEps) then N.ofInt 0 else s

/-- `FLT.RESET(i)` (R137). -/
def fltReset (v : Voice α) : Voice α := { v with s1 := N.ofInt 0, s2 := N.ofInt 0, s3 := N.ofInt 0 }

/-- The coefficient `G = g / (1 + g)` with `g = tan((PI · fc) / FS)`, for the clamped cutoff (R136). -/
def fltCoef (c : Cfg) (cutoff : α) : α :=
  let fc := san cutoff (N.ofDec c.minFreq) (some (fmax c))
  let g := N.tan ((N.pi * fc) / N.ofDec c.fs)
  g / (N.ofInt 1 + g)

/-- One of the filter's two one-pole stages (R136): the output `lp` and the new state `lp + v`. -/
def onePole (g u s : α) : α × α :=
  let v := (u - s) * g
  let lp := v + s
  (lp, lp + v)

/-- The solved input `u` of the first stage (R136): the feedback tap is last sample's `s3`. -/
def fltInput (c : Cfg) (g x s3 res drive : α) : α :=
  let k := N.ofDec c.kMax * san res (N.ofInt 0) (some (N.ofInt 1))
  let d := san drive (N.ofInt 0) (some (N.ofInt 1))
  (x - k * fltSat c s3 d) / (N.ofInt 1 + k * (g * g))

/-- `FLT.STEP(i, x, cutoff, res, drive)` (R136): the output `lp2` as computed, and the voice with the
three states flushed as they are stored. -/
def fltStep (c : Cfg) (v : Voice α) (x cutoff res drive : α) : α × Voice α :=
  let g := fltCoef c cutoff
  let u := fltInput c g x v.s3 res drive
  let p1 := onePole g u v.s1
  let p2 := onePole g p1.1 v.s2
  (p2.1, { v with
    s1 := fltFlush c p1.2
    s2 := fltFlush c p2.2
    s3 := fltFlush c p2.1 })

end Sys2Proof.Machine
end

