-- ==== Sys2Proof/Machine/Oscillator.lean ====
section
/-! DEFINITION. The Oscillator Stage (`40_oscillator.md`): NOTEFREQ, BENDFACTOR, OSC.STEP. -/

namespace Sys2Proof.Machine

variable {α : Type} [N : NumDomain α]

/-- `NOTEFREQ(note)` (R100): `440 · exp2((note - 69) / 12)`. -/
def noteFreq (note : Note) : α :=
  N.ofInt 440 * N.exp2 (noteOffset note 69 / N.ofInt 12)

/-- `BENDFACTOR(pb)` (R101): "the product first, then the division". -/
def bendFactor (c : Cfg) (pb : α) : α :=
  N.exp2 ((pb * N.ofDec c.bendRange) / N.ofInt 12)

/-- A phase advanced by an increment and wrapped: "advance phase modulo 1" (R102). -/
def advancePhase (ph dt : α) : α :=
  let next := ph + dt
  next - N.floor next

/-- The PolyBLEP correction at the phase `ph` (R102): strict comparisons, first match wins. -/
def blepCorrection (ph dt : α) : α :=
  if N.lt ph dt then
    let x := ph / dt
    ((N.ofInt 2 * x) - (x * x)) - N.ofInt 1
  else if N.lt (N.ofInt 1 - dt) ph then
    let x := (ph - N.ofInt 1) / dt
    ((x * x) + (N.ofInt 2 * x)) + N.ofInt 1
  else N.ofInt 0

/-- The band-limited sawtooth at the advanced phase `ph` (R102). -/
def sawAt (ph dt : α) : α := (N.ofInt 2 * ph - N.ofInt 1) - blepCorrection ph dt

/-- The sub-oscillator at the advanced phase `ph` (R102): `sin((2 · PI) · ph)`. -/
def subAt (ph : α) : α := N.sin ((N.ofInt 2 * N.pi) * ph)

/-- `OSC.STEP(i, dt)` (R102): the pair `(saw, sub)` and the voice with both phases advanced, the
sub-oscillator's by `dt / 2`. -/
def oscStep (v : Voice α) (dt : α) : (α × α) × Voice α :=
  let ph := advancePhase v.phSaw dt
  let ps := advancePhase v.phSub (dt / N.ofInt 2)
  ((sawAt ph dt, subAt ps), { v with phSaw := ph, phSub := ps })

end Sys2Proof.Machine
end

