-- ==== Sys2Proof/Machine/Wavefolder.lean ====
section
/-! DEFINITION. The Wavefolder (`41_wavefolder.md`): FOLD. -/

namespace Sys2Proof.Machine

variable {α : Type} [N : NumDomain α]

/-- The triangle wrap of `FOLD` (R110): period 4, amplitude 1. -/
def triangleWrap (g : α) : α :=
  let t := g + N.ofInt 1
  let w := t - N.ofInt 4 * N.floor (t / N.ofInt 4)
  N.abs (w - N.ofInt 2) - N.ofInt 1

/-- `FOLD(x, a)` (R110): a NaN gives 0.0, everything else is clamped to `±FOLD_IN_MAX` first. -/
def fold (c : Cfg) (x a : α) : α :=
  if N.isNaN x then N.ofInt 0
  else
    let y := san x (-(N.ofDec c.foldInMax)) (some (N.ofDec c.foldInMax))
    let gain := N.ofInt 1 + N.ofDec c.foldK * a
    triangleWrap (y * gain)

end Sys2Proof.Machine
end

