-- ==== Sys2Proof/Machine/VoiceOps.lean ====
section
/-! DEFINITION. The Voice (`44_voice.md`): VOICE.NOTEON, VOICE.NOTEOFF, VOICE.PROCESS
(VOICE.ISACTIVE is `isActive` in Flags.lean). -/

namespace Sys2Proof.Machine

variable {α : Type} [N : NumDomain α]

/-- `VOICE.NOTEON(i, note, velocity, hv)` (R151). -/
def voiceNoteOn (c : Cfg) (note : Note) (velocity : Option Velocity) (v : Voice α) : Voice α :=
  let started : Voice α := { v with
    note := note
    vel := velocityNum velocity
    gate := true
    aenv := envGateOn v.aenv
    fenv := envGateOn v.fenv }
  match c.retrig with
  | .retrigger => fltReset { started with phSaw := N.ofInt 0, phSub := N.ofInt 0 }
  | .legato => started

/-- `VOICE.NOTEOFF(i, note)` (R152): only if the voice still plays `note`. -/
def voiceNoteOff (note : Note) (v : Voice α) : Voice α :=
  if v.note = note then
    { v with gate := false, aenv := envGateOff v.aenv, fenv := envGateOff v.fenv }
  else v

/-- The phase increment of a tick, `(NOTEFREQ(note) · BENDFACTOR(pb)) / FS` (R153, step 1). -/
def phaseIncrement (c : Cfg) (note : Note) (bend : α) : α :=
  (noteFreq note * bendFactor c bend) / N.ofDec c.fs

/-- The oscillator mix with the optional velocity pre-gain (R153, steps 1 and 2). -/
def mixLevel (c : Cfg) (saw sub subLevel vel : α) : α :=
  let m := saw + subLevel * sub
  if c.velEn then m * vel else m

/-- The base cutoff (R153, step 5): key tracking and the optional velocity scaling. -/
def baseCutoff (c : Cfg) (cutoffHz : α) (note : Note) (vel : α) : α :=
  let kt := N.exp2 ((N.ofDec c.keytrack * noteOffset note 60) / N.ofInt 12)
  let base := cutoffHz * kt
  if c.velEn then base * (N.ofInt 1 - N.ofDec c.velCutAmt * (N.ofInt 1 - vel)) else base

/-- The modulated cutoff (R153, step 5) from the base cutoff and the squared filter envelope. -/
def modulatedCutoff (c : Cfg) (base depth e2 : α) : α :=
  match c.fenvMode with
  | .addHz => base + depth * e2
  | .sweep =>
    let head := maxNum (N.ofDec c.fenvCeilHz - base) (N.ofInt 0)
    base + (head * depth) * e2

/-- `VOICE.PROCESS(i)` for an active voice (R153, steps 1 to 7). -/
def voiceSample (c : Cfg) (p : Patch α) (v : Voice α) : α × Voice α :=
  let dt := phaseIncrement c v.note p.bend
  let o := oscStep v dt
  let m := mixLevel c o.1.1 o.1.2 p.sub v.vel
  let w := fold c m p.fold
  let aenv := envStep c v.aenv (N.ofInt 1 - p.aenvDepth) (N.ofDec c.tAttack) p.decayS (N.ofDec c.tRelease)
  let fenv := envStep c v.fenv (N.ofInt 0) (N.ofDec c.tAttack) p.decayS (N.ofDec c.tRelease)
  let fc := modulatedCutoff c (baseCutoff c p.cutoffHz v.note v.vel) p.fenvDepth (fenv.val * fenv.val)
  let y := fltStep c { o.2 with aenv := aenv, fenv := fenv } w fc p.resonance p.driveAmt
  (y.1 * aenv.val, y.2)

/-- `VOICE.PROCESS(i)` (R153): an inactive voice returns 0.0 and nothing of it is written (R156). -/
def voiceProcess (c : Cfg) (p : Patch α) (v : Voice α) : α × Voice α :=
  if isActive c v then voiceSample c p v else (N.ofInt 0, v)

/-- The voices of one TICK (R204): processed and added in ascending slot order, from `acc` on. -/
def processVoices (c : Cfg) (p : Patch α) : α → List (Voice α) → α × List (Voice α)
  | acc, [] => (acc, [])
  | acc, v :: vs =>
    let r := voiceProcess c p v
    let rest := processVoices c p (acc + r.1) vs
    (rest.1, r.2 :: rest.2)

end Sys2Proof.Machine
end

