-- ==== Sys2Proof/Machine/Commands.lean ====
section
/-! DEFINITION. The six commands (`47_commands.md`), one meaning each. That a command advances `pc`
is the step's business (R200's preamble: "not repeated in the pseudocode"). -/

namespace Sys2Proof.Machine

/-- `NOP` (R200): do nothing. -/
def execNop (s : State) : Host.Outcome State Fault Refusal := .next s

/-- `NOTEON note[, velocity]` (R201): the allocator chooses, the voice of that slot is started, the
response names the slot and how it was got. -/
def execNoteOn (note : Note) (velocity : Option Velocity) (s : State) :
    Host.Outcome State Fault Refusal :=
  let r := allocNoteOn s.alloc note
  .next ((({ s with alloc := r.2 }).modifyVoice r.1.1
    (voiceNoteOn (N := f32Domain s.cfg.elem) s.cfg note velocity)).raiseResponse
      (noteOnResponse r.1.2 r.1.1))

/-- `NOTEOFF note` (R202): the slot that holds the note is freed and its voice released; the response
says whether one was found. -/
def execNoteOff (note : Note) (s : State) : Host.Outcome State Fault Refusal :=
  let r := allocNoteOff s.alloc note
  match r.1 with
  | some i =>
    .next ((({ s with alloc := r.2 }).modifyVoice i (voiceNoteOff note)).raiseResponse
      (noteOffResponse (some i)))
  | none => .next (s.raiseResponse (noteOffResponse none))

/-- `SETP addr, value` (R203): one parameter register, or nothing at an unmapped address. -/
def execSetp (addr : Addr) (value : Word) (s : State) : Host.Outcome State Fault Refusal :=
  .next { s with params := memWrite s.params addr value }

/-- The sample of a TICK (R204) and the voices and effects state it leaves. -/
def tickSample (s : State) : F32 × List (Voice F32) × FxState :=
  let patch := readPatch s.cfg s.params
  let sum := processVoices (N := f32Domain s.cfg.elem) s.cfg patch .zero s.voices
  let y := fxRun s.cfg sum.1 patch.fx s.fx
  (y.1, sum.2, y.2)

/-- `TICK` (R204): produce one output sample. -/
def execTick (s : State) : Host.Outcome State Fault Refusal :=
  let r := tickSample s
  .next (({ s with voices := r.2.1, fx := r.2.2 }).raiseSample r.1)

/-- `INIT` (R206): all of `V`, `A`, `X` at their reset values; `P`, `OUT`, `RESP` kept. -/
def execInit (s : State) : Host.Outcome State Fault Refusal :=
  .next { s with
    voices := List.replicate s.cfg.nVoices Voice.reset
    alloc := Alloc.resetOf s.cfg
    fx := FxState.resetOf s.cfg }

end Sys2Proof.Machine
end

