-- ==== Sys2Proof/Machine/Dispatch.lean ====
section
/-! DEFINITION. The meaning of every command of the opcode map (Table 30-2). -/

namespace Sys2Proof.Machine

def exec (i : Instr) (s : State) : Host.Outcome State Fault Refusal :=
  match i with
  | .nop => Sys2Proof.Machine.execNop s
  | .noteOn note velocity => Sys2Proof.Machine.execNoteOn note velocity s
  | .noteOff note => Sys2Proof.Machine.execNoteOff note s
  | .setp addr value => Sys2Proof.Machine.execSetp addr value s
  | .tick => Sys2Proof.Machine.execTick s
  | .init => Sys2Proof.Machine.execInit s

end Sys2Proof.Machine
end

