-- ==== Sys2Proof/Machine/Step.lean ====
section
/-! DEFINITION. One step of the block: one command (R205, R275), or what the port and the reset input
make of a step without one. -/

namespace Sys2Proof.Machine

/-- The state with the one command `w` (numbered as the opcode table numbers its bits) standing first
on the port of a block that is out of reset, so that the next step accepts it. -/
def State.withFetchWord (s : State) (nbits w : Nat) : State :=
  { s with pending := tableWord nbits w :: s.pending.drop 1, cmdReady := true, rst := false }

/-- One step (R5, R6). Under `rst` the state is the reset state (R260); with no command waiting the
block idles (R276); otherwise the first word is accepted and run, a reserved opcode "exactly as for
NOP" (R87). -/
def step (s : State) : Host.Outcome State Fault Refusal :=
  if s.rst then .next s.underReset
  else if s.cmdReady then
    match s.pending with
    | [] => .next s.idle
    | w :: rest =>
      match decode w with
      | .ok i => exec i (s.accept rest)
      | .error (.reservedOpcode _) => .next (s.accept rest)
  else .next s.leaveReset

end Sys2Proof.Machine
end

