-- ==== Sys2Proof/Machine/Driver.lean ====
section
/-! DEFINITION. The driver's side: the reference scaling curves (`48_parameter_curves.md`) and the
assembler's pseudo-instructions (R92). "Nothing in this file is executed by the block"; the step does
not use it (log 11). -/

namespace Sys2Proof.Machine

section Curves
variable {α : Type} [N : NumDomain α]

/-- A raw control clamped to [0, 1], as every curve begins (R221 to R225). -/
def rawControl (x : α) : α := san x (N.ofInt 0) (some (N.ofInt 1))

/-- `CURVE.CUTOFF(c)` (R221), over the assembler's `pow`. -/
def curveCutoff (pow : α → α → α) (x : α) : α := N.ofInt 5 * pow (N.ofInt 3600) (rawControl x)

/-- `CURVE.DRIVE(d)` (R222). -/
def curveDrive (pow : α → α → α) (x : α) : α :=
  let d := rawControl x
  if N.eq d (N.ofInt 0) then N.ofInt 0 else pow d (N.ofDec ⟨3, 5⟩)

/-- `CURVE.RES(d)` (R223). -/
def curveRes (x : α) : α := rawControl x * rawControl x

/-- `CURVE.DECAY(t)` (R224). -/
def curveDecay (pow : α → α → α) (x : α) : α := N.ofDec ⟨5, 1000⟩ * pow (N.ofInt 1000) (rawControl x)

/-- `CURVE.FENV(x)` (R225). -/
def curveFenv (c : Cfg) (x : α) : α :=
  match c.fenvMode with
  | .addHz => N.ofInt 10000 * rawControl x
  | .sweep => rawControl x

end Curves

/-- `n` more terms of the series of `artanh z`, from the term `t = z^(2k+1)` on, for `z <= 1/3`. -/
def artanhTerms (p : Nat) (z2 : Ivl) : Nat → Nat → Ivl → Ivl → Ivl
  | 0, _, t, acc => ⟨acc.lo, acc.hi + 2 * t.hi⟩
  | n + 1, k, t, acc =>
      artanhTerms p z2 n (k + 1) (Ivl.mul p t z2) (acc.add (t.divNat (2 * k + 1)))

/-- `|ln a|` for `a` units of 2^-149, `0 < a`: with `f` the significand of `a` in [1, 2),
`ln f = 2 artanh ((f - 1) / (f + 1))`. -/
def lnIvl (p a : Nat) : Ivl :=
  let l := Nat.log2 a
  let q := ((a - (1 <<< l)) <<< p) / (a + (1 <<< l))
  let z : Ivl := ⟨q, q + 1⟩
  let h := artanhTerms p (Ivl.mul p z z) (p / 3 + 4) 0 z ⟨0, 0⟩
  let l2 := ln2Ivl p
  if 149 ≤ l then ⟨(l - 149) * l2.lo + 2 * h.lo, (l - 149) * l2.hi + 2 * h.hi⟩
  else ⟨(149 - l) * l2.lo - 2 * h.hi, (149 - l) * l2.hi - 2 * h.lo⟩

/-- `a` to the power `b`, both in units of 2^-149, as `e^(± b |ln a|)`. -/
def powEnclosure (a b p : Nat) : Enclosure :=
  let n := lnIvl p a
  let e := expIvl p ⟨(b * n.lo) >>> 149, ((b * n.hi) >>> 149) + 1⟩
  if a < 1 <<< 149 then ⟨1 <<< (p + 149), e.hi, 1 <<< (p + 149), e.lo⟩
  else ⟨e.lo <<< 149, 1 <<< p, e.hi <<< 149, 1 <<< p⟩

/-- The assembler's `pow(a, b)`, correctly rounded (R221), for a positive base and an exponent in
[0, 1], all that the curves ask of it; free elsewhere (log 11). -/
def f32Pow (a b : F32) : F32 :=
  match a, b with
  | .fin false m, .fin t n =>
    let x := magUnits m
    let y := magUnits n
    if y = 0 ∨ x = 1 <<< 149 then .one
    else if t = true ∨ x = 0 ∨ 1 <<< 149 < y then Config.powOpen a b
    else if y = 1 <<< 149 then a
    else (firstSettled (fun p => (powEnclosure x y p).settled false) workingPrecisions).getD
      (roundAbove false (powAbove x y))
  | _, _ => Config.powOpen a b

/-- The pseudo-instructions of R92; an operand is the 32 bits the raw register is to hold. -/
inductive Pseudo where
  | ticks (k : Nat)
  | setCutoff (x : Word)
  | setDrive (x : Word)
  | setDecay (x : Word)
  | setFenv (x : Word)
  | setSub (x : Word)
  | setFold (x : Word)
  | setAenv (x : Word)
  | setFx (x : Word)
  | setBend (x : Word)
  deriving DecidableEq, Repr

/-- The SETP of a register. -/
def setpTo (r : ParamReg) (x : Word) : Instr := .setp r.addr x

/-- The SETP of a register with a number. -/
def setpNum (r : ParamReg) (y : F32) : Instr := setpTo r (F32.toBits y)

/-- The expansion of a pseudo-instruction (R92): "raw register first". -/
def Pseudo.expand (c : Cfg) : Pseudo → List Instr
  | .ticks k => List.replicate k .tick
  | .setCutoff x =>
    [setpTo .pCutoff x, setpNum .dCutoffHz (curveCutoff (N := f32Domain c.elem) f32Pow (F32.ofBits x))]
  | .setDrive x =>
    [setpTo .pDrive x, setpNum .dDriveAmt (curveDrive (N := f32Domain c.elem) f32Pow (F32.ofBits x)),
      setpNum .dResonance (curveRes (N := f32Domain c.elem) (F32.ofBits x))]
  | .setDecay x =>
    [setpTo .pDecay x, setpNum .dDecayS (curveDecay (N := f32Domain c.elem) f32Pow (F32.ofBits x))]
  | .setFenv x =>
    [setpTo .pFenvDepth x, setpNum .dFenvDepth (curveFenv (N := f32Domain c.elem) c (F32.ofBits x))]
  | .setSub x => [setpTo .pSub x]
  | .setFold x => [setpTo .pFold x]
  | .setAenv x => [setpTo .pAenvDepth x]
  | .setFx x => [setpTo .pFx x]
  | .setBend x => [setpTo .pBend x]

end Sys2Proof.Machine
end

