-- ==== Sys2Proof/Machine/RealDomain.lean ====
section
/-! DEFINITION. The instance `REAL` of the numeric domain (R10): "the real numbers with exact
operations". The properties the spec states in REAL are statements about the same formulas over it;
no step of the machine uses it. -/

namespace Sys2Proof.Machine

/-- The instance `REAL` (R10): "the real numbers with exact operations". It has no NaN. DESIGN CHOICE
(log 16), for the spec gives no value there: a quotient by 0 and the tangent at a pole of its own have
the values that Mathlib's total functions give them, `x / 0 = 0` and `tan = 0`. -/
@[reducible] noncomputable def realDomain : NumDomain ℝ where
  toAdd := inferInstance
  toSub := inferInstance
  toMul := inferInstance
  toDiv := inferInstance
  toNeg := inferInstance
  floor x := (⌊x⌋ : ℝ)
  abs x := |x|
  lt x y := @decide (x < y) (Classical.propDecidable _)
  le x y := @decide (x ≤ y) (Classical.propDecidable _)
  eq x y := @decide (x = y) (Classical.propDecidable _)
  isNaN _ := false
  ofInt n := (n : ℝ)
  ofDec d := (d.num : ℝ) / (d.den : ℝ)
  pi := Real.pi
  exp := Real.exp
  exp2 x := (2 : ℝ) ^ x
  tan := Real.tan
  sin := Real.sin
  tanh := Real.tanh

/-- The real number a finite binary32 stands for (R10); 0 for a NaN or an infinity, which stand for none. -/
noncomputable def f32Real : F32 → ℝ
  | .fin s m => (signedUnits s m : ℝ) / 2 ^ 149
  | .inf _ => 0
  | .nan _ _ => 0

/-- The real value of a decimal constant. -/
noncomputable def decReal (d : Dec) : ℝ := (d.num : ℝ) / (d.den : ℝ)

/-- The mathematical functions `ELEM` stands for (R11). -/
noncomputable def elemReal : ElemFn → ℝ → ℝ
  | .exp, x => Real.exp x
  | .exp2, x => (2 : ℝ) ^ x
  | .tan, x => Real.tan x
  | .sin, x => Real.sin x
  | .tanh, x => Real.tanh x

/-- An enclosure holds a real number `v`, which is not below 0. -/
def Enclosure.holds (e : Enclosure) (v : ℝ) : Prop :=
  0 < e.loDen ∧ 0 < e.hiDen ∧ (e.loNum : ℝ) / e.loDen ≤ v * 2 ^ 149 ∧ v * 2 ^ 149 ≤ (e.hiNum : ℝ) / e.hiDen

end Sys2Proof.Machine
end

