-- ==== Sys2Proof/Safety.lean ====
section
/-! DEFINITION. What counts as a good state and a safe run, in the terms the claims use: the spec's
invariants, what a driver observes, and what it is to be rounded once. -/

namespace Sys2Proof.Machine

/-- R36 (a): "At most one slot per active note". -/
abbrev Alloc.notesApart (a : Alloc) : Prop :=
  a.slots.Pairwise fun x y => ¬ (x.valid = true ∧ y.valid = true ∧ x.note = y.note)

/-- R36 (b): no age is above the counter. -/
abbrev Alloc.agesBounded (a : Alloc) : Prop := ∀ x ∈ a.slots, x.age ≤ a.ctr

/-- R36 (c): the ages of slots that have ever been triggered are distinct. -/
abbrev Alloc.agesApart (a : Alloc) : Prop :=
  a.slots.Pairwise fun x y => 0 < x.age → 0 < y.age → x.age ≠ y.age

/-- R170 (corner case (a)): every valid slot has been triggered. -/
abbrev Alloc.heldTriggered (a : Alloc) : Prop := ∀ x ∈ a.slots, x.valid = true → 0 < x.age

/-- R31: an ungated voice has both envelopes in RELEASE. -/
abbrev Voice.ungatedReleases (v : Voice F32) : Prop :=
  v.gate = false → v.aenv.stage = .release ∧ v.fenv.stage = .release

/-- R31, its other half: "a gated voice is in ATTACK or DECAY, never in RELEASE". -/
abbrev Voice.gatedSounds (v : Voice F32) : Prop :=
  v.gate = true → v.aenv.stage ≠ .release ∧ v.fenv.stage ≠ .release

/-- A filter state after a flush: exactly +0.0, or not below `FLUSH_EPS` in magnitude (R29). -/
abbrev flushedState (c : Cfg) (s : F32) : Prop :=
  s = .zero ∨ F32.lt (F32.abs s) (F32.ofDec c.flushEps) = false

/-- R29: none of the three filter states is small without being zero. -/
abbrev Voice.flushed (c : Cfg) (v : Voice F32) : Prop :=
  flushedState c v.s1 ∧ flushedState c v.s2 ∧ flushedState c v.s3

/-- R174: a slot's entry and its voice agree: `A.valid[i] = V[i].gate`, and a held slot's note is the
voice's. -/
abbrev slotAgrees (p : Slot × Voice F32) : Prop :=
  p.1.valid = p.2.gate ∧ (p.1.valid = true → p.2.note = p.1.note)

/-- The format of `RESP` (R44): `RESP[12:8]` is zero and `RESP[7:0]` a slot of the pool. -/
abbrev respFormat (c : Cfg) (r : RespWord) : Prop :=
  r.extractLsb' 8 5 = 0#5 ∧ (r.extractLsb' 0 8).toNat < c.nVoices

/-- The buffers of the effects chain have their fixed sizes in topology A, and are absent in B (R38). -/
abbrev FxState.sized (c : Cfg) (x : FxState) : Prop :=
  match c.fxTopology with
  | .a => x.mod.length = c.modFx.size ∧ x.amb.length = c.ambFx.size
  | .b => x.mod = [] ∧ x.amb = []

/-- The invariant of the machine: the spec's invariants R29, R31, R36, R174 with the shape of the
state they speak of. -/
structure Inv (s : State) : Prop where
  cfgWf : s.cfg.wf = true
  voiceCount : s.voices.length = s.cfg.nVoices
  slotCount : s.alloc.slots.length = s.cfg.nVoices
  notesApart : s.alloc.notesApart
  agesBounded : s.alloc.agesBounded
  agesApart : s.alloc.agesApart
  heldTriggered : s.alloc.heldTriggered
  ungatedReleases : ∀ v ∈ s.voices, v.ungatedReleases
  gatedSounds : ∀ v ∈ s.voices, v.gatedSounds
  flushed : ∀ v ∈ s.voices, v.flushed s.cfg
  slotsAgree : ∀ p ∈ s.alloc.slots.zip s.voices, slotAgrees p
  resp : respFormat s.cfg s.resp
  fxSized : s.fx.sized s.cfg

/-- A run stays within the age counter of a built block (R37, R272). -/
def State.ageInRange (s : State) : Bool := decide (s.alloc.ctr < 2 ^ s.cfg.ageW)

/-- The block is ready to accept a command: out of reset, `cmd_ready` = 1 (R6, R260). -/
def State.ready (s : State) : Prop := s.rst = false ∧ s.cmdReady = true

/-- What a driver observes of a step (R15): the sample, if one was raised, and the response, if one was. -/
def State.observed (s : State) : Option Word × Option RespWord :=
  (if s.outValid then some s.out else none, if s.respValid then some s.resp else none)

/-- A program: the command words accepted one after another from a state, and the observations (R15). -/
def runProgram : State → List CmdWord → State × List (Option Word × Option RespWord)
  | s, [] => (s, [])
  | s, w :: ws =>
    match step { s with pending := w :: ws } with
    | .next t => let r := runProgram t ws; (r.1, t.observed :: r.2)
    | .fault _ => (s, [])
    | .refused _ => (s, [])

/-- `merged` is an interleaving of the two agents' command lists, each in its own order (R5). -/
inductive Interleaves {β : Type} : List β → List β → List β → Prop where
  | done : Interleaves [] [] []
  | audio (x : β) {xs ys zs : List β} : Interleaves xs ys zs → Interleaves (x :: xs) ys (x :: zs)
  | control (y : β) {xs ys zs : List β} : Interleaves xs ys zs → Interleaves xs (y :: ys) (y :: zs)

/-- The bits of a command word that its command uses (Table 30-1); "the block's behaviour does not
depend on" the others (R88). -/
def usedBits (w : CmdWord) : CmdWord :=
  match (opField w).toNat with
  | 0x01 => if hvField w then 0xFF017F7F00000000#64 else 0xFF017F0000000000#64
  | 0x02 => 0xFF007F0000000000#64
  | 0x03 => 0xFF00FF00FFFFFFFF#64
  | _ => 0xFF00000000000000#64

/-- The word's opcode, in place: the word under the mask of Table 30-2. -/
def opBits (w : CmdWord) : CmdWord := w &&& 0xFF00000000000000#64

/-- The four raw controls that no operation reads (R66). -/
def ParamReg.unread : ParamReg → Bool
  | .pCutoff | .pDrive | .pDecay | .pFenvDepth => true
  | .pSub | .pFold | .pAenvDepth | .pFx | .pBend | .dCutoffHz | .dDriveAmt | .dResonance
  | .dDecayS | .dFenvDepth => false

/-- The column "range" of Table 20-1, with `FMAX` the product of the two rounded constants (R13). -/
def tableRange (c : Cfg) : ParamReg → F32 × Option F32
  | .pCutoff | .pDrive | .pSub | .pFold | .pDecay | .pAenvDepth | .pFenvDepth | .pFx
  | .dDriveAmt | .dResonance => (.zero, some .one)
  | .pBend => (F32.neg .one, some .one)
  | .dCutoffHz => (F32.ofDec c.minFreq, some (F32.mul (F32.ofDec c.fs) (F32.ofDec c.nyqFrac)))
  | .dDecayS => (.zero, none)
  | .dFenvDepth =>
    (.zero, some (if c.fenvMode = .sweep then .one else F32.mul (F32.ofDec c.fs) (F32.ofDec c.nyqFrac)))

/-- The priorities of `ALLOC.NOTEON` (R170) as a property of its answer: (a) the slot holds the note;
(b) no slot holds it, and this is the lowest free one; (c) none holds it, none is free, and this one
has the smallest age, the lowest index among equals. -/
def chosenBy (slots : List Slot) (note : Note) (slot : Nat) : NoteOnKind → Prop
  | .held => ∃ x, slots[slot]? = some x ∧ x.valid = true ∧ x.note = note
  | .free => (∀ x ∈ slots, x.valid = true → x.note ≠ note) ∧
      (∃ x, slots[slot]? = some x ∧ x.valid = false) ∧
      ∀ j y, j < slot → slots[j]? = some y → y.valid = true
  | .steal => (∀ x ∈ slots, x.valid = true ∧ x.note ≠ note) ∧
      ∃ x, slots[slot]? = some x ∧
        ∀ j y, slots[j]? = some y → x.age ≤ y.age ∧ (j < slot → x.age < y.age)

/-- The answers of a list of `ALLOC.NOTEON` calls (R176). -/
def allocAnswers : Alloc → List Note → List (Nat × NoteOnKind)
  | _, [] => []
  | a, n :: ns => let r := allocNoteOn a n; r.1 :: allocAnswers r.2 ns

/-- `r` is the finite binary32 nearest to the real number `v`; of two that are equally near, the one
whose last fraction bit is 0 ("ties to even", R10). -/
def nearestTo (v : ℝ) (r : F32) : Prop :=
  ∃ neg mag, r = .fin neg mag ∧
    (∀ x : F32, x.isFinite = true → |f32Real r - v| ≤ |f32Real x - v|) ∧
    ((∃ x : F32, x.isFinite = true ∧ f32Real x ≠ f32Real r ∧ |f32Real x - v| = |f32Real r - v|) →
      mag.val % 2 = 0)

/-- The largest finite binary32 and half a unit in its last place: the real numbers of at least this
magnitude round to an infinity (R10). -/
noncomputable def overflowBound : ℝ := (2 - 2 ^ (-24 : ℤ)) * 2 ^ (127 : ℤ)

/-- `r` is the real number `v` rounded once to binary32: an infinity of its sign past the range of the
format, the nearest finite number within it (R10, R11). -/
def roundedFrom (v : ℝ) (r : F32) : Prop :=
  (|v| < overflowBound ∧ nearestTo v r) ∨ (overflowBound ≤ v ∧ r = .inf false) ∨
    (v ≤ -overflowBound ∧ r = .inf true)

end Sys2Proof.Machine
end

