-- ==== Sys2Proof/Certificates/Slice0/Obligations.lean ====
section
/-! DEFINITION. The statements for the provers. -/

open Sys2Proof Sys2Proof.Machine

/-! ## Reset and the step -/

/-- R261, Table 70-1: every piece of state at its reset value, for every configuration (the initial
states of the stages of topology A are free, log 7). The clause on a step under `rst` is the model's
choice (log 3): R260 says that in the model reset is no step. -/
def Obligations.ResetState : Prop :=
  State.reset = State.resetOf Cfg.ref ∧
  (∀ s : State, s.rst = true → ∃ t, step s = .next t ∧ t.cmdReady = false) ∧
  ∀ c : Cfg,
    (State.resetOf c).voices = List.replicate c.nVoices
      { phSaw := .zero, phSub := .zero, note := 0, vel := .one, gate := false,
        aenv := ⟨.release, .zero⟩, fenv := ⟨.release, .zero⟩, s1 := .zero, s2 := .zero, s3 := .zero } ∧
    (State.resetOf c).alloc = ⟨List.replicate c.nVoices ⟨false, 0, 0⟩, 0⟩ ∧
    (c.fxTopology = .a → (State.resetOf c).fx =
      ⟨stageInitial .modulation c.modFx, stageInitial .ambience c.ambFx⟩) ∧
    (State.resetOf c).params =
      { pCutoff := 0x3F000000#32, pDrive := 0#32, pSub := 0#32, pFold := 0#32, pDecay := 0x3F000000#32,
        pAenvDepth := 0#32, pFenvDepth := 0#32, pFx := 0#32, pBend := 0#32,
        dCutoffHz := 0x43960000#32, dDriveAmt := 0#32, dResonance := 0#32, dDecayS := 0x3E21E89B#32,
        dFenvDepth := 0#32 } ∧
    (State.resetOf c).out = 0#32 ∧ (State.resetOf c).resp = 0#16 ∧
    (State.resetOf c).outValid = false ∧ (State.resetOf c).respValid = false ∧
    (State.resetOf c).cmdReady = true

/-- The model's reading of R260 (log 3): while `rst` is 1 a step leaves the reset state with
`cmd_ready` 0 and takes no command; the first step after it raises `cmd_ready`. -/
def Obligations.ResetInputForcesResetState : Prop :=
  ∀ s : State,
    (s.rst = true → step s = .next
      { State.resetOf s.cfg with cmdReady := false, rst := true, pending := s.pending, pc := s.pc }) ∧
    (s.rst = false → s.cmdReady = false → step s = .next
      { State.resetOf s.cfg with pending := s.pending, pc := s.pc })

/-- A ready block whose next command word decodes to `i` runs `i` on the state with that word accepted:
off the port, `pc` one further (R46), the pulses of the command before over (R6). -/
def Obligations.StepRunsDecodedCommand : Prop :=
  ∀ (s : State) (w : CmdWord) (rest : List CmdWord) (i : Instr),
    s.ready → s.pending = w :: rest → decode w = .ok i →
    step s = exec i { s with pending := rest, pc := s.pc + 1, outValid := false, respValid := false }

/-- R87: a word with an opcode 0x06 to 0xFF changes no state and goes on to the next command, exactly
as the word of NOP does. -/
def Obligations.ReservedOpcodeActsAsNop : Prop :=
  ∀ (s : State) (w : CmdWord) (rest : List CmdWord),
    s.ready → s.pending = w :: rest → 0x06 ≤ w.toNat / 2 ^ 56 →
    step s = .next { s with pending := rest, pc := s.pc + 1, outValid := false, respValid := false } ∧
    step s = step { s with pending := 0x0000000000000000#64 :: rest }

/-- R276: with no command waiting the block idles, ready, and holds `OUT`, `RESP` and all state; only
the pulses of the last command end (R6). -/
def Obligations.IdleBlockHoldsState : Prop :=
  ∀ s : State, s.ready → s.pending = [] →
    step s = .next { s with outValid := false, respValid := false }

/-- R230: the one outcome of a command, and of a step, is a next state. -/
def Obligations.EveryCommandCompletes : Prop :=
  (∀ (i : Instr) (s : State), ∃ t, exec i s = .next t) ∧ ∀ s : State, ∃ t, step s = .next t

/-- R46, R205 (d): every accepted word, whatever it is, takes the stream on by exactly one command and
leaves the block ready; no command goes anywhere else, and none changes the configuration (R7). -/
def Obligations.CommandStreamAdvancesByOne : Prop :=
  ∀ (s : State) (w : CmdWord) (rest : List CmdWord), s.ready → s.pending = w :: rest →
    ∃ t, step s = .next t ∧ t.pending = rest ∧ t.pc = s.pc + 1 ∧ t.ready ∧ t.cfg = s.cfg

/-! ## Encoding -/

/-- R91: the encoding examples. -/
def Obligations.EncodingExamples : Prop :=
  decode 0x0000000000000000#64 = .ok .nop ∧ encode .nop = 0x0000000000000000#64 ∧
  decode 0x01003C0000000000#64 = .ok (.noteOn 60 none) ∧
  encode (.noteOn 60 none) = 0x01003C0000000000#64 ∧
  decode 0x01013C6400000000#64 = .ok (.noteOn 60 (some 100)) ∧
  encode (.noteOn 60 (some 100)) = 0x01013C6400000000#64 ∧
  decode 0x02003C0000000000#64 = .ok (.noteOff 60) ∧ encode (.noteOff 60) = 0x02003C0000000000#64 ∧
  decode 0x03001000447A0000#64 = .ok (.setp 0x10#8 0x447A0000#32) ∧
  encode (.setp ParamReg.dCutoffHz.addr 0x447A0000#32) = 0x03001000447A0000#64 ∧
  F32.ofBits 0x447A0000#32 = F32.ofInt 1000 ∧
  decode 0x03000800BF800000#64 = .ok (.setp 0x08#8 0xBF800000#32) ∧
  encode (.setp ParamReg.pBend.addr 0xBF800000#32) = 0x03000800BF800000#64 ∧
  F32.ofBits 0xBF800000#32 = F32.ofInt (-1) ∧
  decode 0x0400000000000000#64 = .ok .tick ∧ encode .tick = 0x0400000000000000#64 ∧
  decode 0x0500000000000000#64 = .ok .init ∧ encode .init = 0x0500000000000000#64 ∧
  decode 0x0180BC0012345678#64 = .ok (.noteOn 60 none)

/-- Decoding the word of a well-formed instruction gives it back, with every operand, also through the
numbering of the opcode table. -/
def Obligations.DecodeOfEncode : Prop :=
  ∀ i : Instr, i.wf = true →
    decode (encode i) = .ok i ∧ decodeTableWord 64 (encode i).toNat = some i ∧ (encode i).wf = true

/-- R85: the decoder looks at `op` only; the word under the mask equal to the `match` value of Table
30-2 selects the command, and 0x06 to 0xFF select none. -/
def Obligations.OpcodeMaskSelectsCommand : Prop :=
  ∀ w : CmdWord,
    (opBits w = 0x0000000000000000#64 ↔ decode w = .ok .nop) ∧
    (opBits w = 0x0100000000000000#64 ↔ ∃ n v, decode w = .ok (.noteOn n v)) ∧
    (opBits w = 0x0200000000000000#64 ↔ ∃ n, decode w = .ok (.noteOff n)) ∧
    (opBits w = 0x0300000000000000#64 ↔ ∃ a v, decode w = .ok (.setp a v)) ∧
    (opBits w = 0x0400000000000000#64 ↔ decode w = .ok .tick) ∧
    (opBits w = 0x0500000000000000#64 ↔ decode w = .ok .init) ∧
    (0x06 ≤ w.toNat / 2 ^ 56 ↔ ∃ r, decode w = .error r)

/-- R82, R83, R84: the operands are the named bit fields of the word; the velocity is there exactly
when `HV` is 1. -/
def Obligations.OperandsAreBitFields : Prop :=
  ∀ w : CmdWord,
    (∀ n v, decode w = .ok (.noteOn n v) → n.toNat = w.toNat / 2 ^ 40 % 2 ^ 7 ∧
      (w.toNat / 2 ^ 48 % 2 = 1 → ∃ u, v = some u ∧ u.toNat = w.toNat / 2 ^ 32 % 2 ^ 7) ∧
      (w.toNat / 2 ^ 48 % 2 = 0 → v = none)) ∧
    (∀ n, decode w = .ok (.noteOff n) → n.toNat = w.toNat / 2 ^ 40 % 2 ^ 7) ∧
    (∀ a x, decode w = .ok (.setp a x) →
      a.toNat = w.toNat / 2 ^ 40 % 2 ^ 8 ∧ x.toNat = w.toNat % 2 ^ 32)

/-- R88, R81: two words that agree on the bits their command uses decode alike, and a step of a ready
block on one is its step on the other; the encoder writes exactly those bits and clears the others. -/
def Obligations.IgnoredBitsDoNotMatter : Prop :=
  (∀ (w : CmdWord) (i : Instr), decode w = .ok i → encode i = w &&& usedBits w) ∧
  ∀ w w' : CmdWord, w &&& usedBits w = w' &&& usedBits w →
    decode w = decode w' ∧ ∀ (s : State) (rest : List CmdWord), s.ready →
      step { s with pending := w :: rest } = step { s with pending := w' :: rest }

/-! ## The parameter registers -/

/-- R60, Table 20-1: which register each address names, and that the other 242 name none. -/
def Obligations.AddressMap : Prop :=
  ∀ p : Params,
    memRead p 0x00#8 = some p.pCutoff ∧ memRead p 0x01#8 = some p.pDrive ∧
    memRead p 0x02#8 = some p.pSub ∧ memRead p 0x03#8 = some p.pFold ∧
    memRead p 0x04#8 = some p.pDecay ∧ memRead p 0x05#8 = some p.pAenvDepth ∧
    memRead p 0x06#8 = some p.pFenvDepth ∧ memRead p 0x07#8 = some p.pFx ∧
    memRead p 0x08#8 = some p.pBend ∧ memRead p 0x10#8 = some p.dCutoffHz ∧
    memRead p 0x11#8 = some p.dDriveAmt ∧ memRead p 0x12#8 = some p.dResonance ∧
    memRead p 0x13#8 = some p.dDecayS ∧ memRead p 0x14#8 = some p.dFenvDepth ∧
    ∀ a : Addr, memRead p a = none ↔
      ¬ (a.toNat ≤ 0x08 ∨ (0x10 ≤ a.toNat ∧ a.toNat ≤ 0x14))

/-- R63, R203: SETP completes; the addressed register, if mapped, takes all 32 bits as given, every
other address reads as before, nothing else changes, and an unmapped address changes nothing. -/
def Obligations.SetpWritesOneRegister : Prop :=
  ∀ (s : State) (a : Addr) (v : Word), ∃ p,
    exec (.setp a v) s = .next { s with params := p } ∧
    (∀ b, memRead p b = if b = a then (memRead s.params a).map (fun _ => v) else memRead s.params b) ∧
    (memRead s.params a = none → p = s.params)

/-- R66: the four raw controls that have a derived counterpart change no sample and no response of any
program. -/
def Obligations.RawControlsAreInaudible : Prop :=
  ∀ (s : State) (q : Params),
    (∀ r : ParamReg, r.unread = false → q.get r = s.params.get r) →
    ∀ ws : List CmdWord, (runProgram { s with params := q } ws).2 = (runProgram s ws).2

/-- R65: the sanitised read of every register, for every stored word: a NaN and a value below the range
read as its low end, a value above as its high end, everything else as it is. -/
def Obligations.SanitisedRead : Prop :=
  ∀ (c : Cfg) (p : Params) (r : ParamReg),
    let x := F32.ofBits (p.get r)
    let lo := (tableRange c r).1
    rd c p r =
      if x.isNaN = true ∨ F32.lt x lo = true then lo
      else match (tableRange c r).2 with
        | some hi => if F32.lt hi x = true then hi else x
        | none => x

/-- R14: the clamp, on binary32 with any elementary functions. -/
def Obligations.SanClampsAndNeverAnswersNaN : Prop :=
  ∀ (elem : ElemFn → F32 → F32) (x lo : F32) (hi : Option F32), lo.isFinite = true →
    (∀ h, hi = some h → h.isFinite = true ∧ F32.le lo h = true) →
    let r := san (N := f32With elem) x lo hi
    (x.isNaN = true → r = lo) ∧ (F32.lt x lo = true → r = lo) ∧
    (∀ h, hi = some h → F32.lt h x = true → r = h) ∧
    (x.isNaN = false → F32.lt x lo = false → (∀ h, hi = some h → F32.lt h x = false) → r = x) ∧
    r.isNaN = false ∧ (r.isFinite = false → hi = none ∧ x = .inf false) ∧
    F32.le lo r = true ∧ ∀ h, hi = some h → F32.le r h = true

/-! ## NOP, NOTEON, NOTEOFF, INIT -/

/-- R200: NOP completes and changes nothing. -/
def Obligations.NopChangesNothing : Prop :=
  ∀ s : State, exec .nop s = .next s

/-- R170: `ALLOC.NOTEON` answers the slot of the first priority that applies, and writes the incremented
counter and the chosen entry, nothing else. -/
def Obligations.AllocNoteOnByPriority : Prop :=
  ∀ (a : Alloc) (note : Note), a.slots ≠ [] → ∃ slot kind,
    chosenBy a.slots note slot kind ∧ slot < a.slots.length ∧
    allocNoteOn a note = ((slot, kind), ⟨a.slots.set slot ⟨true, note, a.ctr + 1⟩, a.ctr + 1⟩)

/-- R201, R151: NOTEON completes; the chosen voice is started, the response names the slot and how it
was got, and nothing else changes. -/
def Obligations.NoteOnStartsChosenVoice : Prop :=
  ∀ (s : State) (note : Note) (velocity : Option Velocity),
    s.alloc.slots.length = s.voices.length → 0 < s.voices.length → s.voices.length ≤ 128 →
    ∃ slot kind v, chosenBy s.alloc.slots note slot kind ∧ s.voices[slot]? = some v ∧
      exec (.noteOn note velocity) s = .next { s with
        alloc := ⟨s.alloc.slots.set slot ⟨true, note, s.alloc.ctr + 1⟩, s.alloc.ctr + 1⟩
        voices := s.voices.set slot
          { phSaw := if s.cfg.retrig = .retrigger then .zero else v.phSaw
            phSub := if s.cfg.retrig = .retrigger then .zero else v.phSub
            note := note
            vel := match velocity with
              | some n => F32.div (F32.ofInt n.toNat) (F32.ofInt 127)
              | none => .one
            gate := true
            aenv := ⟨.attack, v.aenv.val⟩
            fenv := ⟨.attack, v.fenv.val⟩
            s1 := if s.cfg.retrig = .retrigger then .zero else v.s1
            s2 := if s.cfg.retrig = .retrigger then .zero else v.s2
            s3 := if s.cfg.retrig = .retrigger then .zero else v.s3 }
        resp := BitVec.ofNat 16 (0x8000 + 0x2000 * (match kind with
          | .held => 1
          | .free => 2
          | .steal => 3) + slot)
        respValid := true }

/-- R176: on a pool of any size, that many distinct notes and one more take the slots in turn and then
steal exactly the slot that was triggered first; and a NOTEON for a note that holds a slot answers that
slot and consumes no free one. -/
def Obligations.OneNoteTooManyStealsFirstSlot : Prop :=
  (∀ (a : Alloc) (note : Note) (i : Nat) (x : Slot), a.notesApart → a.slots[i]? = some x →
    x.valid = true → x.note = note →
    ∃ b : Alloc, allocNoteOn a note = ((i, .held), b) ∧
      ∀ j : Nat, (b.slots[j]?).map (fun y : Slot => (y.valid, y.note)) =
        (a.slots[j]?).map (fun y : Slot => (y.valid, y.note))) ∧
  ∀ (c : Cfg) (notes : List Note), 1 ≤ c.nVoices → notes.Nodup → notes.length = c.nVoices + 1 →
    allocAnswers (Alloc.resetOf c) notes =
      (List.range c.nVoices).map (fun i => (i, NoteOnKind.free)) ++ [(0, NoteOnKind.steal)]

/-- R202, R171, R152: NOTEOFF of a held note completes; its slot is freed, its voice, if it still plays
that note, is released, the response names the slot, and nothing else changes. -/
def Obligations.NoteOffReleasesHeldNote : Prop :=
  ∀ (s : State) (note : Note) (i : Nat) (x : Slot) (v : Voice F32), s.alloc.notesApart →
    s.alloc.slots[i]? = some x → x.valid = true → x.note = note → s.voices[i]? = some v → i < 128 →
    exec (.noteOff note) s = .next { s with
      alloc := { s.alloc with slots := s.alloc.slots.set i { x with valid := false } }
      voices := s.voices.set i (if v.note = note then
        { v with gate := false, aenv := ⟨.release, v.aenv.val⟩, fenv := ⟨.release, v.fenv.val⟩ } else v)
      resp := BitVec.ofNat 16 (0x8000 + i)
      respValid := true }

/-- R202, R171: NOTEOFF of a note that holds no slot completes and changes nothing but the response,
which reports it. -/
def Obligations.NoteOffOfUnheldNote : Prop :=
  ∀ (s : State) (note : Note), (∀ x ∈ s.alloc.slots, x.valid = true → x.note ≠ note) →
    exec (.noteOff note) s = .next { s with resp := 0x0000#16, respValid := true }

/-- R267: after a NOTEON has stolen the slot of a note, a NOTEOFF for the stolen note changes nothing
but the response, which says "not found". -/
def Obligations.StaleNoteOffIsHarmless : Prop :=
  ∀ (s : State) (note stolen : Note) (velocity : Option Velocity) (slot : Nat) (x : Slot),
    s.alloc.notesApart → s.alloc.slots[slot]? = some x → x.valid = true → x.note = stolen →
    (allocNoteOn s.alloc note).1 = (slot, .steal) →
    ∃ t, exec (.noteOn note velocity) s = .next t ∧
      exec (.noteOff stolen) t = .next { t with resp := 0x0000#16, respValid := true }

/-- R206: INIT completes; the voices, the allocator and the effects state are at their reset values, and
nothing else changes (R262: the registers, `OUT` and `RESP` are left as they are). -/
def Obligations.InitResetsVoicesAndAllocator : Prop :=
  ∀ s : State, exec .init s = .next { s with
    voices := List.replicate s.cfg.nVoices
      { phSaw := .zero, phSub := .zero, note := 0, vel := .one, gate := false,
        aenv := ⟨.release, .zero⟩, fenv := ⟨.release, .zero⟩, s1 := .zero, s2 := .zero, s3 := .zero }
    alloc := ⟨List.replicate s.cfg.nVoices ⟨false, 0, 0⟩, 0⟩
    fx := (State.resetOf s.cfg).fx }

/-- R173: over any program without an INIT the age counter grows by the number of NOTEON words,
whatever else the program holds. -/
def Obligations.AgeCounterCountsNoteOns : Prop :=
  ∀ (s : State) (ws : List CmdWord), s.ready → (∀ w ∈ ws, opBits w ≠ 0x0500000000000000#64) →
    (runProgram s ws).1.alloc.ctr =
      s.alloc.ctr + ws.countP (fun w => opBits w == 0x0100000000000000#64)

/-! ## TICK -/

/-- R204: TICK completes; every voice is processed with the patch of this tick (what that computes is
`VoiceProcessFollowsItsSevenSteps`), the samples are added in ascending slot order from 0.0, the sum goes
through the effects chain, its answer is `OUT`, and the allocator, `RESP` and the parameter registers are
left alone. No voice, active or not, has its note, velocity or gate changed. -/
def Obligations.TickProducesOneSample : Prop :=
  ∀ s : State,
    let result := voiceProcess (N := f32Domain s.cfg.elem) s.cfg (readPatch s.cfg s.params)
    let sum := (s.voices.map fun v => (result v).1).foldl F32.add .zero
    let chain := fxRun s.cfg sum (rd s.cfg s.params .pFx) s.fx
    exec .tick s = .next { s with
      voices := s.voices.map fun v => (result v).2
      fx := chain.2
      out := F32.toBits chain.1
      outValid := true } ∧
    ∀ v, (result v).2.note = v.note ∧ (result v).2.vel = v.vel ∧ (result v).2.gate = v.gate

/-- R156: an inactive voice returns exactly 0.0 and a TICK leaves all of its record as it was. -/
def Obligations.InactiveVoiceIsFrozen : Prop :=
  ∀ (s : State) (i : Nat) (v : Voice F32), s.voices[i]? = some v →
    isActive (N := f32Domain s.cfg.elem) s.cfg v = false →
    (voiceProcess (N := f32Domain s.cfg.elem) s.cfg (readPatch s.cfg s.params) v).1 = .zero ∧
    ∃ t, exec .tick s = .next t ∧ t.voices[i]? = some v

/-- R204 corner case (a), R263: in `CFG_REF` a TICK with no active voice gives the sample 0.0, whatever
the parameter registers hold, and changes nothing else. -/
def Obligations.SilentBlockGivesZero : Prop :=
  ∀ s : State, s.cfg = Cfg.ref →
    (∀ v ∈ s.voices, isActive (N := f32Domain s.cfg.elem) s.cfg v = false) →
    exec .tick s = .next { s with out := 0x00000000#32, outValid := true }

/-- R243: what a TICK makes of voice `i` depends on that voice's own record and the parameter registers
alone, not on the other voices, the allocator or the effects state. -/
def Obligations.VoicesShareNothing : Prop :=
  ∀ (s s' t t' : State) (i : Nat), s.cfg = s'.cfg → s.params = s'.params →
    s.voices[i]? = s'.voices[i]? → exec .tick s = .next t → exec .tick s' = .next t' →
    t.voices[i]? = t'.voices[i]?

/-- R205 (c), (e), R240: which command writes which output, that SETP alone writes a parameter register,
and that a command's effect does not depend on the stream it stands in: the same command from the same
state of the block leaves the same state, the same sample and the same response, whatever its index
`pc` and the words behind it. The state before is one in which a command has just been accepted (no pulse
is up). -/
def Obligations.OutputsBelongToTheirCommands : Prop :=
  ∀ (i : Instr) (s t : State), s.outValid = false → s.respValid = false → exec i s = .next t →
    (t.outValid = true ↔ i = .tick) ∧
    (t.respValid = true ↔ (∃ n v, i = .noteOn n v) ∨ ∃ n, i = .noteOff n) ∧
    (t.out ≠ s.out → i = .tick) ∧
    (t.resp ≠ s.resp → (∃ n v, i = .noteOn n v) ∨ ∃ n, i = .noteOff n) ∧
    (t.params ≠ s.params → ∃ a v, i = .setp a v) ∧
    t.cfg = s.cfg ∧ t.pc = s.pc ∧ t.pending = s.pending ∧ t.cmdReady = s.cmdReady ∧ t.rst = s.rst ∧
    ∀ (n : ℕ) (ps : List CmdWord),
      exec i { s with pc := n, pending := ps } = .next { t with pc := n, pending := ps }

/-- R5, R173: the responses to the control agent do not depend on where the audio agent's TICKs fall
among its commands, and there is one sample per TICK. -/
def Obligations.ResponsesIgnoreInterleaving : Prop :=
  ∀ (s : State) (audio control merged : List CmdWord), s.ready →
    (∀ w ∈ audio, opBits w = 0x0400000000000000#64) →
    (∀ w ∈ control, opBits w ≠ 0x0400000000000000#64) → Interleaves audio control merged →
    (runProgram s merged).2.filterMap (·.2) = (runProgram s control).2.filterMap (·.2) ∧
    ((runProgram s merged).2.filterMap (·.1)).length = audio.length

/-! ## Invariants -/

/-- R29, R31, R36, R174 and the shape of the state hold in the reset state of every well-formed
configuration. -/
def Obligations.ResetMeetsInvariant : Prop :=
  ∀ c : Cfg, c.wf = true → Inv (State.resetOf c)

/-- R29, R31, R36, R174 and the shape of the state are kept by every step from every state. -/
def Obligations.StepKeepsInvariant : Prop :=
  ∀ s t : State, Inv s → step s = .next t → Inv t

/-! ## The components, in binary32 -/

/-- R121, R122, R123, R124: the stage machine of the envelope with its targets, its times and its update,
one rounded operation after the other: an instant stage assigns its target itself, a coefficient `k` gives
`val + k · (target - val)`. -/
def Obligations.EnvelopeStageTable : Prop :=
  ∀ (elem : ElemFn → F32 → F32) (c : Cfg) (e : Env F32) (sustain tA tD tR : F32),
    let t := envStep (N := f32With elem) c e sustain tA tD tR
    let moved := fun time target : F32 =>
      match envCoef (N := f32With elem) c time with
      | none => target
      | some k => F32.add e.val (F32.mul k (F32.sub target e.val))
    envGateOn e = ⟨.attack, e.val⟩ ∧ envGateOff e = ⟨.release, e.val⟩ ∧
    (e.stage = .attack →
      t.val = moved tA .one ∧
      t.stage = if F32.le (F32.ofDec c.attackThresh) t.val = true then .decay else .attack) ∧
    (e.stage = .decay →
      t.val = moved tD sustain ∧
      t.stage = .decay) ∧
    (e.stage = .release →
      t.val = moved tR .zero ∧
      t.stage = .release)

/-- R25, U9: in binary32, too, an envelope of `CFG_REF` never leaves [0, 1], for every provider of
`ELEM` with the properties of R12, or with as much of them as the correctly rounded functions have
(log 12). `CFG_REF`'s own provider has that much, and the providers that are not the reference one have
all of R12. -/
def Obligations.EnvelopeStaysInUnitIntervalInBinary32 : Prop :=
  (∀ (elem : ElemFn → F32 → F32) (e : Env F32) (sustain tA tD tR : F32),
    ElemProps elem ∨ ElemPropsInRange elem →
    F32.within .zero .one e.val → F32.within .zero .one sustain →
    F32.le .zero tA = true → F32.le .zero tD = true → F32.le .zero tR = true →
    F32.within .zero .one (envStep (N := f32With elem) Cfg.ref e sustain tA tD tR).val) ∧
  ElemPropsInRange (elemApply .reference) ∧ ∀ id : ℕ, ElemProps (elemApply (.other id))

/-- R22: a phase in [0, 1) advanced by any finite increment not below 0 is in [0, 1) again, in binary32. -/
def Obligations.PhaseStaysBelowOneInBinary32 : Prop :=
  ∀ (elem : ElemFn → F32 → F32) (ph dt : F32), F32.le .zero ph = true → F32.lt ph .one = true →
    F32.le .zero dt = true → dt.isFinite = true →
    F32.le .zero (advancePhase (N := f32With elem) ph dt) = true ∧
    F32.lt (advancePhase (N := f32With elem) ph dt) .one = true

/-- R111: the wavefolder answers in [-1, 1] for every input, finite or not, in REAL and in binary32. -/
def Obligations.FoldStaysInRange : Prop :=
  (∀ x a : ℝ, 0 ≤ a → a ≤ 1 → |fold (N := realDomain) Cfg.ref x a| ≤ 1) ∧
  ∀ (elem : ElemFn → F32 → F32) (x a : F32), F32.within .zero .one a →
    F32.within (F32.neg .one) .one (fold (N := f32With elem) Cfg.ref x a)

/-- R138, R29: a filter state below `FLUSH_EPS` in magnitude is stored as positive zero, and after a
step of the filter of `CFG_REF` no state is a subnormal. -/
def Obligations.FilterStatesAreFlushed : Prop :=
  ∀ elem : ElemFn → F32 → F32,
    (∀ (c : Cfg) (s : F32), fltFlush (N := f32With elem) c s =
      if F32.lt (F32.abs s) (F32.ofDec c.flushEps) = true then .zero else s) ∧
    ∀ (v : Voice F32) (x cutoff res drive : F32),
      let w := (fltStep (N := f32With elem) Cfg.ref v x cutoff res drive).2
      ∀ s ∈ [w.s1, w.s2, w.s3], s = .zero ∨ ∀ neg mag, s = .fin neg mag → 0x1E3CE508 ≤ mag.val

/-- R185 to R188: the effects chain in binary32, one rounded operation after the other. Strictly below
the threshold the operand itself comes out and no state is touched; otherwise topology B answers its
saturating stage and touches no state either, and topology A steps both stages, the ambience stage on the
modulation stage's output, and crossfades. What the stages answer is free (log 7), but for the fixed size
of their buffers and a finite output on a finite input. -/
def Obligations.EffectsChainContract : Prop :=
  (∀ (c : Cfg) (x amt : F32) (st : FxState),
    let one := F32.ofInt 1
    let two := F32.ofInt 2
    let wet := san (N := f32Domain c.elem) (F32.mul x (F32.add one (F32.mul (F32.ofDec c.fxK) amt)))
      (F32.ofInt (-1)) (some one)
    let m := stageStep .modulation c.modFx st.mod x
    let b := stageStep .ambience c.ambFx st.amb m.2
    (F32.lt amt (F32.ofDec c.fxBypassEps) = true → fxRun c x amt st = (x, st)) ∧
    (F32.lt amt (F32.ofDec c.fxBypassEps) = false → c.fxTopology = .b →
      fxRun c x amt st = (F32.add x (F32.mul amt (F32.sub wet x)), st)) ∧
    (F32.lt amt (F32.ofDec c.fxBypassEps) = false → c.fxTopology = .a →
      fxRun c x amt st =
        (if F32.le amt (F32.ofDec ⟨1, 2⟩) = true then
          F32.add x (F32.mul (F32.mul two amt) (F32.sub m.2 x))
        else F32.add m.2 (F32.mul (F32.sub (F32.mul two amt) one) (F32.sub b.2 m.2)), ⟨m.1, b.1⟩))) ∧
  ∀ (kind : FxStage) (p : StageParams) (buffer : List Word) (x : F32),
    (stageStep kind p buffer x).1.length = p.size ∧
    (x.isFinite = true → (stageStep kind p buffer x).2.isFinite = true)

/-! ## The components, in REAL -/

/-- R103: for 0 < dt < 0.5 the sawtooth stays in [-1, 1], and so in [-1.2, 1.2]; the sine does too; and
both phases are in [0, 1) after the step. -/
def Obligations.OscillatorIsBounded : Prop :=
  ∀ (v : Voice ℝ) (dt : ℝ), 0 < dt → dt < 1 / 2 →
    let r := oscStep (N := realDomain) v dt
    |r.1.1| ≤ 1 ∧ |r.1.2| ≤ 1 ∧ 0 ≤ r.2.phSaw ∧ r.2.phSaw < 1 ∧ 0 ≤ r.2.phSub ∧ r.2.phSub < 1

/-- R110, corner cases (a) to (c): the wrap is the triangle of period 4 and amplitude 1 that is `-g`
near 0. -/
def Obligations.FoldIsATriangle : Prop :=
  (∀ g : ℝ, |g| ≤ 1 → triangleWrap (N := realDomain) g = -g) ∧
  (∀ g : ℝ, triangleWrap (N := realDomain) (g + 2) = -triangleWrap (N := realDomain) g) ∧
  (∀ g : ℝ, triangleWrap (N := realDomain) (g + 4) = triangleWrap (N := realDomain) g) ∧
  ∀ a : ℝ, fold (N := realDomain) Cfg.ref 0 a = 0

/-- R25, R120: in REAL, with a positive rate and a positive `INSTANT_TIME` (so that no time that is not
instant is 0), the coefficient lies in [0, 1) and every step keeps the value in [0, 1]. -/
def Obligations.EnvelopeStaysInUnitInterval : Prop :=
  ∀ (c : Cfg) (e : Env ℝ) (sustain tA tD tR : ℝ), c.fs.pos = true → c.instantTime.pos = true →
    0 ≤ e.val → e.val ≤ 1 → 0 ≤ sustain → sustain ≤ 1 → 0 ≤ tA → 0 ≤ tD → 0 ≤ tR →
    (∀ k, envCoef (N := realDomain) c tD = some k → 0 ≤ k ∧ k < 1) ∧
    0 ≤ (envStep (N := realDomain) c e sustain tA tD tR).val ∧
    (envStep (N := realDomain) c e sustain tA tD tR).val ≤ 1

/-- R126: the attack of `CFG_REF` from 0: after `n` steps the value is 1 - e^(-n/480), and the stage is
ATTACK until step 3316, which reaches 0.999 and moves to DECAY. -/
def Obligations.AttackTakes3316Steps : Prop :=
  ∀ (sustain tD tR : ℝ) (n : ℕ), n ≤ 3316 →
    let e := (fun e => envStep (N := realDomain) Cfg.ref e sustain (decReal Cfg.ref.tAttack) tD tR)^[n]
      ⟨.attack, 0⟩
    e.val = 1 - Real.exp (-(n : ℝ) / 480) ∧ (e.stage = .attack ↔ n < 3316) ∧
    (n = 3316 → e.stage = .decay ∧ 999 / 1000 ≤ e.val)

/-- R126: the release of `CFG_REF` from 1: after `n` steps the value is e^(-n/4800), positive, strictly
decreasing, and at most 1e-4 from step 44210 on. -/
def Obligations.ReleaseFallsMonotonically : Prop :=
  ∀ (sustain tA tD : ℝ) (n : ℕ),
    let value := fun k : ℕ =>
      ((fun e => envStep (N := realDomain) Cfg.ref e sustain tA tD (decReal Cfg.ref.tRelease))^[k]
        ⟨.release, 1⟩).val
    value n = Real.exp (-(n : ℝ) / 4800) ∧ 0 < value n ∧ value (n + 1) < value n ∧
    (value n ≤ 1 / 10000 ↔ 44210 ≤ n)

/-- R135: both saturators are bounded by the level, which is in (0, 1], odd and non-decreasing; the
clamp passes small signals; and in binary32 the clamp of `CFG_REF` is bounded by 1 on every input. -/
def Obligations.SaturatorIsBounded : Prop :=
  (∀ (c : Cfg) (d x y : ℝ), c.driveK.nonneg = true → 0 ≤ d → d ≤ 1 →
    0 < satLevel (N := realDomain) c d ∧ satLevel (N := realDomain) c d ≤ 1 ∧
    |fltSat (N := realDomain) c x d| ≤ satLevel (N := realDomain) c d ∧
    fltSat (N := realDomain) c (-x) d = -fltSat (N := realDomain) c x d ∧
    (x ≤ y → fltSat (N := realDomain) c x d ≤ fltSat (N := realDomain) c y d) ∧
    (c.satKind = .clamp → |x| ≤ satLevel (N := realDomain) c d → fltSat (N := realDomain) c x d = x)) ∧
  ∀ (elem : ElemFn → F32 → F32) (x d : F32), F32.within .zero .one d →
    F32.le (F32.abs (fltSat (N := f32With elem) Cfg.ref x d)) .one = true

/-- R136 corner case (a), R139, R157: in `CFG_REF` the coefficient lies in (0, 1) for every cutoff, and
the feedback adds at most `K_MAX` to the filter's input. For an input in [-1, 1], with `B` 4.5, or 1
without resonance: at a cutoff at or below `FS/4`, states in [-B, B] stay there and the output is there;
at any cutoff of the whole clamped range, held, the two states keep the bounds `q B` and `q r B` and the
output the bound `r² B`, less than the `4 B` of R157, where `q` is `max 1 (G / (1 - G))` and `r` is
`max 1 (2 G)`; and at cutoffs that change from sample to sample the states keep the bounds `Q B` and
`Q² B`, the output `Q² B`, where `Q` is tan (0.49 pi). -/
def Obligations.FilterIsBounded : Prop :=
  (∀ cutoff x s3 res drive : ℝ,
    let g := fltCoef (N := realDomain) Cfg.ref cutoff
    0 < g ∧ g < 1 ∧ |fltInput (N := realDomain) Cfg.ref g x s3 res drive| ≤ |x| + 7 / 2) ∧
  (∀ (v : Voice ℝ) (x cutoff res drive bound : ℝ), cutoff ≤ 12000 → |x| ≤ 1 →
    |v.s1| ≤ bound → |v.s2| ≤ bound → (bound = 9 / 2 ∨ (bound = 1 ∧ res ≤ 0)) →
    let r := fltStep (N := realDomain) Cfg.ref v x cutoff res drive
    |r.1| ≤ bound ∧ |r.2.s1| ≤ bound ∧ |r.2.s2| ≤ bound ∧ |r.2.s3| ≤ bound) ∧
  ∀ (v : Voice ℝ) (x cutoff res drive bound : ℝ), |x| ≤ 1 →
    (bound = 9 / 2 ∨ (bound = 1 ∧ res ≤ 0)) →
    let g := fltCoef (N := realDomain) Cfg.ref cutoff
    let q := max 1 (g / (1 - g))
    let r := max 1 (2 * g)
    let Q := Real.tan (49 / 100 * Real.pi)
    let w := fltStep (N := realDomain) Cfg.ref v x cutoff res drive
    r * (r * bound) < 4 * bound ∧
    (|v.s1| ≤ q * bound → |v.s2| ≤ q * (r * bound) →
      |w.1| ≤ r * (r * bound) ∧ |w.2.s1| ≤ q * bound ∧ |w.2.s2| ≤ q * (r * bound) ∧
      |w.2.s3| ≤ r * (r * bound)) ∧
    (|v.s1| ≤ Q * bound → |v.s2| ≤ Q * (Q * bound) →
      |w.1| ≤ Q * (Q * bound) ∧ |w.2.s1| ≤ Q * bound ∧ |w.2.s2| ≤ Q * (Q * bound) ∧
      |w.2.s3| ≤ Q * (Q * bound))

/-- R140: the fixed point of the filter in the linear range of the saturator: the zero-frequency gain is
1 / (1 + k (1 + G²)), which is 1 without resonance. -/
def Obligations.FilterFixedPoint : Prop :=
  ∀ (v : Voice ℝ) (y cutoff res drive : ℝ), 0 ≤ res → res ≤ 1 → 0 ≤ drive → drive ≤ 1 →
    |y| ≤ satLevel (N := realDomain) Cfg.ref drive → (y = 0 ∨ 1 / 10 ^ 20 ≤ |y|) →
    v.s1 = y → v.s2 = y → v.s3 = y →
    let g := fltCoef (N := realDomain) Cfg.ref cutoff
    fltStep (N := realDomain) Cfg.ref v (y * (1 + 7 / 2 * res * (1 + g * g))) cutoff res drive = (y, v)

/-- R186 with its corner cases (b), (d), (e), R188: the saturating stage of topology B is
`x + amt · (san (x · (1 + FX_K · amt), -1, 1) - x)`, odd and non-decreasing, leaves 0 alone, and is
bounded by 1 at full amount; the crossfade of topology A is dry at 0, the modulation stage alone at the
midpoint, the ambience stage alone at 1, and linear between, never mixing dry with ambience. -/
def Obligations.EffectsStagesShape : Prop :=
  (∀ (c : Cfg) (x y amt : ℝ), c.fxK.nonneg = true → 0 ≤ amt → amt ≤ 1 →
    fxB (N := realDomain) c (-x) amt = -fxB (N := realDomain) c x amt ∧
    (x ≤ y → fxB (N := realDomain) c x amt ≤ fxB (N := realDomain) c y amt) ∧
    fxB (N := realDomain) c 0 amt = 0 ∧ fxB (N := realDomain) c x 0 = x ∧
    (amt = 1 → |fxB (N := realDomain) c x amt| ≤ 1) ∧
    fxB (N := realDomain) c x amt =
      x + amt * (max (-1) (min 1 (x * (1 + decReal c.fxK * amt))) - x)) ∧
  ∀ x m b amt : ℝ,
    crossfade (N := realDomain) x m b 0 = x ∧ crossfade (N := realDomain) x m b (1 / 2) = m ∧
    crossfade (N := realDomain) x m b 1 = b ∧
    (amt ≤ 1 / 2 → crossfade (N := realDomain) x m b amt = (1 - 2 * amt) * x + 2 * amt * m) ∧
    (1 / 2 ≤ amt → crossfade (N := realDomain) x m b amt = (2 - 2 * amt) * m + (2 * amt - 1) * b)

/-- R221 to R225: the five reference curves are strictly increasing on [0, 1], between the ends the
rules give. -/
def Obligations.CurvesAreIncreasing : Prop :=
  let pow : ℝ → ℝ → ℝ := fun a b => a ^ b
  (∀ x y : ℝ, 0 ≤ x → x < y → y ≤ 1 →
    curveCutoff (N := realDomain) pow x < curveCutoff (N := realDomain) pow y ∧
    curveDrive (N := realDomain) pow x < curveDrive (N := realDomain) pow y ∧
    curveRes (N := realDomain) x < curveRes (N := realDomain) y ∧
    curveDecay (N := realDomain) pow x < curveDecay (N := realDomain) pow y ∧
    curveFenv (N := realDomain) Cfg.ref x < curveFenv (N := realDomain) Cfg.ref y) ∧
  curveCutoff (N := realDomain) pow 0 = 5 ∧ curveCutoff (N := realDomain) pow 1 = 18000 ∧
  curveCutoff (N := realDomain) pow (1 / 2) = 300 ∧
  curveDrive (N := realDomain) pow 0 = 0 ∧ curveDrive (N := realDomain) pow 1 = 1 ∧
  curveRes (N := realDomain) 0 = 0 ∧ curveRes (N := realDomain) 1 = 1 ∧
  curveDecay (N := realDomain) pow 0 = 5 / 1000 ∧ curveDecay (N := realDomain) pow 1 = 5 ∧
  curveFenv (N := realDomain) Cfg.ref 0 = 0 ∧ curveFenv (N := realDomain) Cfg.ref 1 = 10000

/-- R226: every derived register resets to the curve value of its raw control's reset value, bit for
bit, in the binary32 instance. -/
def Obligations.DerivedRegistersResetOnTheirCurves : Prop :=
  let p := Params.reset
  p.dCutoffHz = F32.toBits (curveCutoff (N := f32Domain .reference) f32Pow (F32.ofBits p.pCutoff)) ∧
  p.dDriveAmt = F32.toBits (curveDrive (N := f32Domain .reference) f32Pow (F32.ofBits p.pDrive)) ∧
  p.dResonance = F32.toBits (curveRes (N := f32Domain .reference) (F32.ofBits p.pDrive)) ∧
  p.dDecayS = F32.toBits (curveDecay (N := f32Domain .reference) f32Pow (F32.ofBits p.pDecay)) ∧
  p.dFenvDepth = F32.toBits (curveFenv (N := f32Domain .reference) Cfg.ref (F32.ofBits p.pFenvDepth))

/-! ## The numbers -/

/-- R10: the rounding is to the nearest binary32, ties to even, for every fraction of units. -/
def Obligations.RoundsToNearestEven : Prop :=
  ∀ (neg : Bool) (num den : ℕ), 0 < den →
    roundedFrom ((if neg = true then -1 else 1) * ((num : ℝ) / den / 2 ^ 149)) (F32.round neg num den)

/-- R10, R11: sum, difference, product and quotient of finite numbers are the exact results rounded
once. -/
def Obligations.ArithmeticRoundsOnce : Prop :=
  ∀ (s t : Bool) (m n : F32Mag),
    let a := F32.fin s m
    let b := F32.fin t n
    roundedFrom (f32Real a + f32Real b) (F32.add a b) ∧
    roundedFrom (f32Real a - f32Real b) (F32.sub a b) ∧
    roundedFrom (f32Real a * f32Real b) (F32.mul a b) ∧
    (n.val ≠ 0 → roundedFrom (f32Real a / f32Real b) (F32.div a b))

/-- R11: the comparisons, the magnitude, `floor`, `min`, `max` and the conversion of an integer below
2^24 in magnitude are exact, and every comparison with a NaN is false. -/
def Obligations.ExactPrimitives : Prop :=
  (∀ (s t : Bool) (m n : F32Mag),
    let a := F32.fin s m
    let b := F32.fin t n
    (F32.lt a b = true ↔ f32Real a < f32Real b) ∧ (F32.le a b = true ↔ f32Real a ≤ f32Real b) ∧
    (F32.eq a b = true ↔ f32Real a = f32Real b) ∧
    (∀ elem : ElemFn → F32 → F32,
      f32Real (maxNum (N := f32With elem) a b) = max (f32Real a) (f32Real b) ∧
      f32Real (minNum (N := f32With elem) a b) = min (f32Real a) (f32Real b)) ∧
    f32Real (F32.abs a) = |f32Real a| ∧
    (F32.floor a).isFinite = true ∧ f32Real (F32.floor a) = (⌊f32Real a⌋ : ℝ)) ∧
  (∀ n : ℤ, |n| < 2 ^ 24 → (F32.ofInt n).isFinite = true ∧ f32Real (F32.ofInt n) = n) ∧
  ∀ (s : Bool) (k : Fin 0x7FFFFF) (x : F32),
    F32.lt (.nan s k) x = false ∧ F32.lt x (.nan s k) = false ∧ F32.le (.nan s k) x = false ∧
    F32.le x (.nan s k) = false ∧ F32.eq (.nan s k) x = false ∧ F32.eq x (.nan s k) = false

/-- R13: a decimal constant is rounded once to the nearest binary32; the constants the rule names have
the bit patterns it gives. -/
def Obligations.ConstantsAreRoundedOnce : Prop :=
  (∀ d : Dec, d.wf = true → roundedFrom (decReal d) (F32.ofDec d)) ∧
  F32.toBits (F32.ofDec Cfg.ref.attackThresh) = 0x3F7FBE77#32 ∧
  F32.toBits (F32.ofDec Cfg.ref.flushEps) = 0x1E3CE508#32 ∧
  F32.toBits (F32.ofDec Cfg.ref.nyqFrac) = 0x3EFAE148#32 ∧
  F32.toBits (F32.ofDec Cfg.ref.activeEps) = 0x38D1B717#32 ∧
  F32.toBits (F32.ofDec Cfg.ref.instantTime) = 0x3A83126F#32 ∧
  F32.toBits (fmax (N := f32Domain .reference) Cfg.ref) = 0x46B7C000#32

/-- R10: the numbers of the domain are exactly the bit patterns: reading and writing the 32 bits of a
number lose nothing, either way, and a NaN, an infinity and a finite number are what the exponent and
fraction fields say. -/
def Obligations.BitPatternsRoundTrip : Prop :=
  (∀ w : Word, F32.toBits (F32.ofBits w) = w) ∧ (∀ x : F32, F32.ofBits (F32.toBits x) = x) ∧
  ∀ w : Word,
    let expo : ℕ := w.toNat / 2 ^ 23 % 2 ^ 8
    let frac : ℕ := w.toNat % 2 ^ 23
    let sign : ℝ := if w.toNat / 2 ^ 31 = 1 then -1 else 1
    ((F32.ofBits w).isNaN = true ↔ expo = 255 ∧ frac ≠ 0) ∧
    ((F32.ofBits w).isFinite = true ↔ expo ≠ 255) ∧
    (expo = 0 → f32Real (F32.ofBits w) = sign * frac / 2 ^ 149) ∧
    (expo ≠ 0 → expo ≠ 255 →
      f32Real (F32.ofBits w) = sign * (1 + frac / 2 ^ 23) * (2 : ℝ) ^ ((expo : ℤ) - 127))

/-- R11: the reference `exp` and `exp2` of every finite number are the real functions rounded once;
where a fixed precision answers, its answer is that. -/
def Obligations.ReferenceExpAndExp2AreCorrectlyRounded : Prop :=
  ∀ (s : Bool) (m : F32Mag),
    let x := F32.fin s m
    roundedFrom (Real.exp (f32Real x)) (elemApply .reference .exp x) ∧
    roundedFrom ((2 : ℝ) ^ f32Real x) (elemApply .reference .exp2 x) ∧
    ∀ r : F32, (refExp s m = some r → roundedFrom (Real.exp (f32Real x)) r) ∧
      (refExp2 s m = some r → roundedFrom ((2 : ℝ) ^ f32Real x) r)

/-- R11: the reference `tanh` of every finite number is the real hyperbolic tangent rounded once;
where a fixed precision answers, its answer is that. -/
def Obligations.ReferenceTanhIsCorrectlyRounded : Prop :=
  ∀ (s : Bool) (m : F32Mag),
    let x := F32.fin s m
    roundedFrom (Real.tanh (f32Real x)) (elemApply .reference .tanh x) ∧
    ∀ r : F32, refTanh s m = some r → roundedFrom (Real.tanh (f32Real x)) r

/-- R11: the reference `sin` and `tan` of every finite number are the real functions rounded once;
where a fixed precision answers, its answer is that. -/
def Obligations.ReferenceSinAndTanAreCorrectlyRounded : Prop :=
  ∀ (s : Bool) (m : F32Mag),
    let x := F32.fin s m
    roundedFrom (Real.sin (f32Real x)) (elemApply .reference .sin x) ∧
    roundedFrom (Real.tan (f32Real x)) (elemApply .reference .tan x) ∧
    ∀ r : F32, (refSin s m = some r → roundedFrom (Real.sin (f32Real x)) r) ∧
      (refTan s m = some r → roundedFrom (Real.tan (f32Real x)) r)

/-! ## The voice's sample -/

/-- R153, R154 with the micro-operations R100, R101, R102, R110, R120, R135, R136, R138 that it runs: in
binary32, each operation spelled out in the order of its pseudocode, for every provider of `ELEM`, every
configuration, patch and voice; and in REAL the frequency and the modulated cutoff as one formula for
each variant. The sample of an inactive voice is 0.0 and its record is kept; of an active one only the
phases, the envelopes and the filter states are written. -/
def Obligations.VoiceProcessFollowsItsSevenSteps : Prop :=
  (∀ (elem : ElemFn → F32 → F32) (c : Cfg) (note : Note) (pb : F32),
    noteFreq (N := f32With elem) note = F32.mul (F32.ofInt 440)
      (elem .exp2 (F32.div (F32.ofInt ((note.toNat : ℤ) - 69)) (F32.ofInt 12))) ∧
    bendFactor (N := f32With elem) c pb =
      elem .exp2 (F32.div (F32.mul pb (F32.ofDec c.bendRange)) (F32.ofInt 12))) ∧
  (∀ (elem : ElemFn → F32 → F32) (v : Voice F32) (dt : F32),
    let one := F32.ofInt 1
    let two := F32.ofInt 2
    let next := F32.add v.phSaw dt
    let ph := F32.sub next (F32.floor next)
    let nextSub := F32.add v.phSub (F32.div dt two)
    let ps := F32.sub nextSub (F32.floor nextSub)
    let x := F32.div ph dt
    let z := F32.div (F32.sub ph one) dt
    let corr :=
      if F32.lt ph dt = true then F32.sub (F32.sub (F32.mul two x) (F32.mul x x)) one
      else if F32.lt (F32.sub one dt) ph = true then F32.add (F32.add (F32.mul z z) (F32.mul two z)) one
      else F32.ofInt 0
    oscStep (N := f32With elem) v dt =
      ((F32.sub (F32.sub (F32.mul two ph) one) corr, elem .sin (F32.mul (F32.mul two F32.pi) ps)),
        { v with phSaw := ph, phSub := ps })) ∧
  (∀ (elem : ElemFn → F32 → F32) (c : Cfg) (x a : F32),
    let top := F32.ofDec c.foldInMax
    let y := san (N := f32With elem) x (F32.neg top) (some top)
    let t := F32.add (F32.mul y (F32.add (F32.ofInt 1) (F32.mul (F32.ofDec c.foldK) a))) (F32.ofInt 1)
    let w := F32.sub t (F32.mul (F32.ofInt 4) (F32.floor (F32.div t (F32.ofInt 4))))
    fold (N := f32With elem) c x a =
      if x.isNaN = true then F32.ofInt 0
      else F32.sub (F32.abs (F32.sub w (F32.ofInt 2))) (F32.ofInt 1)) ∧
  (∀ (elem : ElemFn → F32 → F32) (c : Cfg) (time : F32),
    envCoef (N := f32With elem) c time =
      if F32.lt time (F32.ofDec c.instantTime) = true then none
      else some (F32.sub (F32.ofInt 1)
        (elem .exp (F32.div (F32.ofInt (-1)) (F32.mul time (F32.ofDec c.fs)))))) ∧
  (∀ (elem : ElemFn → F32 → F32) (c : Cfg) (v : Voice F32) (x cutoff res drive : F32),
    let one := F32.ofInt 1
    let zero := F32.ofInt 0
    let fc := san (N := f32With elem) cutoff (F32.ofDec c.minFreq)
      (some (F32.mul (F32.ofDec c.fs) (F32.ofDec c.nyqFrac)))
    let r := san (N := f32With elem) res zero (some one)
    let d := san (N := f32With elem) drive zero (some one)
    let k := F32.mul (F32.ofDec c.kMax) r
    let level := F32.div one (F32.add one (F32.mul (F32.ofDec c.driveK) d))
    let tap := match c.satKind with
      | .clamp => san (N := f32With elem) v.s3 (F32.neg level) (some level)
      | .tanh => F32.mul level (elem .tanh (F32.div v.s3 level))
    let g := elem .tan (F32.div (F32.mul F32.pi fc) (F32.ofDec c.fs))
    let G := F32.div g (F32.add one g)
    let u := F32.div (F32.sub x (F32.mul k tap)) (F32.add one (F32.mul k (F32.mul G G)))
    let v1 := F32.mul (F32.sub u v.s1) G
    let lp1 := F32.add v1 v.s1
    let v2 := F32.mul (F32.sub lp1 v.s2) G
    let lp2 := F32.add v2 v.s2
    let flush := fun y => if F32.lt (F32.abs y) (F32.ofDec c.flushEps) = true then zero else y
    fltStep (N := f32With elem) c v x cutoff res drive =
      (lp2, { v with s1 := flush (F32.add lp1 v1), s2 := flush (F32.add lp2 v2), s3 := flush lp2 })) ∧
  (∀ (elem : ElemFn → F32 → F32) (c : Cfg) (p : Patch F32) (v : Voice F32),
    (v.gate = false ∧ F32.lt (F32.ofDec c.activeEps) v.aenv.val = false →
      voiceProcess (N := f32With elem) c p v = (F32.ofInt 0, v)) ∧
    (v.gate = true ∨ F32.lt (F32.ofDec c.activeEps) v.aenv.val = true →
      let one := F32.ofInt 1
      let dt := F32.div (F32.mul (noteFreq (N := f32With elem) v.note)
        (bendFactor (N := f32With elem) c p.bend)) (F32.ofDec c.fs)
      let o := oscStep (N := f32With elem) v dt
      let mix := F32.add o.1.1 (F32.mul p.sub o.1.2)
      let w := fold (N := f32With elem) c (if c.velEn = true then F32.mul mix v.vel else mix) p.fold
      let a := envStep (N := f32With elem) c v.aenv (F32.sub one p.aenvDepth) (F32.ofDec c.tAttack)
        p.decayS (F32.ofDec c.tRelease)
      let f := envStep (N := f32With elem) c v.fenv (F32.ofInt 0) (F32.ofDec c.tAttack)
        p.decayS (F32.ofDec c.tRelease)
      let e2 := F32.mul f.val f.val
      let kt := elem .exp2 (F32.div
        (F32.mul (F32.ofDec c.keytrack) (F32.ofInt ((v.note.toNat : ℤ) - 60))) (F32.ofInt 12))
      let tracked := F32.mul p.cutoffHz kt
      let base := if c.velEn = true then
        F32.mul tracked (F32.sub one (F32.mul (F32.ofDec c.velCutAmt) (F32.sub one v.vel))) else tracked
      let room := F32.sub (F32.ofDec c.fenvCeilHz) base
      let head := if F32.lt room (F32.ofInt 0) = true then F32.ofInt 0 else room
      let fc := match c.fenvMode with
        | .addHz => F32.add base (F32.mul p.fenvDepth e2)
        | .sweep => F32.add base (F32.mul (F32.mul head p.fenvDepth) e2)
      let y := fltStep (N := f32With elem) c v w fc p.resonance p.driveAmt
      voiceProcess (N := f32With elem) c p v =
        (F32.mul y.1 a.val, { v with
          phSaw := o.2.phSaw, phSub := o.2.phSub, aenv := a, fenv := f
          s1 := y.2.s1, s2 := y.2.s2, s3 := y.2.s3 }))) ∧
  (∀ (c : Cfg) (p : Params), readPatch c p =
    { bend := rd c p .pBend, sub := rd c p .pSub, fold := rd c p .pFold, aenvDepth := rd c p .pAenvDepth
      fx := rd c p .pFx, cutoffHz := rd c p .dCutoffHz, driveAmt := rd c p .dDriveAmt
      resonance := rd c p .dResonance, decayS := rd c p .dDecayS, fenvDepth := rd c p .dFenvDepth }) ∧
  ∀ (c : Cfg) (note : Note) (pb cutoffHz vel depth env : ℝ),
    let n : ℝ := note.toNat
    let kv := if c.velEn = true then 1 - decReal c.velCutAmt * (1 - vel) else 1
    let B := cutoffHz * (2 : ℝ) ^ (decReal c.keytrack * (n - 60) / 12) * kv
    let fc := modulatedCutoff (N := realDomain) c (baseCutoff (N := realDomain) c cutoffHz note vel)
      depth (env * env)
    let top := decReal c.fs * decReal c.nyqFrac
    noteFreq (N := realDomain) note = 440 * (2 : ℝ) ^ ((n - 69) / 12) ∧
    bendFactor (N := realDomain) c pb = (2 : ℝ) ^ (pb * decReal c.bendRange / 12) ∧
    (c.fenvMode = .addHz → fc = B + depth * env ^ 2) ∧
    (c.fenvMode = .sweep → fc = B + max (decReal c.fenvCeilHz - B) 0 * depth * env ^ 2) ∧
    (c.fenvMode = .sweep → depth = 1 → env = 1 → B ≤ decReal c.fenvCeilHz →
      fc = decReal c.fenvCeilHz) ∧
    (decReal c.minFreq ≤ top →
      let g := Real.tan (Real.pi * max (decReal c.minFreq) (min top fc) / decReal c.fs)
      fltCoef (N := realDomain) c fc = g / (1 + g))
end

