-- ==== Sys2Proof/Laws/Float.lean ====
section
/-! SUPPORT. The order of the finite binary32 numbers and the clamp on them (R10, R11, R14). -/

namespace Sys2Proof

/-- The magnitude's number of units grows with the magnitude: the format is in order. -/
theorem magUnits_lt_succ (m : Nat) : magUnits m < magUnits (m + 1) := by
  unfold magUnits
  split
  · next h =>
    split
    · omega
    · next h' =>
      have : m = 0x7FFFFF := by omega
      subst this
      decide
  · next h =>
    rw [if_neg (by omega)]
    simp only [Nat.shiftLeft_eq]
    by_cases hc : m % 0x800000 = 0x7FFFFF
    · have h1 : (m + 1) % 0x800000 = 0 := by omega
      have h2 : (m + 1) / 0x800000 - 1 = (m / 0x800000 - 1) + 1 := by omega
      rw [hc, h1, h2, pow_succ]
      have := Nat.pos_of_ne_zero (pow_ne_zero (m / 0x800000 - 1) (two_ne_zero (α := ℕ)))
      omega
    · have h1 : (m + 1) % 0x800000 = m % 0x800000 + 1 := by omega
      have h2 : (m + 1) / 0x800000 = m / 0x800000 := by omega
      rw [h1, h2]
      exact Nat.mul_lt_mul_of_pos_right (by omega) (by positivity)

theorem magUnits_strictMono : StrictMono magUnits := strictMono_nat_of_lt_succ magUnits_lt_succ

@[simp] theorem magUnits_lt {m n : Nat} : magUnits m < magUnits n ↔ m < n :=
  magUnits_strictMono.lt_iff_lt

@[simp] theorem magUnits_le {m n : Nat} : magUnits m ≤ magUnits n ↔ m ≤ n :=
  magUnits_strictMono.le_iff_le

@[simp] theorem magUnits_zero : magUnits 0 = 0 := rfl

@[simp] theorem magUnits_eq_zero {m : Nat} : magUnits m = 0 ↔ m = 0 :=
  ⟨fun h => magUnits_strictMono.injective (by simpa using h), fun h => by simp [h]⟩

@[simp] theorem F32.ofInt_zero : F32.ofInt 0 = .zero := by decide
@[simp] theorem F32.ofInt_one : F32.ofInt 1 = .one := by decide
@[simp] theorem F32.ofInt_neg_one : F32.ofInt (-1) = F32.neg .one := by decide

/-! Every comparison with a NaN is false (R11). -/

@[simp] theorem F32.lt_nan_left (s : Bool) (k : Fin 0x7FFFFF) (x : F32) : F32.lt (.nan s k) x = false := rfl

@[simp] theorem F32.lt_nan_right (s : Bool) (k : Fin 0x7FFFFF) (x : F32) : F32.lt x (.nan s k) = false := by
  cases x <;> rfl

@[simp] theorem F32.le_nan_left (s : Bool) (k : Fin 0x7FFFFF) (x : F32) : F32.le (.nan s k) x = false := rfl

@[simp] theorem F32.le_nan_right (s : Bool) (k : Fin 0x7FFFFF) (x : F32) : F32.le x (.nan s k) = false := by
  cases x <;> rfl

@[simp] theorem F32.eq_nan_left (s : Bool) (k : Fin 0x7FFFFF) (x : F32) : F32.eq (.nan s k) x = false := rfl

@[simp] theorem F32.eq_nan_right (s : Bool) (k : Fin 0x7FFFFF) (x : F32) : F32.eq x (.nan s k) = false := by
  cases x <;> rfl

@[simp] theorem F32.isNaN_nanOf (op : FloatOp) (a b : F32) : (F32.nanOf op a b).isNaN = true := rfl

@[simp] theorem F32.isFinite_nanOf (op : FloatOp) (a b : F32) : (F32.nanOf op a b).isFinite = false := rfl

/-- `=` on finite numbers compares their units. -/
theorem F32.eq_fin (s t : Bool) (m n : F32Mag) :
    F32.eq (.fin s m) (.fin t n) = decide (signedUnits s m = signedUnits t n) := rfl

/-- `<` on finite numbers compares their units. -/
theorem F32.lt_fin (s t : Bool) (m n : F32Mag) :
    F32.lt (.fin s m) (.fin t n) = decide (signedUnits s m < signedUnits t n) := rfl

/-- `<=` on finite numbers compares their units. -/
theorem F32.le_fin (s t : Bool) (m n : F32Mag) :
    F32.le (.fin s m) (.fin t n) = decide (signedUnits s m ≤ signedUnits t n) := rfl

/-- On operands that are no NaN, `<` is the negation of `<=` the other way round. -/
theorem F32.lt_eq_not_le (a b : F32) (ha : a.isNaN = false) (hb : b.isNaN = false) :
    F32.lt a b = !F32.le b a := by
  simp [F32.lt, F32.le, ha, hb, ← decide_not]

end Sys2Proof
end

