-- ==== Sys2Proof/Laws/Elem.lean ====
section
/-! SUPPORT. What the exact comparisons of ElemExact.lean decide and what the search over them finds
(R10, R11), one lemma each. That `expAbove`, `sinAbove` and `cosAbove` are right stands beside them, as
they end because of it. -/

namespace Sys2Proof

theorem sinMagAbove_iff (x q : Rat) (hx : x ≠ 0) :
    sinMagAbove x q = true ↔ (q : ℝ) < |Real.sin x| := by
  have h0 := sinAbove_iff x 0
  rw [Rat.cast_zero] at h0
  unfold sinMagAbove
  split
  · next h => rw [sinAbove_iff, abs_of_pos (h0.mp h)]
  · next h =>
    have hs : Real.sin x ≤ 0 := not_lt.mp fun hp => h (h0.mpr hp)
    have hne : Real.sin x ≠ ((-q : Rat) : ℝ) := sin_rat_ne x (-q) hx
    rw [abs_of_nonpos hs, Bool.not_eq_true', ← Bool.not_eq_true, sinAbove_iff, not_lt, hne.le_iff_lt]
    push_cast
    exact lt_neg

theorem tanMagAbove_iff (x q : Rat) (hx : x ≠ 0) (hq : 0 ≤ q) :
    tanMagAbove x q = true ↔ (q : ℝ) < |Real.tan x| := by
  have hq' : (0 : ℝ) ≤ q := by exact_mod_cast hq
  have hc : Real.cos x ≠ 0 := by simpa using cos_rat_ne x 0 hx
  have hc2 : 0 < Real.cos x ^ 2 := by positivity
  have hne : Real.cos ((2 * x : Rat) : ℝ) ≠ (((1 - q * q) / (1 + q * q) : Rat) : ℝ) :=
    cos_rat_ne (2 * x) _ (by simpa using hx)
  have hs := Real.sin_sq_add_cos_sq (x : ℝ)
  unfold tanMagAbove
  rw [Bool.not_eq_true', ← Bool.not_eq_true, cosAbove_iff, not_lt, hne.le_iff_lt]
  push_cast
  rw [Real.cos_two_mul, lt_div_iff₀ (by positivity), ← abs_of_nonneg hq', ← sq_lt_sq,
    abs_of_nonneg hq', Real.tan_eq_sin_div_cos, div_pow, lt_div_iff₀ hc2]
  constructor <;> intro h <;> nlinarith

theorem tanhMagAbove_iff (x q : Rat) (hq : 0 ≤ q) :
    tanhMagAbove x q = true ↔ (q : ℝ) < Real.tanh x := by
  have hq' : (0 : ℝ) ≤ q := by exact_mod_cast hq
  have hx := Real.exp_pos (x : ℝ)
  have he : Real.exp ((2 * x : Rat) : ℝ) = Real.exp x * Real.exp x := by
    rw [← Real.exp_add]
    push_cast
    ring_nf
  have ht : Real.tanh x = (Real.exp x * Real.exp x - 1) / (Real.exp x * Real.exp x + 1) := by
    rw [Real.tanh_eq_sinh_div_cosh, Real.sinh_eq, Real.cosh_eq, Real.exp_neg]
    field_simp
  unfold tanhMagAbove
  rw [Bool.and_eq_true, decide_eq_true_iff, expAbove_iff, he, ht, lt_div_iff₀ (by positivity)]
  have hpos : 0 < Real.exp x * Real.exp x := by positivity
  constructor
  · rintro ⟨h1, h2⟩
    have h1' : (q : ℝ) < 1 := by exact_mod_cast h1
    push_cast at h2
    rw [div_lt_iff₀ (by linarith)] at h2
    linarith
  · intro h
    have h1 : (q : ℝ) < 1 := by
      by_contra hge
      nlinarith [not_lt.mp hge]
    refine ⟨by exact_mod_cast h1, ?_⟩
    push_cast
    rw [div_lt_iff₀ (by linarith)]
    linarith

/-- The comparison of `exp2Above`, for a denominator `D` of the exponent. -/
theorem two_pow_div_above (D : ℕ) (hD : D ≠ 0) (a : ℤ) (t : ℕ) :
    t ^ D * 2 ^ (-a).toNat < 2 ^ (150 * D + a.toNat) ↔
      (t : ℝ) / 2 ^ 150 < (2 : ℝ) ^ ((a : ℝ) / D) := by
  have hD' : (D : ℝ) ≠ 0 := by exact_mod_cast hD
  rw [← pow_lt_pow_iff_left₀ (a := (t : ℝ) / 2 ^ 150) (by positivity) (by positivity) hD, ← Real.rpow_mul_natCast (by norm_num),
    div_mul_cancel₀ _ hD', Real.rpow_intCast, div_pow, ← pow_mul, div_lt_iff₀ (by positivity),
    ← Nat.cast_lt (α := ℝ)]
  have h2 : ((2 : ℝ) ^ a) * 2 ^ (-a).toNat = 2 ^ a.toNat := by
    rw [← zpow_natCast, ← zpow_natCast, ← zpow_add₀ two_ne_zero]
    congr 1
    omega
  have hp : (0 : ℝ) < 2 ^ (-a).toNat := by positivity
  push_cast
  rw [pow_add, ← h2, ← mul_assoc, mul_lt_mul_iff_left₀ hp, mul_comm]

theorem exp2Above_iff (a : ℤ) (t : ℕ) :
    exp2Above a t = true ↔ (t : ℝ) / 2 ^ 150 < (2 : ℝ) ^ ((a : ℝ) / ((2 ^ 149 : ℕ) : ℝ)) := by
  unfold exp2Above
  rw [decide_eq_true_iff]
  exact two_pow_div_above (2 ^ 149) (by positivity) a t

/-- The comparison of `powAbove`, for a denominator `D` of the exponent. -/
theorem pow_div_above (D : ℕ) (hD : D ≠ 0) (x y t : ℕ) :
    t ^ D * 2 ^ (149 * y) < x ^ y * 2 ^ (150 * D) ↔
      (t : ℝ) / 2 ^ 150 < ((x : ℝ) / 2 ^ 149) ^ ((y : ℝ) / D) := by
  have hD' : (D : ℝ) ≠ 0 := by exact_mod_cast hD
  rw [← pow_lt_pow_iff_left₀ (a := (t : ℝ) / 2 ^ 150) (by positivity) (by positivity) hD, ← Real.rpow_mul_natCast (by positivity),
    div_mul_cancel₀ _ hD', Real.rpow_natCast, div_pow, div_pow, ← pow_mul, ← pow_mul,
    div_lt_div_iff₀ (by positivity) (by positivity), ← Nat.cast_lt (α := ℝ)]
  push_cast
  rfl

theorem powAbove_iff (x y t : ℕ) :
    powAbove x y t = true ↔
      (t : ℝ) / 2 ^ 150 < ((x : ℝ) / 2 ^ 149) ^ ((y : ℝ) / ((2 ^ 149 : ℕ) : ℝ)) := by
  unfold powAbove
  rw [decide_eq_true_iff]
  exact pow_div_above (2 ^ 149) (by positivity) x y t

/-- The midpoint of a magnitude and its predecessor, in units of 2^-150. -/
abbrev midpoint (j : ℕ) : ℕ := magUnits (j - 1) + magUnits j

/-- What the search finds: the magnitudes whose midpoint with the predecessor is below the value are
exactly those up to its answer. -/
theorem largestBelow_spec (above : ℕ → Bool)
    (hmono : ∀ t t', t ≤ t' → above t' = true → above t = true) :
    ∀ n k, k ≤ 0x7F800000 → (k = 0 ∨ above (midpoint k) = true) →
      (∀ j, k + 2 ^ n ≤ j → j ≤ 0x7F800000 → above (midpoint j) = false) →
      let r := largestBelow above n k
      r ≤ 0x7F800000 ∧ (r = 0 ∨ above (midpoint r) = true) ∧
        ∀ j, r < j → j ≤ 0x7F800000 → above (midpoint j) = false := by
  intro n
  induction n with
  | zero => exact fun k hk h0 h => ⟨hk, h0, fun j hj => h j hj⟩
  | succ n ih =>
    intro k hk h0 h
    rw [largestBelow]
    split
    · next hc =>
      rw [Bool.and_eq_true, decide_eq_true_iff] at hc
      refine ih _ hc.1 (.inr hc.2) fun j hj => h j ?_
      rw [pow_succ]
      omega
    · next hc =>
      refine ih _ hk h0 fun j hj hle => ?_
      rw [Bool.and_eq_true, decide_eq_true_iff] at hc
      by_contra ha
      rw [Bool.not_eq_false] at ha
      refine hc ⟨hj.trans hle, hmono _ _ (Nat.add_le_add ?_ ?_) ha⟩ <;> rw [magUnits_le] <;> omega

end Sys2Proof
end

