-- ==== Sys2Proof/Laws/Ops.lean ====
section
/-! SUPPORT. For each shared operation, what it can do, said once: the parameter registers, the
allocator's searches, the voices of a tick, the effects chain's buffers. -/

namespace Sys2Proof.Machine

/-! The parameter registers (R60 to R64). -/

theorem paramAt_addr (r : ParamReg) : paramAt r.addr = some r := by cases r <;> rfl

theorem addr_of_paramAt (a : Addr) (r : ParamReg) (h : paramAt a = some r) : r.addr = a := by
  unfold paramAt at h
  split at h <;> first
    | (cases h; apply BitVec.eq_of_toNat_eq; simp_all [ParamReg.addr])
    | cases h

theorem Params.get_set (p : Params) (r q : ParamReg) (v : Word) :
    (p.set r v).get q = if q = r then v else p.get q := by
  cases r <;> cases q <;> rfl

theorem Params.ext_get (p q : Params) (h : ∀ r, p.get r = q.get r) : p = q := by
  cases p
  cases q
  have h0 := h .pCutoff
  have h1 := h .pDrive
  have h2 := h .pSub
  have h3 := h .pFold
  have h4 := h .pDecay
  have h5 := h .pAenvDepth
  have h6 := h .pFenvDepth
  have h7 := h .pFx
  have h8 := h .pBend
  have h9 := h .dCutoffHz
  have h10 := h .dDriveAmt
  have h11 := h .dResonance
  have h12 := h .dDecayS
  have h13 := h .dFenvDepth
  simp_all [Params.get]

/-- A write to an unmapped address is no write (R63). -/
theorem memWrite_unmapped (p : Params) (a : Addr) (v : Word) (h : paramAt a = none) :
    memWrite p a v = p := by simp [memWrite, h]

/-- A write to a mapped address sets its register (R63). -/
theorem memWrite_mapped (p : Params) (a : Addr) (v : Word) (r : ParamReg) (h : paramAt a = some r) :
    memWrite p a v = p.set r v := by simp [memWrite, h]

/-! The buffers of the effects chain (R187). -/

@[simp] theorem fitBuffer_length (size : Nat) (b : List Word) : (fitBuffer size b).length = size := by
  simp [fitBuffer]

theorem stageStep_length (kind : FxStage) (p : StageParams) (b : List Word) (x : F32) :
    (stageStep kind p b x).1.length = p.size := by simp [stageStep]

/-- A finite input gives a finite output (R187). -/
theorem stageStep_finite (kind : FxStage) (p : StageParams) (b : List Word) (x : F32)
    (h : x.isFinite = true) : (stageStep kind p b x).2.isFinite = true := by
  cases x with
  | nan => cases h
  | inf s => cases h
  | fin s m => rfl

/-! The allocator's searches (R170). -/

theorem slotHolding_some {slots : List Slot} {note : Note} {i : Nat}
    (h : slotHolding slots note = some i) :
    ∃ x, slots[i]? = some x ∧ x.valid = true ∧ x.note = note := by
  obtain ⟨hi, hp, -⟩ := List.findIdx?_eq_some_iff_getElem.mp h
  exact ⟨slots[i], List.getElem?_eq_getElem hi, by simpa using hp⟩

theorem slotHolding_none {slots : List Slot} {note : Note} :
    slotHolding slots note = none ↔ ∀ x ∈ slots, x.valid = true → x.note ≠ note := by
  simp [slotHolding, List.findIdx?_eq_none_iff]

theorem lowestFree_some {slots : List Slot} {i : Nat} (h : lowestFree slots = some i) :
    (∃ x, slots[i]? = some x ∧ x.valid = false) ∧
      ∀ j y, j < i → slots[j]? = some y → y.valid = true := by
  obtain ⟨hi, hp, hj⟩ := List.findIdx?_eq_some_iff_getElem.mp h
  refine ⟨⟨slots[i], List.getElem?_eq_getElem hi, by simpa using hp⟩, fun j y hji hy => ?_⟩
  obtain ⟨hl, rfl⟩ := List.getElem?_eq_some_iff.mp hy
  simpa using hj j hji

theorem lowestFree_none {slots : List Slot} :
    lowestFree slots = none ↔ ∀ x ∈ slots, x.valid = true := by
  simp [lowestFree, List.findIdx?_eq_none_iff]

/-- The search for the smallest age from index `i` on: the best so far, or the first slot with the
smallest age of those left, when that is below the best. -/
theorem oldestFrom_spec (xs : List Slot) (i best age : Nat) :
    (oldestFrom xs i best age = best ∧ ∀ y ∈ xs, age ≤ y.age) ∨
      ∃ k x, xs[k]? = some x ∧ oldestFrom xs i best age = i + k ∧ x.age < age ∧
        ∀ j y, xs[j]? = some y → x.age ≤ y.age ∧ (j < k → x.age < y.age) := by
  induction xs generalizing i best age with
  | nil => exact .inl ⟨rfl, by simp⟩
  | cons z zs ih =>
    by_cases hz : z.age < age
    · simp only [oldestFrom, hz, if_true]
      right
      rcases ih (i + 1) i z.age with ⟨he, hall⟩ | ⟨k, x, hx, he, hlt, hall⟩
      · refine ⟨0, z, rfl, by simpa using he, hz, fun j y hy => ?_⟩
        cases j with
        | zero => simp only [List.getElem?_cons_zero, Option.some.injEq] at hy; subst hy; simp
        | succ j => exact ⟨hall y (List.mem_of_getElem? (by simpa using hy)), by omega⟩
      · refine ⟨k + 1, x, by simpa using hx, by omega, by omega, fun j y hy => ?_⟩
        cases j with
        | zero =>
          simp only [List.getElem?_cons_zero, Option.some.injEq] at hy
          subst hy
          exact ⟨by omega, fun _ => hlt⟩
        | succ j =>
          have := hall j y (by simpa using hy)
          exact ⟨this.1, fun hj => this.2 (by omega)⟩
    · simp only [oldestFrom, hz, if_false]
      rcases ih (i + 1) best age with ⟨he, hall⟩ | ⟨k, x, hx, he, hlt, hall⟩
      · exact .inl ⟨he, by simpa using ⟨by omega, hall⟩⟩
      · refine .inr ⟨k + 1, x, by simpa using hx, by omega, hlt, fun j y hy => ?_⟩
        cases j with
        | zero =>
          simp only [List.getElem?_cons_zero, Option.some.injEq] at hy
          subst hy
          exact ⟨by omega, fun _ => by omega⟩
        | succ j =>
          have := hall j y (by simpa using hy)
          exact ⟨this.1, fun hj => this.2 (by omega)⟩

/-- The oldest slot of a pool is the first one with the smallest age (R170 (c)). -/
theorem oldestSlot_spec (slots : List Slot) (h : slots ≠ []) :
    ∃ x, slots[oldestSlot slots]? = some x ∧
      ∀ j y, slots[j]? = some y → x.age ≤ y.age ∧ (j < oldestSlot slots → x.age < y.age) := by
  cases slots with
  | nil => exact absurd rfl h
  | cons z zs =>
    simp only [oldestSlot]
    rcases oldestFrom_spec zs 1 0 z.age with ⟨he, hall⟩ | ⟨k, x, hx, he, hlt, hall⟩
    · rw [he]
      refine ⟨z, rfl, fun j y hy => ?_⟩
      cases j with
      | zero => simp only [List.getElem?_cons_zero, Option.some.injEq] at hy; subst hy; simp
      | succ j => exact ⟨hall y (List.mem_of_getElem? (by simpa using hy)), by omega⟩
    · rw [he]
      refine ⟨x, by simpa [Nat.add_comm 1 k] using hx, fun j y hy => ?_⟩
      cases j with
      | zero =>
        simp only [List.getElem?_cons_zero, Option.some.injEq] at hy
        subst hy
        exact ⟨by omega, fun _ => hlt⟩
      | succ j =>
        have := hall j y (by simpa using hy)
        exact ⟨this.1, fun hj => this.2 (by omega)⟩

/-! The voices of a tick (R153, R204). -/

section Voices
variable {α : Type} [N : NumDomain α]

/-- The voices are processed each on its own, the samples added from left to right. -/
theorem processVoices_eq (c : Cfg) (p : Patch α) (acc : α) (vs : List (Voice α)) :
    processVoices c p acc vs =
      ((vs.map fun v => (voiceProcess c p v).1).foldl (· + ·) acc,
        vs.map fun v => (voiceProcess c p v).2) := by
  induction vs generalizing acc with
  | nil => rfl
  | cons v vs ih => simp [processVoices, ih]

/-- An inactive voice is skipped (R156). -/
theorem voiceProcess_inactive (c : Cfg) (p : Patch α) (v : Voice α) (h : isActive c v = false) :
    voiceProcess c p v = (N.ofInt 0, v) := by simp [voiceProcess, h]

/-- Processing a voice writes neither its note, nor its velocity, nor its gate (R153). -/
theorem voiceProcess_frame (c : Cfg) (p : Patch α) (v : Voice α) :
    (voiceProcess c p v).2.note = v.note ∧ (voiceProcess c p v).2.vel = v.vel ∧
      (voiceProcess c p v).2.gate = v.gate := by
  unfold voiceProcess
  split <;> exact ⟨rfl, rfl, rfl⟩

/-- The stage after a step of the envelope: RELEASE and DECAY stay, ATTACK stays or becomes DECAY. -/
theorem envStep_stage (c : Cfg) (e : Env α) (sustain tA tD tR : α) :
    (envStep c e sustain tA tD tR).stage = e.stage ∨
      (e.stage = .attack ∧ (envStep c e sustain tA tD tR).stage = .decay) := by
  cases e with
  | mk st val =>
    cases st with
    | attack =>
      unfold envStep stageAfter
      dsimp only
      split
      · exact .inr ⟨rfl, rfl⟩
      · exact .inl rfl
    | decay => exact .inl rfl
    | release => exact .inl rfl

end Voices

end Sys2Proof.Machine
end

