-- ==== Sys2Proof/Laws/PerInstr.lean ====
section
/-! SUPPORT. The per-instruction families. -/

namespace Sys2Proof.Laws

/-- The `match` value's opcode byte of Table 30-2. -/
def tableOpcode : Instr → BitVec 8
  | .nop => 0x00#8
  | .noteOn _ _ => 0x01#8
  | .noteOff _ => 0x02#8
  | .setp _ _ => 0x03#8
  | .tick => 0x04#8
  | .init => 0x05#8

/-- The encoder writes the opcode of Table 30-2 into `op` (R80, R85). -/
def OpcodeByte.Statement (i : Instr) : Prop := opField (encode i) = tableOpcode i

/-- The field `op` of a word written from its five fields. -/
theorem opField_cmdWord (op fl a b : BitVec 8) (d : Word) : opField (cmdWord op fl a b d) = op := by
  unfold opField cmdWord
  ext i hi
  simp only [BitVec.getElem_extractLsb', BitVec.getLsbD_append]
  have h : ¬ (56 + i < 32) := by omega
  have h1 : ¬ (56 + i - 32 < 8) := by omega
  have h2 : ¬ (56 + i - 32 - 8 < 8) := by omega
  have h3 : ¬ (56 + i - 32 - 8 - 8 < 8) := by omega
  have h4 : 56 + i - 32 - 8 - 8 - 8 = i := by omega
  simp [h, h1, h2, h3, h4, BitVec.getLsbD_eq_getElem hi]

theorem OpcodeByte.nop : OpcodeByte.Statement .nop := opField_cmdWord _ _ _ _ _

theorem OpcodeByte.noteOn (n : Note) (v : Option Velocity) : OpcodeByte.Statement (.noteOn n v) := by
  cases v with
  | none => exact opField_cmdWord _ _ _ _ _
  | some u => exact opField_cmdWord _ _ _ _ _

theorem OpcodeByte.noteOff (n : Note) : OpcodeByte.Statement (.noteOff n) := opField_cmdWord _ _ _ _ _

theorem OpcodeByte.setp (a : Addr) (v : Word) : OpcodeByte.Statement (.setp a v) :=
  opField_cmdWord _ _ _ _ _

theorem OpcodeByte.tick : OpcodeByte.Statement .tick := opField_cmdWord _ _ _ _ _

theorem OpcodeByte.init : OpcodeByte.Statement .init := opField_cmdWord _ _ _ _ _

end Sys2Proof.Laws
end

