-- ==== Sys2Proof/Laws/Real.lean ====
section
/-! SUPPORT. The primitive operations of the instance REAL as those of Mathlib (R10), and what the
clamp, the filter's flush and the envelope's update are there. -/

namespace Sys2Proof.Machine

@[simp] theorem realDomain_lt (x y : ℝ) : realDomain.lt x y = true ↔ x < y :=
  @decide_eq_true_iff (x < y) (Classical.propDecidable _)

@[simp] theorem realDomain_le (x y : ℝ) : realDomain.le x y = true ↔ x ≤ y :=
  @decide_eq_true_iff (x ≤ y) (Classical.propDecidable _)

@[simp] theorem realDomain_eq (x y : ℝ) : realDomain.eq x y = true ↔ x = y :=
  @decide_eq_true_iff (x = y) (Classical.propDecidable _)

@[simp] theorem realDomain_isNaN (x : ℝ) : realDomain.isNaN x = false := rfl
@[simp] theorem realDomain_floor (x : ℝ) : realDomain.floor x = (⌊x⌋ : ℝ) := rfl
@[simp] theorem realDomain_abs (x : ℝ) : realDomain.abs x = |x| := rfl
@[simp] theorem realDomain_ofInt (n : ℤ) : realDomain.ofInt n = (n : ℝ) := rfl
@[simp] theorem realDomain_ofDec (d : Dec) : realDomain.ofDec d = (d.num : ℝ) / (d.den : ℝ) := rfl
@[simp] theorem realDomain_pi : realDomain.pi = Real.pi := rfl
@[simp] theorem realDomain_exp (x : ℝ) : realDomain.exp x = Real.exp x := rfl
@[simp] theorem realDomain_exp2 (x : ℝ) : realDomain.exp2 x = (2 : ℝ) ^ x := rfl
@[simp] theorem realDomain_tan (x : ℝ) : realDomain.tan x = Real.tan x := rfl
@[simp] theorem realDomain_sin (x : ℝ) : realDomain.sin x = Real.sin x := rfl
@[simp] theorem realDomain_tanh (x : ℝ) : realDomain.tanh x = Real.tanh x := rfl

/-- `max` of REAL (R11). -/
theorem real_maxNum (x y : ℝ) : maxNum (N := realDomain) x y = max x y := by
  unfold maxNum
  simp only [realDomain_lt]
  split
  · next h => exact (max_eq_right h.le).symm
  · next h => exact (max_eq_left (not_lt.mp h)).symm

/-- `min` of REAL (R11). -/
theorem real_minNum (x y : ℝ) : minNum (N := realDomain) x y = min x y := by
  unfold minNum
  simp only [realDomain_lt]
  split
  · next h => exact (min_eq_right h.le).symm
  · next h => exact (min_eq_left (not_lt.mp h)).symm

/-- The clamp of REAL with both ends (R14). -/
theorem real_san (x lo hi : ℝ) (h : lo ≤ hi) :
    san (N := realDomain) x lo (some hi) = max lo (min hi x) := by
  unfold san
  simp only [realDomain_isNaN, Bool.false_eq_true, if_false, realDomain_lt]
  split
  · next hx => rw [max_eq_left]; exact le_trans (min_le_right _ _) hx.le
  · next hx =>
    split
    · next hy => rw [min_eq_left hy.le, max_eq_right h]
    · next hy => rw [min_eq_right (not_lt.mp hy), max_eq_right (not_lt.mp hx)]

/-- The clamp of REAL with no upper end (R14). -/
theorem real_san_none (x lo : ℝ) : san (N := realDomain) x lo none = max lo x := by
  unfold san
  simp only [realDomain_isNaN, Bool.false_eq_true, if_false, realDomain_lt]
  split
  · next hx => exact (max_eq_left hx.le).symm
  · next hx => exact (max_eq_right (not_lt.mp hx)).symm

/-- The flush of REAL never grows a magnitude (R138). -/
theorem real_flush_abs_le (c : Cfg) (s : ℝ) : |fltFlush (N := realDomain) c s| ≤ |s| := by
  unfold fltFlush
  split
  · simp
  · exact le_refl _

/-- One update of an envelope of REAL that is not instant (R123). -/
theorem real_approach (k val target : ℝ) :
    approach (N := realDomain) (some k) val target = val + k * (target - val) := rfl

end Sys2Proof.Machine
end

