-- ==== Sys2Proof/Laws/State.lean ====
section
/-! SUPPORT. One lemma a field and update of the state, so that no proof unfolds a record update. -/

namespace Sys2Proof.Machine

variable (s : State)

@[simp] theorem State.modifyVoice_cfg (slot : Nat) (f : Voice F32 → Voice F32) :
    (s.modifyVoice slot f).cfg = s.cfg := rfl
@[simp] theorem State.modifyVoice_voices (slot : Nat) (f : Voice F32 → Voice F32) :
    (s.modifyVoice slot f).voices = s.voices.modify slot f := rfl
@[simp] theorem State.modifyVoice_alloc (slot : Nat) (f : Voice F32 → Voice F32) :
    (s.modifyVoice slot f).alloc = s.alloc := rfl
@[simp] theorem State.modifyVoice_fx (slot : Nat) (f : Voice F32 → Voice F32) :
    (s.modifyVoice slot f).fx = s.fx := rfl
@[simp] theorem State.modifyVoice_params (slot : Nat) (f : Voice F32 → Voice F32) :
    (s.modifyVoice slot f).params = s.params := rfl
@[simp] theorem State.modifyVoice_out (slot : Nat) (f : Voice F32 → Voice F32) :
    (s.modifyVoice slot f).out = s.out := rfl
@[simp] theorem State.modifyVoice_resp (slot : Nat) (f : Voice F32 → Voice F32) :
    (s.modifyVoice slot f).resp = s.resp := rfl
@[simp] theorem State.modifyVoice_outValid (slot : Nat) (f : Voice F32 → Voice F32) :
    (s.modifyVoice slot f).outValid = s.outValid := rfl
@[simp] theorem State.modifyVoice_respValid (slot : Nat) (f : Voice F32 → Voice F32) :
    (s.modifyVoice slot f).respValid = s.respValid := rfl
@[simp] theorem State.modifyVoice_cmdReady (slot : Nat) (f : Voice F32 → Voice F32) :
    (s.modifyVoice slot f).cmdReady = s.cmdReady := rfl
@[simp] theorem State.modifyVoice_rst (slot : Nat) (f : Voice F32 → Voice F32) :
    (s.modifyVoice slot f).rst = s.rst := rfl
@[simp] theorem State.modifyVoice_pending (slot : Nat) (f : Voice F32 → Voice F32) :
    (s.modifyVoice slot f).pending = s.pending := rfl
@[simp] theorem State.modifyVoice_pc (slot : Nat) (f : Voice F32 → Voice F32) :
    (s.modifyVoice slot f).pc = s.pc := rfl

@[simp] theorem State.accept_cfg (rest : List CmdWord) : (s.accept rest).cfg = s.cfg := rfl
@[simp] theorem State.accept_voices (rest : List CmdWord) : (s.accept rest).voices = s.voices := rfl
@[simp] theorem State.accept_alloc (rest : List CmdWord) : (s.accept rest).alloc = s.alloc := rfl
@[simp] theorem State.accept_fx (rest : List CmdWord) : (s.accept rest).fx = s.fx := rfl
@[simp] theorem State.accept_params (rest : List CmdWord) : (s.accept rest).params = s.params := rfl
@[simp] theorem State.accept_out (rest : List CmdWord) : (s.accept rest).out = s.out := rfl
@[simp] theorem State.accept_resp (rest : List CmdWord) : (s.accept rest).resp = s.resp := rfl
@[simp] theorem State.accept_outValid (rest : List CmdWord) :
    (s.accept rest).outValid = false := rfl
@[simp] theorem State.accept_respValid (rest : List CmdWord) :
    (s.accept rest).respValid = false := rfl
@[simp] theorem State.accept_cmdReady (rest : List CmdWord) :
    (s.accept rest).cmdReady = s.cmdReady := rfl
@[simp] theorem State.accept_rst (rest : List CmdWord) : (s.accept rest).rst = s.rst := rfl
@[simp] theorem State.accept_pending (rest : List CmdWord) : (s.accept rest).pending = rest := rfl
@[simp] theorem State.accept_pc (rest : List CmdWord) : (s.accept rest).pc = s.pc + 1 := rfl

@[simp] theorem State.idle_cfg : (s.idle).cfg = s.cfg := rfl
@[simp] theorem State.idle_voices : (s.idle).voices = s.voices := rfl
@[simp] theorem State.idle_alloc : (s.idle).alloc = s.alloc := rfl
@[simp] theorem State.idle_fx : (s.idle).fx = s.fx := rfl
@[simp] theorem State.idle_params : (s.idle).params = s.params := rfl
@[simp] theorem State.idle_out : (s.idle).out = s.out := rfl
@[simp] theorem State.idle_resp : (s.idle).resp = s.resp := rfl
@[simp] theorem State.idle_outValid : (s.idle).outValid = false := rfl
@[simp] theorem State.idle_respValid : (s.idle).respValid = false := rfl
@[simp] theorem State.idle_cmdReady : (s.idle).cmdReady = s.cmdReady := rfl
@[simp] theorem State.idle_rst : (s.idle).rst = s.rst := rfl
@[simp] theorem State.idle_pending : (s.idle).pending = s.pending := rfl
@[simp] theorem State.idle_pc : (s.idle).pc = s.pc := rfl

@[simp] theorem State.raiseSample_cfg (y : F32) : (s.raiseSample y).cfg = s.cfg := rfl
@[simp] theorem State.raiseSample_voices (y : F32) : (s.raiseSample y).voices = s.voices := rfl
@[simp] theorem State.raiseSample_alloc (y : F32) : (s.raiseSample y).alloc = s.alloc := rfl
@[simp] theorem State.raiseSample_fx (y : F32) : (s.raiseSample y).fx = s.fx := rfl
@[simp] theorem State.raiseSample_params (y : F32) : (s.raiseSample y).params = s.params := rfl
@[simp] theorem State.raiseSample_out (y : F32) : (s.raiseSample y).out = F32.toBits y := rfl
@[simp] theorem State.raiseSample_resp (y : F32) : (s.raiseSample y).resp = s.resp := rfl
@[simp] theorem State.raiseSample_outValid (y : F32) : (s.raiseSample y).outValid = true := rfl
@[simp] theorem State.raiseSample_respValid (y : F32) :
    (s.raiseSample y).respValid = s.respValid := rfl
@[simp] theorem State.raiseSample_cmdReady (y : F32) :
    (s.raiseSample y).cmdReady = s.cmdReady := rfl
@[simp] theorem State.raiseSample_rst (y : F32) : (s.raiseSample y).rst = s.rst := rfl
@[simp] theorem State.raiseSample_pending (y : F32) : (s.raiseSample y).pending = s.pending := rfl
@[simp] theorem State.raiseSample_pc (y : F32) : (s.raiseSample y).pc = s.pc := rfl

@[simp] theorem State.raiseResponse_cfg (r : RespWord) : (s.raiseResponse r).cfg = s.cfg := rfl
@[simp] theorem State.raiseResponse_voices (r : RespWord) :
    (s.raiseResponse r).voices = s.voices := rfl
@[simp] theorem State.raiseResponse_alloc (r : RespWord) :
    (s.raiseResponse r).alloc = s.alloc := rfl
@[simp] theorem State.raiseResponse_fx (r : RespWord) : (s.raiseResponse r).fx = s.fx := rfl
@[simp] theorem State.raiseResponse_params (r : RespWord) :
    (s.raiseResponse r).params = s.params := rfl
@[simp] theorem State.raiseResponse_out (r : RespWord) : (s.raiseResponse r).out = s.out := rfl
@[simp] theorem State.raiseResponse_resp (r : RespWord) : (s.raiseResponse r).resp = r := rfl
@[simp] theorem State.raiseResponse_outValid (r : RespWord) :
    (s.raiseResponse r).outValid = s.outValid := rfl
@[simp] theorem State.raiseResponse_respValid (r : RespWord) :
    (s.raiseResponse r).respValid = true := rfl
@[simp] theorem State.raiseResponse_cmdReady (r : RespWord) :
    (s.raiseResponse r).cmdReady = s.cmdReady := rfl
@[simp] theorem State.raiseResponse_rst (r : RespWord) : (s.raiseResponse r).rst = s.rst := rfl
@[simp] theorem State.raiseResponse_pending (r : RespWord) :
    (s.raiseResponse r).pending = s.pending := rfl
@[simp] theorem State.raiseResponse_pc (r : RespWord) : (s.raiseResponse r).pc = s.pc := rfl

@[simp] theorem State.underReset_cfg : (s.underReset).cfg = s.cfg := rfl
@[simp] theorem State.underReset_voices :
    (s.underReset).voices = List.replicate s.cfg.nVoices Voice.reset := rfl
@[simp] theorem State.underReset_alloc : (s.underReset).alloc = Alloc.resetOf s.cfg := rfl
@[simp] theorem State.underReset_fx : (s.underReset).fx = FxState.resetOf s.cfg := rfl
@[simp] theorem State.underReset_params : (s.underReset).params = Params.reset := rfl
@[simp] theorem State.underReset_out : (s.underReset).out = 0x00000000#32 := rfl
@[simp] theorem State.underReset_resp : (s.underReset).resp = 0x0000#16 := rfl
@[simp] theorem State.underReset_outValid : (s.underReset).outValid = false := rfl
@[simp] theorem State.underReset_respValid : (s.underReset).respValid = false := rfl
@[simp] theorem State.underReset_cmdReady : (s.underReset).cmdReady = false := rfl
@[simp] theorem State.underReset_rst : (s.underReset).rst = s.rst := rfl
@[simp] theorem State.underReset_pending : (s.underReset).pending = s.pending := rfl
@[simp] theorem State.underReset_pc : (s.underReset).pc = s.pc := rfl

@[simp] theorem State.leaveReset_cfg : (s.leaveReset).cfg = s.cfg := rfl
@[simp] theorem State.leaveReset_voices :
    (s.leaveReset).voices = List.replicate s.cfg.nVoices Voice.reset := rfl
@[simp] theorem State.leaveReset_alloc : (s.leaveReset).alloc = Alloc.resetOf s.cfg := rfl
@[simp] theorem State.leaveReset_fx : (s.leaveReset).fx = FxState.resetOf s.cfg := rfl
@[simp] theorem State.leaveReset_params : (s.leaveReset).params = Params.reset := rfl
@[simp] theorem State.leaveReset_out : (s.leaveReset).out = 0x00000000#32 := rfl
@[simp] theorem State.leaveReset_resp : (s.leaveReset).resp = 0x0000#16 := rfl
@[simp] theorem State.leaveReset_outValid : (s.leaveReset).outValid = false := rfl
@[simp] theorem State.leaveReset_respValid : (s.leaveReset).respValid = false := rfl
@[simp] theorem State.leaveReset_cmdReady : (s.leaveReset).cmdReady = true := rfl
@[simp] theorem State.leaveReset_rst : (s.leaveReset).rst = false := rfl
@[simp] theorem State.leaveReset_pending : (s.leaveReset).pending = s.pending := rfl
@[simp] theorem State.leaveReset_pc : (s.leaveReset).pc = s.pc := rfl

@[simp] theorem State.withFetchWord_cfg (nbits w : Nat) :
    (s.withFetchWord nbits w).cfg = s.cfg := rfl
@[simp] theorem State.withFetchWord_voices (nbits w : Nat) :
    (s.withFetchWord nbits w).voices = s.voices := rfl
@[simp] theorem State.withFetchWord_alloc (nbits w : Nat) :
    (s.withFetchWord nbits w).alloc = s.alloc := rfl
@[simp] theorem State.withFetchWord_fx (nbits w : Nat) : (s.withFetchWord nbits w).fx = s.fx := rfl
@[simp] theorem State.withFetchWord_params (nbits w : Nat) :
    (s.withFetchWord nbits w).params = s.params := rfl
@[simp] theorem State.withFetchWord_out (nbits w : Nat) :
    (s.withFetchWord nbits w).out = s.out := rfl
@[simp] theorem State.withFetchWord_resp (nbits w : Nat) :
    (s.withFetchWord nbits w).resp = s.resp := rfl
@[simp] theorem State.withFetchWord_outValid (nbits w : Nat) :
    (s.withFetchWord nbits w).outValid = s.outValid := rfl
@[simp] theorem State.withFetchWord_respValid (nbits w : Nat) :
    (s.withFetchWord nbits w).respValid = s.respValid := rfl
@[simp] theorem State.withFetchWord_cmdReady (nbits w : Nat) :
    (s.withFetchWord nbits w).cmdReady = true := rfl
@[simp] theorem State.withFetchWord_rst (nbits w : Nat) :
    (s.withFetchWord nbits w).rst = false := rfl
@[simp] theorem State.withFetchWord_pending (nbits w : Nat) :
    (s.withFetchWord nbits w).pending = tableWord nbits w :: s.pending.drop 1 := rfl
@[simp] theorem State.withFetchWord_pc (nbits w : Nat) : (s.withFetchWord nbits w).pc = s.pc := rfl

/-! Gating a voice keeps its note, its velocity and its envelope values. -/

@[simp] theorem envGateOn_stage {α : Type} (e : Env α) : (envGateOn e).stage = .attack := rfl
@[simp] theorem envGateOn_val {α : Type} (e : Env α) : (envGateOn e).val = e.val := rfl
@[simp] theorem envGateOff_stage {α : Type} (e : Env α) : (envGateOff e).stage = .release := rfl
@[simp] theorem envGateOff_val {α : Type} (e : Env α) : (envGateOff e).val = e.val := rfl

end Sys2Proof.Machine
end

