-- ==== Sys2Proof/Tests/Slice0.lean ====
section
/-! SUPPORT. Tests. Expected values are the spec's: the rule or vector is named at each. Then one
witness for each obligation that has hypotheses. -/

open Sys2Proof Sys2Proof.Machine

namespace Sys2Proof.Tests

/-! ## WellFormed: each check refuses an ill-formed term -/

theorem test_wf_refuses_reserved_word : CmdWord.wf 0x0600000000000000#64 = false := by decide
theorem test_wf_accepts_last_command_word : CmdWord.wf 0x05FFFFFFFFFFFFFF#64 = true := by decide
theorem test_wf_refuses_empty_pool : Cfg.poolWf { Cfg.ref with nVoices := 0 } = false := by decide
theorem test_wf_refuses_pool_of_129 : Cfg.poolWf { Cfg.ref with nVoices := 129 } = false := by decide
theorem test_wf_refuses_zero_denominator : Cfg.numbersWf { Cfg.ref with fxK := ⟨4, 0⟩ } = false := by decide
theorem test_wf_refuses_rate_zero : Cfg.rateWf { Cfg.ref with fs := ⟨0, 1⟩ } = false := by decide
theorem test_wf_refuses_improper_fraction : Dec.wf ⟨1, 0⟩ = false := by decide
theorem test_wf_refuses_zero_as_positive : Dec.pos ⟨0, 1⟩ = false := by decide
theorem test_wf_refuses_negative : Dec.nonneg ⟨-1, 2⟩ = false := by decide
theorem test_wf_refuses_cfg : Cfg.wf { Cfg.ref with nVoices := 0 } = false := by decide
theorem test_wf_accepts_ref : Cfg.wf Cfg.ref = true := by decide

/-! ## Decode: every constructor, from a word written out from Table 30-1 and Table 30-2 -/

/-- Format Z, `op` 0x00, every ignored bit 1 (R88). -/
theorem test_decode_nop : decode 0x00FFFFFFFFFFFFFF#64 = .ok .nop := by decide
/-- The word of R91 with `HV = 0` and rubbish in every ignored bit. -/
theorem test_decode_noteon_ignored : decode 0x0180BC0012345678#64 = .ok (.noteOn 60 none) := by decide
/-- `HV = 1`, `a[7]`, `b[7]`, `fl[7:1]`, `d` all 1 (R82, R83): note 127, velocity 127. -/
theorem test_decode_noteon_velocity :
    decode 0x01FFFFFFFFFFFFFF#64 = .ok (.noteOn 127 (some 127)) := by decide
/-- `HV = 1` with velocity 0 is an ordinary NOTEON (R83). -/
theorem test_decode_noteon_velocity_zero :
    decode 0x01013C0000000000#64 = .ok (.noteOn 60 (some 0)) := by decide
/-- NOTEOFF ignores bit 48 and `b` (Table 30-1). -/
theorem test_decode_noteoff : decode 0x0201BCE400000000#64 = .ok (.noteOff 60) := by decide
/-- All 8 address bits count, the value is not moved (R84). -/
theorem test_decode_setp : decode 0x03FF90FF80000001#64 = .ok (.setp 0x90#8 0x80000001#32) := by decide
theorem test_decode_tick : decode 0x0400000000000000#64 = .ok .tick := by decide
theorem test_decode_init : decode 0x0500000000000000#64 = .ok .init := by decide
/-- The first and the last reserved opcode (R87). -/
theorem test_decode_reserved :
    decode 0x0600000000000000#64 = .error (.reservedOpcode 0x06#8) ∧
      decode 0xFFFFFFFFFFFFFFFF#64 = .error (.reservedOpcode 0xFF#8) := by decide
/-- Bits above the table's are 0. -/
theorem test_decode_table_word : decodeTableWord 64 0x01013C6400000000 = some (.noteOn 60 (some 100)) := by
  decide

/-! ## One step of each command -/

/-- A field of the next state. -/
def nextOf {β : Type} (o : Host.Outcome State Fault Refusal) (f : State → β) : Option β :=
  match o with
  | .next t => some (f t)
  | .fault _ => none
  | .refused _ => none

/-- The reset state with one command word on the port. -/
def fed (w : Nat) : State := State.reset.withFetchWord 64 w

/-- A state after a command, the state itself where there is none. -/
def after (i : Instr) (s : State) : State :=
  match exec i s with
  | .next t => t
  | .fault _ => s
  | .refused _ => s

/-- R200: a NOP leaves the state, and the stream goes on. -/
theorem test_nop : nextOf (step (fed 0)) (fun t => (t.voices = State.reset.voices, t.out, t.pc, t.pending)) =
    some (True, 0#32, 1, []) := by
  simp [nextOf, step, fed, State.withFetchWord, State.reset, State.resetOf, tableWord, decode, opField, exec,
    execNop, State.accept]

/-- R87: a reserved word runs as NOP. -/
theorem test_reserved : nextOf (step (fed 0x0600000000000000)) (fun t => (t.pc, t.outValid, t.respValid)) =
    some (1, false, false) := by decide

/-- R201, example: from reset, NOTEON 60. -/
theorem test_noteon_first :
    nextOf (step (fed 0x01003C0000000000)) (fun t => (t.resp, t.alloc.ctr, t.alloc.slots[0]?, t.voices[0]?)) =
    some (0xC000#16, 1, some ⟨true, 60, 1⟩, some
      { phSaw := .zero, phSub := .zero, note := 60, vel := .one, gate := true, aenv := ⟨.attack, .zero⟩,
        fenv := ⟨.attack, .zero⟩, s1 := .zero, s2 := .zero, s3 := .zero }) := by decide +kernel

/-- R201, example: a second NOTEON 60, with velocity 100 (R151, example: `0x3F499326`). -/
theorem test_noteon_again :
    nextOf (exec (.noteOn 60 (some 100)) (after (.noteOn 60 none) State.reset))
      (fun t => (t.resp, t.alloc.ctr, t.alloc.slots[0]?, (t.voices[0]?).map (fun v => F32.toBits v.vel))) =
    some (0xA000#16, 2, some ⟨true, 60, 2⟩, some 0x3F499326#32) := by decide +kernel

/-- R202, example: NOTEOFF 60 of a held note. -/
theorem test_noteoff_found :
    nextOf (exec (.noteOff 60) (after (.noteOn 60 none) State.reset))
      (fun t => (t.resp, t.alloc.slots[0]?, (t.voices[0]?).map (fun v => (v.gate, v.aenv.stage, v.fenv.stage)))) =
    some (0x8000#16, some ⟨false, 60, 1⟩, some (false, .release, .release)) := by decide +kernel

/-- R202, example: a NOTEOFF that finds nothing. -/
theorem test_noteoff_not_found :
    nextOf (step (fed 0x02003C0000000000)) (fun t => (t.resp, t.respValid, t.alloc)) =
    some (0x0000#16, true, State.reset.alloc) := by decide +kernel

/-- R203, example: `SETP D_CUTOFF_HZ, 1000.0`. -/
theorem test_setp : nextOf (step (fed 0x03001000447A0000)) (fun t => (t.params, t.respValid, t.outValid)) =
    some ({ Params.reset with dCutoffHz := 0x447A0000#32 }, false, false) := by decide

/-- R203, corner case (d): address 0x09 is unmapped. -/
theorem test_setp_unmapped : nextOf (step (fed 0x030009003F800000)) (fun t => t.params) =
    some Params.reset := by decide

/-- Table 20-1: the edges of the two mapped ranges. -/
theorem test_address_edges :
    [0x08#8, 0x09#8, 0x0F#8, 0x10#8, 0x14#8, 0x15#8, 0xFF#8].map (fun a => (memRead Params.reset a).isSome) =
    [true, false, false, true, true, false, false] := by decide

/-- R204, corner case (a): the output after reset. -/
theorem test_tick_silent : nextOf (step (fed 0x0400000000000000)) (fun t => (t.out, t.outValid)) =
    some (0x00000000#32, true) := by decide +kernel

/-- R153 and R204, examples: the first two TICKs after NOTEON 69, and the voice they leave. -/
theorem test_tick_note_69 :
    nextOf (exec .tick (after .tick (after (.noteOn 69 none) State.reset)))
      (fun t => (t.out, (t.voices[0]?).map (fun v => [v.phSaw, v.phSub, v.aenv.val, v.fenv.val, v.s1, v.s2, v.s3].map
        F32.toBits))) =
    some (0x374E391D#32, some [0x3C962FC9#32, 0x3C162FC9#32, 0x3B883FAB#32, 0x3B883FAB#32, 0x3DC0E752#32,
      0x3B9A0DC0#32, 0x3B41BCF0#32]) := by decide +kernel

/-- R206, example: INIT after a note and a SETP keeps the register and clears the pool. -/
theorem test_init :
    nextOf (exec .init (after (.setp 0x03#8 0x3F000000#32) (after (.noteOn 60 none) State.reset)))
      (fun t => (t.voices, t.alloc, t.params.pFold, t.resp)) =
    some (List.replicate 4 Voice.reset, Alloc.resetOf Cfg.ref, 0x3F000000#32, 0xC000#16) := by decide +kernel

/-! ## Components, at the spec's vectors in binary32 -/

/-- R100, R101, R12 (a): exact and rounded values. -/
theorem test_frequencies :
    [noteFreq (N := f32Domain .reference) 60, noteFreq (N := f32Domain .reference) 57,
      noteFreq (N := f32Domain .reference) 69, noteFreq (N := f32Domain .reference) 81,
      bendFactor (N := f32Domain .reference) Cfg.ref .zero, bendFactor (N := f32Domain .reference) Cfg.ref .one].map
        F32.toBits =
    [0x4382D012#32, 0x435C0000#32, 0x43DC0000#32, 0x445C0000#32, 0x3F800000#32, 0x3F8FACD6#32] := by
  decide +kernel

/-- R120, example. -/
theorem test_env_coef :
    ((envCoef (N := f32Domain .reference) Cfg.ref (F32.ofDec ⟨1, 100⟩)).map F32.toBits,
      (envCoef (N := f32Domain .reference) Cfg.ref (F32.ofDec ⟨1, 10⟩)).map F32.toBits,
      envCoef (N := f32Domain .reference) Cfg.ref (F32.ofDec ⟨9, 10000⟩)) =
    (some 0x3B086400#32, some 0x395A7000#32, none) := by decide +kernel

/-- R186, example. -/
theorem test_fx_b :
    [fxB (N := f32Domain .reference) Cfg.ref (F32.ofDec ⟨1, 2⟩) (F32.ofDec ⟨1, 2⟩),
      fxB (N := f32Domain .reference) Cfg.ref (F32.ofDec ⟨1, 10⟩) (F32.ofDec ⟨1, 2⟩),
      fxB (N := f32Domain .reference) Cfg.ref (F32.ofDec ⟨1, 2⟩) (F32.ofDec ⟨1, 1000⟩),
      fxB (N := f32Domain .reference) Cfg.ref (F32.ofDec ⟨476, 1000⟩) (F32.ofDec ⟨1, 4⟩)].map F32.toBits =
    [0x3F400000#32, 0x3E4CCCCE#32, 0x3F000022#32, 0x3F1851EC#32] := by decide +kernel

/-- R110, corner cases (b), (c), R231 row AC11: a triangle, NaN to 0.0. -/
theorem test_fold :
    [fold (N := f32Domain .reference) Cfg.ref .one .zero, fold (N := f32Domain .reference) Cfg.ref (F32.ofInt 3) .zero,
      fold (N := f32Domain .reference) Cfg.ref .zero .one, fold (N := f32Domain .reference) Cfg.ref (.nan true 5) .one,
      fold (N := f32Domain .reference) Cfg.ref (F32.ofInt 1000000) .one].map F32.toBits =
    [0xBF800000#32, 0x3F800000#32, 0x00000000#32, 0x00000000#32, 0x00000000#32] := by decide +kernel

/-- R65: a NaN, a value below, above, a negative zero and an infinity, as `rd` reads them. -/
theorem test_rd :
    [rd Cfg.ref { Params.reset with pFx := 0x7FC00000#32 } .pFx, rd Cfg.ref { Params.reset with pFx := 0xBF800000#32 } .pFx,
      rd Cfg.ref { Params.reset with pFx := 0x40000000#32 } .pFx, rd Cfg.ref { Params.reset with pFx := 0x80000000#32 } .pFx,
      rd Cfg.ref { Params.reset with dDecayS := 0x7F800000#32 } .dDecayS,
      rd Cfg.ref { Params.reset with dCutoffHz := 0x7F800000#32 } .dCutoffHz].map F32.toBits =
    [0x00000000#32, 0x00000000#32, 0x3F800000#32, 0x80000000#32, 0x7F800000#32, 0x46B7C000#32] := by
  decide +kernel

/-- R11, log 8: the two zeros are equal, a NaN is not equal to itself, and negation turns its sign bit. -/
theorem test_eq :
    F32.eq .zero (F32.neg .zero) = true ∧ F32.eq (.nan false 0) (.nan false 0) = false ∧
      minNum (N := f32With (fun _ x => x)) .one .zero = .zero ∧
      maxNum (N := f32With (fun _ x => x)) .one .zero = .one ∧ F32.neg (.nan false 3) = .nan true 3 := by decide

/-- R11: e is between 2.7182818283 and 2.7182818286, by the exact comparison. -/
theorem test_exp_above :
    expAbove 1 2.7182818283 = true ∧ expAbove 1 2.7182818286 = false := by
  rw [← Bool.not_eq_true, expAbove_iff, expAbove_iff]
  push_cast
  exact ⟨Real.exp_one_gt_d9, not_lt.mpr Real.exp_one_lt_d9.le⟩

/-- R205 (c), R200: a NOP before a TICK changes no sample, from the state of R153's example. -/
theorem test_nop_before_tick :
    nextOf (exec .tick (after (.noteOn 69 none) State.reset)) (fun t => t.out) =
      nextOf (exec .tick (after .nop { after (.noteOn 69 none) State.reset with pc := 7 })) (fun t => t.out) := by
  rfl

/-- R170, example: five notes on four slots, a repeat, a steal. -/
theorem test_alloc : allocAnswers (Alloc.resetOf Cfg.ref) [60, 62, 64, 65, 67, 64, 69] =
    [(0, .free), (1, .free), (2, .free), (3, .free), (0, .steal), (2, .held), (1, .steal)] := by decide

/-! ## Witnesses: the hypotheses of each obligation can be met -/

/-- Four notes held: a full pool. -/
def fullPool : State :=
  after (.noteOn 65 none) (after (.noteOn 64 none) (after (.noteOn 62 none) (after (.noteOn 60 none) State.reset)))

theorem test_witness_ResetState : (State.rst { State.reset with rst := true }) = true := rfl

theorem test_witness_ResetInputForcesResetState :
    (State.rst { State.reset with rst := true }) = true ∧
      State.reset.underReset.rst = false ∧ State.reset.underReset.cmdReady = false := by decide

theorem test_witness_StepRunsDecodedCommand :
    (fed 0x0400000000000000).ready ∧ (fed 0x0400000000000000).pending = [0x0400000000000000#64] ∧
      decode 0x0400000000000000#64 = .ok .tick := by
  refine ⟨⟨rfl, rfl⟩, ?_, ?_⟩ <;> decide

theorem test_witness_ReservedOpcodeActsAsNop :
    (fed 0x0600000000000000).ready ∧ (fed 0x0600000000000000).pending = [0x0600000000000000#64] ∧
      0x06 ≤ (0x0600000000000000#64).toNat / 2 ^ 56 ∧ 0x06 ≤ (0xFFFFFFFFFFFFFFFF#64).toNat / 2 ^ 56 := by
  refine ⟨⟨rfl, rfl⟩, ?_, ?_, ?_⟩ <;> decide

theorem test_witness_IdleBlockHoldsState : State.reset.ready ∧ State.reset.pending = [] :=
  ⟨⟨rfl, rfl⟩, rfl⟩

theorem test_witness_CommandStreamAdvancesByOne :
    (fed 0).ready ∧ (fed 0).pending = [0#64] := ⟨⟨rfl, rfl⟩, by decide⟩

theorem test_witness_DecodeOfEncode : (Instr.noteOn 127 (some 127)).wf = true := rfl

theorem test_witness_OperandsAreBitFields :
    decode 0x01FFFFFFFFFFFFFF#64 = .ok (.noteOn 127 (some 127)) ∧
      (0x01FFFFFFFFFFFFFF#64).toNat / 2 ^ 48 % 2 = 1 ∧
      decode 0x0100000000000000#64 = .ok (.noteOn 0 none) ∧
      (0x0100000000000000#64).toNat / 2 ^ 48 % 2 = 0 ∧
      decode 0x02007F0000000000#64 = .ok (.noteOff 127) ∧
      decode 0x0300FF00FFFFFFFF#64 = .ok (.setp 0xFF#8 0xFFFFFFFF#32) := by decide

theorem test_witness_IgnoredBitsDoNotMatter :
    State.reset.ready ∧ decode 0x0180BC0012345678#64 = .ok (.noteOn 60 none) ∧
      0x0180BC0012345678#64 ≠ 0x01003C0000000000#64 ∧
      0x0180BC0012345678#64 &&& usedBits 0x0180BC0012345678#64 =
        0x01003C0000000000#64 &&& usedBits 0x0180BC0012345678#64 := by
  refine ⟨⟨rfl, rfl⟩, ?_⟩
  decide

theorem test_witness_RawControlsAreInaudible (r : ParamReg) (h : r.unread = false) :
    Params.get { Params.reset with pCutoff := 1#32, pDrive := 2#32, pDecay := 3#32, pFenvDepth := 4#32 } r =
      State.reset.params.get r := by
  revert h
  cases r <;> decide

theorem test_witness_SanClampsAndNeverAnswersNaN :
    F32.isFinite .zero = true ∧ F32.isFinite .one = true ∧ F32.le .zero .one = true ∧
      F32.isNaN (.nan false 0x7FFFFE) = true ∧ F32.lt (F32.neg .one) .zero = true ∧ F32.lt .one (.inf false) = true ∧
      F32.isNaN .one = false ∧ F32.lt .one .zero = false ∧ F32.lt .one .one = false ∧
      (san (N := f32With (fun _ x => x)) (.inf false) .zero none).isFinite = false := by decide

theorem test_witness_AllocNoteOnByPriority : State.reset.alloc.slots ≠ [] := by decide

theorem test_witness_NoteOnStartsChosenVoice :
    State.reset.alloc.slots.length = State.reset.voices.length ∧ 0 < State.reset.voices.length ∧
      State.reset.voices.length ≤ 128 := by decide

theorem test_witness_OneNoteTooManyStealsFirstSlot :
    fullPool.alloc.notesApart ∧ fullPool.alloc.slots[2]? = some ⟨true, 64, 3⟩ ∧
      1 ≤ Cfg.ref.nVoices ∧ ([60, 62, 64, 65, 67] : List Note).Nodup ∧
      ([60, 62, 64, 65, 67] : List Note).length = Cfg.ref.nVoices + 1 := by decide +kernel

theorem test_witness_NoteOffReleasesHeldNote :
    fullPool.alloc.notesApart ∧ fullPool.alloc.slots[3]? = some ⟨true, 65, 4⟩ ∧
      (fullPool.voices[3]?).isSome = true ∧ (fullPool.voices[3]?).map (fun v => v.note) = some 65 := by
  decide +kernel

theorem test_witness_NoteOffOfUnheldNote :
    ∀ x ∈ fullPool.alloc.slots, x.valid = true → x.note ≠ (67 : Note) := by decide +kernel

theorem test_witness_StaleNoteOffIsHarmless :
    fullPool.alloc.notesApart ∧ fullPool.alloc.slots[0]? = some ⟨true, 60, 1⟩ ∧
      (allocNoteOn fullPool.alloc 67).1 = (0, .steal) := by decide +kernel

theorem test_witness_AgeCounterCountsNoteOns :
    State.reset.ready ∧ ∀ w ∈ ([0x01003C0000000000#64, 0x0400000000000000#64] : List CmdWord),
      opBits w ≠ 0x0500000000000000#64 := by
  refine ⟨⟨rfl, rfl⟩, fun w hw => ?_⟩
  simp only [List.mem_cons, List.not_mem_nil, or_false] at hw
  rcases hw with rfl | rfl <;> decide

theorem test_witness_InactiveVoiceIsFrozen :
    State.reset.voices[3]? = some Voice.reset ∧
      isActive (N := f32Domain State.reset.cfg.elem) State.reset.cfg Voice.reset = false := by
  decide +kernel

theorem test_witness_SilentBlockGivesZero :
    State.reset.cfg = Cfg.ref ∧
      ∀ v ∈ State.reset.voices, isActive (N := f32Domain State.reset.cfg.elem) State.reset.cfg v = false := by
  decide +kernel

theorem test_witness_VoiceProcessFollowsItsSevenSteps :
    (Voice.reset.gate = false ∧ F32.lt (F32.ofDec Cfg.ref.activeEps) Voice.reset.aenv.val = false) ∧
      F32.lt (F32.ofDec Cfg.ref.activeEps) .one = true ∧
      F32.lt (F32.ofDec Cfg.ref.activeEps) (F32.ofDec Cfg.ref.activeEps) = false ∧
      Cfg.ref.fenvMode = .addHz ∧ (Cfg.fenvMode { Cfg.ref with fenvMode := .sweep }) = .sweep ∧
      decReal Cfg.ref.minFreq ≤ decReal Cfg.ref.fs * decReal Cfg.ref.nyqFrac ∧
      (300 : ℝ) ≤ decReal Cfg.ref.fenvCeilHz := by
  refine ⟨by decide, by decide, by decide, by decide, by decide, ?_, ?_⟩ <;> norm_num [decReal, Cfg.ref]

theorem tick_next (s : State) : ∃ t, exec .tick s = .next t := ⟨_, rfl⟩

theorem test_witness_VoicesShareNothing :
    ∃ t t', fullPool ≠ after (.noteOff 60) fullPool ∧ fullPool.cfg = (after (.noteOff 60) fullPool).cfg ∧
      fullPool.params = (after (.noteOff 60) fullPool).params ∧
      fullPool.voices[1]? = (after (.noteOff 60) fullPool).voices[1]? ∧
      exec .tick fullPool = .next t ∧ exec .tick (after (.noteOff 60) fullPool) = .next t' := by
  obtain ⟨t, ht⟩ := tick_next fullPool
  obtain ⟨t', ht'⟩ := tick_next (after (.noteOff 60) fullPool)
  exact ⟨t, t', by decide +kernel, by decide +kernel, by decide +kernel, by decide +kernel, ht, ht'⟩

theorem test_witness_OutputsBelongToTheirCommands :
    State.reset.outValid = false ∧ State.reset.respValid = false ∧
      exec .nop State.reset = .next State.reset := ⟨rfl, rfl, rfl⟩

theorem test_witness_ResponsesIgnoreInterleaving :
    State.reset.ready ∧ (∀ w ∈ ([0x0400000000000000#64] : List CmdWord), opBits w = 0x0400000000000000#64) ∧
      (∀ w ∈ ([0x01003C0000000000#64] : List CmdWord), opBits w ≠ 0x0400000000000000#64) ∧
      Interleaves ([0x0400000000000000#64] : List CmdWord) [0x01003C0000000000#64]
        [0x0400000000000000#64, 0x01003C0000000000#64] := by
  refine ⟨⟨rfl, rfl⟩, fun w hw => ?_, fun w hw => ?_, .audio _ (.control _ .done)⟩
  · rw [List.mem_singleton.mp hw]; decide
  · rw [List.mem_singleton.mp hw]; decide

theorem test_witness_StepKeepsInvariant :
    Inv fullPool ∧ step fullPool = .next fullPool.idle := by
  have h1 : fullPool.rst = false := by decide +kernel
  have h2 : fullPool.cmdReady = true := by decide +kernel
  have h3 : fullPool.pending = [] := by decide +kernel
  refine ⟨⟨?_, ?_, ?_, ?_, ?_, ?_, ?_, ?_, ?_, ?_, ?_, ?_, ?_⟩, by simp [step, h1, h2, h3]⟩
  all_goals first | decide +kernel | exact ⟨rfl, rfl⟩

theorem test_witness_EnvelopeStaysInUnitIntervalInBinary32 :
    ElemProps constantElem ∧ ElemPropsInRange constantElem ∧ F32.within .zero .one .one ∧ F32.within .zero .one .zero ∧
      F32.le .zero (F32.ofDec Cfg.ref.tAttack) = true ∧ F32.le .zero (.inf false) = true ∧
      F32.le .zero (F32.neg .zero) = true :=
  ⟨constantElem_props, { constantElem_props with
      exp2_pos := fun _ _ => show F32.lt .zero .one = true by decide
      exp_range := fun _ _ => show F32.lt .zero .one = true ∧ F32.le .one .one = true by decide },
    ⟨by decide, by decide⟩, ⟨by decide, by decide⟩, by decide, by decide, by decide⟩

theorem test_witness_PhaseStaysBelowOneInBinary32 :
    F32.le .zero .zero = true ∧ F32.lt .zero .one = true ∧ F32.le .zero .one = true ∧
      F32.isFinite .one = true ∧ F32.lt (F32.ofBits 0x3F7FFFFF#32) .one = true := by decide

theorem test_witness_FoldStaysInRange :
    ((0 : ℝ) ≤ 1 ∧ (1 : ℝ) ≤ 1) ∧ F32.within .zero .one .one ∧ F32.within .zero .one .zero :=
  ⟨by norm_num, ⟨by decide, by decide⟩, ⟨by decide, by decide⟩⟩

theorem test_witness_EffectsChainContract :
    F32.lt .zero (F32.ofDec Cfg.ref.fxBypassEps) = true ∧
      F32.lt (F32.ofDec Cfg.ref.fxBypassEps) (F32.ofDec Cfg.ref.fxBypassEps) = false ∧
      F32.isFinite .zero = true ∧ Cfg.ref.fxTopology = .b ∧ (Cfg.fxTopology { Cfg.ref with fxTopology := .a }) = .a := by decide

theorem test_witness_EnvelopeStageTable :
    envCoef (N := f32With (fun _ x => x)) Cfg.ref .zero = none ∧
      (envCoef (N := f32With (fun _ x => x)) Cfg.ref .one).isSome = true ∧ (Env.stage ⟨.attack, F32.zero⟩) = .attack ∧ (Env.stage ⟨.decay, F32.zero⟩) = .decay ∧
      (Env.stage ⟨.release, F32.zero⟩) = .release := by
  decide +kernel

theorem test_witness_FilterStatesAreFlushed :
    F32.lt (F32.abs (F32.ofBits 0x9E3CE507#32)) (F32.ofDec Cfg.ref.flushEps) = true ∧
      F32.lt (F32.abs (F32.ofBits 0x9E3CE508#32)) (F32.ofDec Cfg.ref.flushEps) = false := by decide

theorem test_witness_OscillatorIsBounded : (0 : ℝ) < 1 / 4 ∧ (1 / 4 : ℝ) < 1 / 2 := by norm_num

theorem test_witness_FoldIsATriangle : |(1 : ℝ)| ≤ 1 ∧ |(-1 : ℝ)| ≤ 1 := by norm_num

theorem test_witness_EnvelopeStaysInUnitInterval :
    Cfg.ref.fs.pos = true ∧ Cfg.ref.instantTime.pos = true ∧ (0 : ℝ) ≤ 1 ∧ (1 : ℝ) ≤ 1 ∧ (0 : ℝ) ≤ 0 ∧
      ∃ k, envCoef (N := realDomain) Cfg.ref 1 = some k := by
  refine ⟨by decide, by decide, by norm_num, by norm_num, by norm_num, ?_⟩
  unfold envCoef
  rw [if_neg]
  · exact ⟨_, rfl⟩
  · rw [realDomain_lt, realDomain_ofDec]
    norm_num [Cfg.ref]

theorem test_witness_AttackTakes3316Steps : 0 ≤ 3316 ∧ 3315 < 3316 ∧ 3316 ≤ 3316 := by decide

theorem test_witness_SaturatorIsBounded :
    Cfg.ref.driveK.nonneg = true ∧ (0 : ℝ) ≤ 1 ∧ (1 : ℝ) ≤ 1 ∧ (-1 : ℝ) ≤ 1 ∧ Cfg.ref.satKind = .clamp ∧
      |(0 : ℝ)| ≤ satLevel (N := realDomain) Cfg.ref 0 ∧ F32.within .zero .one .one := by
  refine ⟨by decide, by norm_num, by norm_num, by norm_num, by decide, ?_, ⟨by decide, by decide⟩⟩
  simp only [satLevel, realDomain_ofInt, realDomain_ofDec, abs_zero]
  norm_num [Cfg.ref]

theorem test_witness_FilterIsBounded :
    ((12000 : ℝ) ≤ 12000 ∧ |(1 : ℝ)| ≤ 1 ∧ |(-1 : ℝ)| ≤ 1 ∧ |(9 / 2 : ℝ)| ≤ 9 / 2 ∧ (0 : ℝ) ≤ 0) ∧
      (∀ g : ℝ, |max 1 (g / (1 - g)) * (9 / 2)| ≤ max 1 (g / (1 - g)) * (9 / 2)) ∧
      |Real.tan (49 / 100 * Real.pi) * (9 / 2)| ≤ Real.tan (49 / 100 * Real.pi) * (9 / 2) := by
  refine ⟨by norm_num [abs_of_pos], fun g => ?_, ?_⟩
  · rw [abs_of_nonneg (mul_nonneg (le_max_of_le_left zero_le_one) (by norm_num))]
  · have := Real.pi_pos
    have := Real.tan_pos_of_pos_of_lt_pi_div_two (x := 49 / 100 * Real.pi) (by linarith) (by linarith)
    rw [abs_of_nonneg (by positivity)]

theorem test_witness_FilterFixedPoint :
    (0 : ℝ) ≤ 1 ∧ (1 : ℝ) ≤ 1 ∧ |(1 / 10 ^ 20 : ℝ)| ≤ satLevel (N := realDomain) Cfg.ref 1 ∧
      (1 / 10 ^ 20 : ℝ) ≤ |(1 / 10 ^ 20 : ℝ)| := by
  refine ⟨by norm_num, by norm_num, ?_, le_abs_self _⟩
  simp only [satLevel, realDomain_ofInt, realDomain_ofDec]
  norm_num [Cfg.ref, abs_of_pos]

theorem test_witness_EffectsStagesShape :
    Cfg.ref.fxK.nonneg = true ∧ (0 : ℝ) ≤ 1 ∧ (1 : ℝ) ≤ 1 ∧ (-3 : ℝ) ≤ 3 ∧ (1 / 2 : ℝ) ≤ 1 / 2 := by
  refine ⟨by decide, ?_⟩
  norm_num

theorem test_witness_CurvesAreIncreasing : (0 : ℝ) ≤ 0 ∧ (0 : ℝ) < 1 ∧ (1 : ℝ) ≤ 1 := by norm_num

theorem test_witness_RoundsToNearestEven : 0 < 1 ∧ 0 < 2 ^ 149 := by decide

theorem test_witness_ArithmeticRoundsOnce : F32.one = .fin false ⟨0x3F800000, by decide⟩ ∧ 0x3F800000 ≠ 0 := by
  decide

theorem test_witness_ExactPrimitives : |(2 ^ 24 - 1 : ℤ)| < 2 ^ 24 ∧ |(-(2 ^ 24 - 1) : ℤ)| < 2 ^ 24 := by decide

theorem test_witness_ConstantsAreRoundedOnce : Dec.wf ⟨999, 1000⟩ = true := by decide

/-- R10: the first and the last NaN of either sign, the infinity before them. -/
theorem test_nan_bits :
    F32.ofBits 0x7F800001#32 = .nan false 0 ∧ F32.ofBits 0xFFFFFFFF#32 = .nan true 0x7FFFFE ∧
      F32.toBits (.nan true 0x7FFFFE) = 0xFFFFFFFF#32 ∧ F32.ofBits 0x7F800000#32 = .inf false := by decide

/-- The reference functions answer: e^1, 2^0.5, tanh 1, sin 1, tan 1. -/
theorem test_witness_ReferenceFunctions :
    (refExp false ⟨0x3F800000, by decide⟩).isSome = true ∧ (refExp2 false ⟨0x3F000000, by decide⟩).isSome = true ∧
      (refTanh false ⟨0x3F800000, by decide⟩).isSome = true ∧ (refSin true ⟨0x3F800000, by decide⟩).isSome = true ∧
      (refTan false ⟨0x3F800000, by decide⟩).isSome = true := by decide +kernel

end Sys2Proof.Tests
end

section
/-! The rounding of `F32.round` is the rounding of R10: a magnitude is the one that a real number
rounds to when the number lies between the midpoints around it, and on a midpoint only when the
magnitude is even. -/

namespace Sys2Proof.Machine

/-! ## The real value of a finite number -/

/-- The real number of a magnitude. -/
noncomputable def magReal (m : ℕ) : ℝ := (magUnits m : ℝ) / 2 ^ 149

/-- The real number half way between a magnitude and its predecessor. -/
noncomputable def midReal (j : ℕ) : ℝ := (midpoint j : ℝ) / 2 ^ 150

/-- A real magnitude with a sign. -/
def signed (neg : Bool) (v : ℝ) : ℝ := if neg = true then -v else v

@[simp] theorem signed_false (v : ℝ) : signed false v = v := rfl
@[simp] theorem signed_true (v : ℝ) : signed true v = -v := rfl

@[simp] theorem abs_signed (neg : Bool) (v : ℝ) : |signed neg v| = |v| := by
  cases neg <;> simp

theorem signed_sub (neg : Bool) (a b : ℝ) : signed neg a - signed neg b = signed neg (a - b) := by
  cases neg
  · rfl
  · simp only [signed_true]
    ring

theorem signed_eq_mul (neg : Bool) (v : ℝ) : signed neg v = (if neg = true then -1 else 1) * v := by
  cases neg <;> simp

theorem f32Real_fin (s : Bool) (m : F32Mag) : f32Real (.fin s m) = signed s (magReal m) := by
  cases s <;> simp [f32Real, signedUnits, magReal, neg_div]

theorem magReal_nonneg (m : ℕ) : 0 ≤ magReal m := by unfold magReal; positivity

theorem magReal_strictMono : StrictMono magReal := fun a b h => by
  unfold magReal
  have : (magUnits a : ℝ) < magUnits b := by exact_mod_cast magUnits_lt.mpr h
  gcongr

@[simp] theorem magReal_zero : magReal 0 = 0 := by simp [magReal]

theorem midReal_eq (j : ℕ) : midReal j = (magReal (j - 1) + magReal j) / 2 := by
  unfold midReal magReal midpoint
  push_cast
  ring

theorem midReal_mono : Monotone midReal := fun a b h => by
  rw [midReal_eq, midReal_eq]
  have h1 := magReal_strictMono.monotone (Nat.sub_le_sub_right h 1)
  have h2 := magReal_strictMono.monotone h
  linarith

theorem midReal_lt {a b : ℕ} (h : a < b) (hb : 1 < b) : midReal a < midReal b := by
  rw [midReal_eq, midReal_eq]
  have h1 := magReal_strictMono (show a - 1 < b - 1 by omega)
  have h2 := magReal_strictMono h
  linarith

/-- The midpoint below the infinity's magnitude is the bound from which numbers overflow. -/
theorem midReal_inf : midReal 0x7F800000 = overflowBound := by
  have h : midpoint 0x7F800000 = (2 ^ 25 - 1) * 2 ^ 253 := by decide
  rw [midReal, h, overflowBound]
  norm_num

/-! ## Rounding of a real magnitude -/

/-- The magnitude `r` is `v` rounded to nearest, ties to even; from the infinity's magnitude on it
only says that `v` is not below it. -/
structure RoundsTo (v : ℝ) (r : ℕ) : Prop where
  lower : midReal r ≤ v
  upper : r < 0x7F800000 → v ≤ midReal (r + 1)
  even : r < 0x7F800000 → v = midReal r ∨ v = midReal (r + 1) → r % 2 = 0

/-- No magnitude is nearer to `v` than `r`, and one that is as near makes `r` even. -/
theorem RoundsTo.nearest {v : ℝ} {r : ℕ} (h : RoundsTo v r) (hr : r < 0x7F800000) (n : ℕ) :
    |magReal r - v| ≤ |magReal n - v| ∧
      (n ≠ r → |magReal n - v| = |magReal r - v| → r % 2 = 0) := by
  obtain ⟨hlo, hup, heven⟩ := h
  specialize hup hr
  specialize heven hr
  rcases lt_trichotomy n r with hlt | rfl | hgt
  · have hmid := midReal_eq r
    have h1 := magReal_strictMono.monotone (show n ≤ r - 1 by omega)
    have h2 := magReal_strictMono hlt
    have hdist : |magReal n - v| = v - magReal n := by
      rw [abs_sub_comm, abs_of_nonneg (by linarith)]
    rw [hdist]
    refine ⟨abs_le.mpr ⟨by linarith, by linarith⟩, fun _ he => ?_⟩
    rcases abs_choice (magReal r - v) with hc | hc <;> rw [hc] at he
    · exact heven (.inl (by linarith))
    · linarith
  · exact ⟨le_rfl, fun h => absurd rfl h⟩
  · have hmid := midReal_eq (r + 1)
    rw [Nat.add_sub_cancel] at hmid
    have h1 := magReal_strictMono.monotone (show r + 1 ≤ n by omega)
    have h2 := magReal_strictMono hgt
    have hdist : |magReal n - v| = magReal n - v := abs_of_nonneg (by linarith)
    rw [hdist]
    refine ⟨abs_le.mpr ⟨by linarith, by linarith⟩, fun _ he => ?_⟩
    rcases abs_choice (magReal r - v) with hc | hc <;> rw [hc] at he
    · linarith
    · exact heven (.inr (by linarith))

/-- A finite number is no nearer to a signed real number than its magnitude to the magnitude. -/
theorem abs_magReal_sub_le (t neg : Bool) (n : F32Mag) {v : ℝ} (hv : 0 ≤ v) :
    |magReal n - v| ≤ |f32Real (.fin t n) - signed neg v| := by
  have h := abs_abs_sub_abs_le (f32Real (.fin t n)) (signed neg v)
  rwa [f32Real_fin, abs_signed, abs_signed, abs_of_nonneg (magReal_nonneg _), abs_of_nonneg hv,
    ← f32Real_fin] at h

/-- Two positive magnitudes are further apart when their signs differ. -/
theorem abs_signed_sub_signed_ne {t neg : Bool} (h : t ≠ neg) {a v : ℝ} (ha : 0 < a) (hv : 0 < v) :
    |signed t a - signed neg v| ≠ |a - v| := by
  have hopp : |signed t a - signed neg v| = a + v := by
    cases t <;> cases neg
    · exact absurd rfl h
    · rw [signed_false, signed_true, sub_neg_eq_add, abs_of_pos (by positivity)]
    · rw [signed_false, signed_true, ← neg_add', abs_neg, abs_of_pos (by positivity)]
    · exact absurd rfl h
  rw [hopp]
  exact (abs_sub_lt_of_nonneg_of_lt ha.le (by linarith) hv.le (by linarith)).ne'

/-- The number with the sign and magnitude that a real number rounds to is nearest to it (R10). -/
theorem RoundsTo.nearestTo {v : ℝ} {r : F32Mag} (h : RoundsTo v r) (neg : Bool) :
    nearestTo (signed neg v) (.fin neg r) := by
  have hmid : 0 ≤ midReal r := by unfold midReal; positivity
  have hv : 0 ≤ v := hmid.trans h.lower
  have hself : |f32Real (.fin neg r) - signed neg v| = |magReal r - v| := by
    rw [f32Real_fin, signed_sub, abs_signed]
  refine ⟨neg, r, rfl, ?_, ?_⟩
  · intro x hx
    cases x with
    | nan => cases hx
    | inf => cases hx
    | fin t n =>
      rw [hself]
      exact (h.nearest r.isLt n).1.trans (abs_magReal_sub_le t neg n hv)
  · rintro ⟨x, hx, hne, heq⟩
    cases x with
    | nan => cases hx
    | inf => cases hx
    | fin t n =>
      rw [hself] at heq
      have hle := abs_magReal_sub_le t neg n hv
      obtain ⟨hnear, heven⟩ := h.nearest r.isLt n
      by_cases hnr : (n : ℕ) = r
      · -- the two numbers differ in sign only, so `v` is 0 and `r` with it
        have hn : n = r := Fin.ext hnr
        subst hn
        by_contra hodd
        have hpos : 0 < magReal n := magReal_zero ▸ magReal_strictMono (show 0 < (n : ℕ) by omega)
        have hv0 : 0 < v := by
          have := h.lower
          rw [midReal_eq] at this
          linarith [magReal_nonneg ((n : ℕ) - 1)]
        rw [f32Real_fin] at heq
        exact abs_signed_sub_signed_ne (fun he => hne (by rw [he])) hpos hv0 heq
      · exact heven hnr (le_antisymm (hle.trans heq.le) hnear)

/-- A real number and the number of the magnitude it rounds to: rounded once (R10). -/
theorem RoundsTo.roundedFrom {v : ℝ} {r : ℕ} (h : RoundsTo v r) (neg : Bool) :
    roundedFrom (signed neg v) (F32.ofMagnitude neg r) := by
  have hmid : 0 ≤ midReal r := by unfold midReal; positivity
  have hv : 0 ≤ v := hmid.trans h.lower
  unfold F32.ofMagnitude
  split
  · next hr =>
    refine .inl ⟨?_, RoundsTo.nearestTo (r := ⟨r, hr⟩) h neg⟩
    rw [abs_signed, abs_of_nonneg hv, ← midReal_inf]
    have hle := (h.upper hr).trans (midReal_mono (show r + 1 ≤ 0x7F800000 by omega))
    refine lt_of_le_of_ne hle fun he => ?_
    by_cases hlast : r + 1 = 0x7F800000
    · have := h.even hr (.inr (by rw [hlast, he]))
      omega
    · have := (h.upper hr).trans_lt
        (midReal_lt (show r + 1 < 0x7F800000 by omega) (by norm_num))
      linarith
  · next hr =>
    have hbound : overflowBound ≤ v := by
      rw [← midReal_inf]
      exact (midReal_mono (not_lt.mp hr)).trans h.lower
    cases neg with
    | false => exact .inr (.inl ⟨hbound, rfl⟩)
    | true => exact .inr (.inr ⟨neg_le_neg hbound, rfl⟩)

/-! ## The rounding of a fraction of units -/

/-- The comparison with the midpoints for a fraction of units of 2^-149, in whole numbers. -/
theorem roundsTo_div {num den r : ℕ} (hden : 0 < den) (hlo : midpoint r * den ≤ 2 * num)
    (hup : 2 * num ≤ midpoint (r + 1) * den)
    (heven : 2 * num = midpoint r * den ∨ 2 * num = midpoint (r + 1) * den → r % 2 = 0) :
    RoundsTo ((num : ℝ) / den / 2 ^ 149) r := by
  have hd : (0 : ℝ) < den := by exact_mod_cast hden
  have hmid : ∀ j, midReal j = (midpoint j * den : ℕ) / (den * 2 ^ 150) := fun j => by
    rw [midReal, Nat.cast_mul]
    field_simp
  have hval : (num : ℝ) / den / 2 ^ 149 = (2 * num : ℕ) / (den * 2 ^ 150) := by
    push_cast
    field_simp
  have hpos : (0 : ℝ) < den * 2 ^ 150 := by positivity
  refine ⟨?_, fun _ => ?_, fun _ h => heven ?_⟩
  · rw [hmid, hval, div_le_div_iff_of_pos_right hpos]
    exact_mod_cast hlo
  · rw [hmid, hval, div_le_div_iff_of_pos_right hpos]
    exact_mod_cast hup
  · rw [hmid, hmid, hval, div_left_inj' hpos.ne', div_left_inj' hpos.ne'] at h
    exact_mod_cast h

/-- What `roundNearestEven` finds: the nearest integer, the even one on a tie. -/
theorem roundNearestEven_spec (num : ℕ) {den : ℕ} (hden : 0 < den) :
    let j := roundNearestEven num den
    2 * num ≤ (2 * j + 1) * den ∧ 2 * j * den ≤ 2 * num + den ∧
      (2 * num = (2 * j + 1) * den ∨ 2 * j * den = 2 * num + den → j % 2 = 0) := by
  have hdm := Nat.div_add_mod num den
  have hr := Nat.mod_lt num hden
  unfold roundNearestEven
  dsimp only
  generalize num / den = q at *
  generalize num % den = r at *
  rw [← hdm]
  split
  · refine ⟨by nlinarith, by nlinarith, ?_⟩
    rintro (h | h) <;> exfalso <;> nlinarith
  · split
    · refine ⟨by nlinarith, by nlinarith, ?_⟩
      rintro (h | h) <;> exfalso <;> nlinarith
    · have htie : den = 2 * r := by omega
      subst htie
      rcases Nat.mod_two_eq_zero_or_one q with h | h <;> rw [h]
      · exact ⟨by nlinarith, by nlinarith, fun _ => h⟩
      · exact ⟨by nlinarith, by nlinarith, fun _ => by omega⟩

/-- The units of the magnitude with significand `j` in the binade `k`; below 2^24 units the units of a
magnitude are the magnitude. -/
theorem magUnits_binade {j k : ℕ} (hj : j ≤ 2 ^ 24) (hk : k = 0 ∨ 2 ^ 23 ≤ j) :
    magUnits (k * 2 ^ 23 + j) = j * 2 ^ k := by
  norm_num only at hj hk ⊢
  unfold magUnits
  split
  · have : k = 0 := by omega
    subst this
    simp
  · simp only [Nat.shiftLeft_eq]
    rcases hj.lt_or_eq with hlt | rfl
    · have h1 : (k * 8388608 + j) / 0x800000 - 1 = k := by omega
      have h2 : 0x800000 + (k * 8388608 + j) % 0x800000 = j := by omega
      rw [h1, h2]
    · have h1 : (k * 8388608 + 16777216) / 0x800000 - 1 = k + 1 := by omega
      have h2 : 0x800000 + (k * 8388608 + 16777216) % 0x800000 = 8388608 := by omega
      rw [h1, h2, pow_succ]
      ring

/-- The significand's range in the binade that `roundMagnitude` chooses. -/
theorem binade_bounds (num den : ℕ) (hden : 0 < den) :
    let k := Nat.log2 (num / den) - 23
    num < 2 ^ 24 * (den * 2 ^ k) ∧ (k = 0 ∨ 2 ^ 23 * (den * 2 ^ k) ≤ num) := by
  intro k
  have hlt : num / den < 2 ^ (24 + k) :=
    Nat.lt_log2_self.trans_le (Nat.pow_le_pow_right (by norm_num) (by omega))
  refine ⟨?_, ?_⟩
  · rw [Nat.div_lt_iff_lt_mul hden, pow_add] at hlt
    linarith
  · rcases Nat.eq_zero_or_pos k with h0 | hpos
    · exact .inl h0
    · right
      have hne : num / den ≠ 0 := by
        intro h
        simp [k, h, Nat.log2] at hpos
      have hle : 2 ^ (23 + k) ≤ num / den := by
        have := Nat.log2_self_le hne
        rwa [show Nat.log2 (num / den) = 23 + k by omega] at this
      rw [Nat.le_div_iff_mul_le hden, pow_add] at hle
      linarith

/-- The midpoint above a magnitude: half a unit of its binade on, further at the binade's end. -/
theorem le_midpoint_above {num den j k : ℕ} (hj : j ≤ 2 ^ 24) (hjk : k = 0 ∨ 2 ^ 23 ≤ j)
    (hlt : num < 2 ^ 24 * (den * 2 ^ k)) (hup : 2 * num ≤ (2 * j + 1) * (den * 2 ^ k)) :
    2 * num ≤ midpoint (k * 2 ^ 23 + j + 1) * den ∧
      (2 * num = midpoint (k * 2 ^ 23 + j + 1) * den → 2 * num = (2 * j + 1) * (den * 2 ^ k)) := by
  unfold midpoint
  rw [Nat.add_sub_cancel, magUnits_binade hj hjk]
  rcases hj.lt_or_eq with hlt24 | rfl
  · rw [add_assoc, magUnits_binade (j := j + 1) (by omega) (by omega)]
    have : (j * 2 ^ k + (j + 1) * 2 ^ k) * den = (2 * j + 1) * (den * 2 ^ k) := by ring
    rw [this]
    exact ⟨hup, id⟩
  · have hnext := magUnits_lt_succ (k * 2 ^ 23 + 2 ^ 24)
    rw [magUnits_binade hj hjk] at hnext
    have hstrict : 2 * num < (2 ^ 24 * 2 ^ k + magUnits (k * 2 ^ 23 + 2 ^ 24 + 1)) * den :=
      calc 2 * num < (2 ^ 24 * 2 ^ k + 2 ^ 24 * 2 ^ k) * den := by linarith
        _ ≤ _ := Nat.mul_le_mul_right _ (by omega)
    exact ⟨hstrict.le, fun h => absurd h hstrict.ne⟩

/-- The midpoint below a magnitude: half a unit of its binade back, nearer at the binade's start. -/
theorem midpoint_below_le {num den j k : ℕ} (hj : j ≤ 2 ^ 24) (hjk : k = 0 ∨ 2 ^ 23 ≤ j)
    (hge : k = 0 ∨ 2 ^ 23 * (den * 2 ^ k) ≤ num) (hlo : 2 * j * (den * 2 ^ k) ≤ 2 * num + den * 2 ^ k) :
    midpoint (k * 2 ^ 23 + j) * den ≤ 2 * num ∧
      (2 * num = midpoint (k * 2 ^ 23 + j) * den →
        2 * j * (den * 2 ^ k) = 2 * num + den * 2 ^ k ∨ j % 2 = 0) := by
  have hself := magUnits_binade hj hjk
  unfold midpoint
  rw [hself]
  rcases Nat.eq_zero_or_pos j with rfl | hj0
  · have : k = 0 := by omega
    subst this
    simp
  · by_cases hstart : k = 0 ∨ 2 ^ 23 < j
    · obtain ⟨i, rfl⟩ : ∃ i, j = i + 1 := ⟨j - 1, by omega⟩
      rw [← add_assoc, Nat.add_sub_cancel, magUnits_binade (j := i) (by omega) (by omega)]
      have : (i * 2 ^ k + (i + 1) * 2 ^ k) * den + den * 2 ^ k = 2 * (i + 1) * (den * 2 ^ k) := by ring
      exact ⟨by omega, fun h => .inl (by omega)⟩
    · have hj23 : j = 2 ^ 23 := by omega
      subst hj23
      have hprev : magUnits (k * 2 ^ 23 + 2 ^ 23 - 1) ≤ 2 ^ 23 * 2 ^ k := by
        rw [← hself, magUnits_le]
        omega
      have hge' := hge.resolve_left fun h => hstart (.inl h)
      refine ⟨?_, fun _ => .inr (by norm_num)⟩
      calc (magUnits (k * 2 ^ 23 + 2 ^ 23 - 1) + 2 ^ 23 * 2 ^ k) * den
          ≤ (2 ^ 23 * 2 ^ k + 2 ^ 23 * 2 ^ k) * den := Nat.mul_le_mul_right _ (by omega)
        _ = 2 * (2 ^ 23 * (den * 2 ^ k)) := by ring
        _ ≤ 2 * num := by omega

/-- A rounded quotient stays within the closed binade its operand lies in. -/
theorem significand_bounds {num d j : ℕ} (hlt : num < 2 ^ 24 * d) (hup : 2 * num ≤ (2 * j + 1) * d)
    (hlo : 2 * j * d ≤ 2 * num + d) : j ≤ 2 ^ 24 ∧ (2 ^ 23 * d ≤ num → 2 ^ 23 ≤ j) := by
  norm_num only at hlt ⊢
  constructor
  · by_contra h
    have : (16777216 + 1) * d ≤ j * d := Nat.mul_le_mul_right _ (by omega)
    nlinarith
  · intro hge
    by_contra hc
    have : j * d ≤ (8388608 - 1) * d := Nat.mul_le_mul_right _ (by omega)
    norm_num only at this
    nlinarith

/-- `roundMagnitude` finds the magnitude that a fraction of units rounds to. -/
theorem roundMagnitude_roundsTo (num : ℕ) {den : ℕ} (hden : 0 < den) :
    RoundsTo ((num : ℝ) / den / 2 ^ 149) (roundMagnitude num den) := by
  obtain ⟨hlt, hge⟩ := binade_bounds num den hden
  have hscaled := roundNearestEven_spec num (den := den * 2 ^ (Nat.log2 (num / den) - 23))
    (by positivity)
  unfold roundMagnitude
  simp only [Nat.shiftLeft_eq]
  generalize Nat.log2 (num / den) - 23 = k at *
  generalize roundNearestEven num (den * 2 ^ k) = j at *
  obtain ⟨hup, hlo, htie⟩ := hscaled
  obtain ⟨hj, hj23⟩ := significand_bounds hlt hup hlo
  have hjk : k = 0 ∨ 2 ^ 23 ≤ j := hge.imp_right hj23
  obtain ⟨habove, habove_eq⟩ := le_midpoint_above hj hjk hlt hup
  obtain ⟨hbelow, hbelow_eq⟩ := midpoint_below_le hj hjk hge hlo
  refine roundsTo_div hden hbelow habove fun h => ?_
  have hjeven : j % 2 = 0 := by
    rcases h with h | h
    · exact (hbelow_eq h).elim (fun h => htie (.inr h)) id
    · exact htie (.inl (habove_eq h))
  omega

/-- `F32.round` rounds a fraction of units once (R10). -/
theorem roundedFrom_round (neg : Bool) (num : ℕ) {den : ℕ} (hden : 0 < den) :
    roundedFrom (signed neg ((num : ℝ) / den / 2 ^ 149)) (F32.round neg num den) :=
  (roundMagnitude_roundsTo num hden).roundedFrom neg

/-- Settles O52: `roundMagnitude` stays between the midpoints around its answer. -/
theorem roundsToNearestEven : Obligations.RoundsToNearestEven := by
  unfold Obligations.RoundsToNearestEven
  intro neg num den hden
  rw [← signed_eq_mul]
  exact roundedFrom_round neg num hden

end Sys2Proof.Machine
end

section
/-! The arithmetic, the exact primitives and the constants of binary32 (R10, R11, R13). -/

namespace Sys2Proof.Machine

/-! ## The four operations -/

theorem f32Real_neg (a : F32) : f32Real (F32.neg a) = -f32Real a := by
  cases a with
  | nan => simp [F32.neg, f32Real]
  | inf => simp [F32.neg, f32Real]
  | fin s m => cases s <;> simp [F32.neg, f32Real_fin]

/-- A zero of either sign is the real number 0 rounded once. -/
theorem roundedFrom_zero (z : Bool) : roundedFrom 0 (.fin z 0) := by
  have hr : RoundsTo 0 0 := ⟨by simp [midReal, midpoint],
    fun _ => by unfold midReal; positivity, fun _ _ => rfl⟩
  have h := hr.roundedFrom z
  have hz : F32.ofMagnitude z 0 = .fin z 0 := rfl
  rwa [hz, show signed z 0 = 0 by cases z <;> simp] at h

/-- `F32.ofUnits` rounds a signed fraction of units once (R10). -/
theorem roundedFrom_ofUnits (z : Bool) (n : ℤ) {den : ℕ} (hden : 0 < den) :
    roundedFrom ((n : ℝ) / den / 2 ^ 149) (F32.ofUnits z n den) := by
  unfold F32.ofUnits
  split
  · next h =>
    rw [h, Int.cast_zero, zero_div, zero_div]
    exact roundedFrom_zero z
  · next h =>
    have hr := roundedFrom_round (decide (n < 0)) n.natAbs hden
    have hn : signed (decide (n < 0)) ((n.natAbs : ℝ) / den / 2 ^ 149) = (n : ℝ) / den / 2 ^ 149 := by
      rw [Nat.cast_natAbs, Int.cast_abs]
      rcases lt_or_ge n 0 with hneg | hpos
      · have : (n : ℝ) < 0 := by exact_mod_cast hneg
        rw [decide_eq_true hneg, signed_true, abs_of_neg this]
        ring
      · have : (0 : ℝ) ≤ n := by exact_mod_cast hpos
        rw [decide_eq_false (not_lt.mpr hpos), signed_false, abs_of_nonneg this]
    rwa [hn] at hr

/-- A whole number of units. -/
theorem roundedFrom_ofUnits_one (z : Bool) (n : ℤ) :
    roundedFrom ((n : ℝ) / 2 ^ 149) (F32.ofUnits z n 1) := by
  simpa using roundedFrom_ofUnits z n one_pos

/-- The exact sum of finite numbers rounded once, whatever answers a NaN. -/
theorem roundedFrom_sumOf (bad : F32) (s t : Bool) (m n : F32Mag) :
    roundedFrom (f32Real (.fin s m) + f32Real (.fin t n)) (F32.sumOf bad (.fin s m) (.fin t n)) := by
  have hsum : f32Real (.fin s m) + f32Real (.fin t n) =
      ((signedUnits s m + signedUnits t n : ℤ) : ℝ) / 2 ^ 149 := by
    simp only [f32Real]
    push_cast
    ring
  rw [hsum]
  exact roundedFrom_ofUnits_one _ _

theorem signed_mul_signed (s t : Bool) (a b : ℝ) :
    signed s a * signed t b = signed (s != t) (a * b) := by
  cases s <;> cases t <;> simp

theorem signed_div_signed (s t : Bool) (a b : ℝ) :
    signed s a / signed t b = signed (s != t) (a / b) := by
  cases s <;> cases t <;> simp [neg_div, div_neg]

theorem roundedFrom_mul (s t : Bool) (m n : F32Mag) :
    roundedFrom (f32Real (.fin s m) * f32Real (.fin t n)) (F32.mul (.fin s m) (.fin t n)) := by
  have h := roundedFrom_round (s != t) (magUnits m * magUnits n) (den := 1 <<< 149) (by decide)
  have hprod : magReal m * magReal n =
      ((magUnits m * magUnits n : ℕ) : ℝ) / ((1 <<< 149 : ℕ) : ℝ) / 2 ^ 149 := by
    rw [Nat.one_shiftLeft]
    unfold magReal
    push_cast
    ring
  rw [f32Real_fin, f32Real_fin, signed_mul_signed, hprod]
  exact h

theorem roundedFrom_div (s t : Bool) (m n : F32Mag) (hn : n.val ≠ 0) :
    roundedFrom (f32Real (.fin s m) / f32Real (.fin t n)) (F32.div (.fin s m) (.fin t n)) := by
  have hpos : 0 < magUnits n := Nat.pos_of_ne_zero (by simpa using hn)
  have h := roundedFrom_round (s != t) (magUnits m <<< 149) hpos
  have hdiv : magReal m / magReal n = ((magUnits m <<< 149 : ℕ) : ℝ) / magUnits n / 2 ^ 149 := by
    rw [Nat.shiftLeft_eq]
    unfold magReal
    have : (magUnits n : ℝ) ≠ 0 := by exact_mod_cast hpos.ne'
    push_cast
    field_simp
    ring
  have hround : F32.div (.fin s m) (.fin t n) =
      F32.round (s != t) (magUnits m <<< 149) (magUnits n) := if_neg hn
  rwa [f32Real_fin, f32Real_fin, signed_div_signed, hdiv, hround]

/-- Settles O53: each operation is `F32.round` of the exact result in units. -/
theorem arithmeticRoundsOnce : Obligations.ArithmeticRoundsOnce := by
  unfold Obligations.ArithmeticRoundsOnce
  intro s t m n a b
  refine ⟨roundedFrom_sumOf _ s t m n, ?_, roundedFrom_mul s t m n, roundedFrom_div s t m n⟩
  rw [sub_eq_add_neg, ← f32Real_neg]
  exact roundedFrom_sumOf _ s (!t) m n

/-! ## Exact results -/

theorem abs_f32Real_lt_overflowBound (s : Bool) (m : F32Mag) : |f32Real (.fin s m)| < overflowBound := by
  rw [f32Real_fin, abs_signed, abs_of_nonneg (magReal_nonneg m), ← midReal_inf, midReal_eq]
  have h1 := magReal_strictMono.monotone (show (m : ℕ) ≤ 0x7F800000 - 1 by omega)
  have h2 := magReal_strictMono (show 0x7F800000 - 1 < 0x7F800000 by norm_num)
  linarith

/-- A number of the format is what it is rounded to. -/
theorem roundedFrom_exact {r : F32} {s : Bool} {m : F32Mag} (h : roundedFrom (f32Real (.fin s m)) r) :
    r.isFinite = true ∧ f32Real r = f32Real (.fin s m) := by
  have hlt := abs_lt.mp (abs_f32Real_lt_overflowBound s m)
  rcases h with ⟨-, neg, mag, rfl, hnear, -⟩ | ⟨hge, -⟩ | ⟨hle, -⟩
  · have := hnear (.fin s m) rfl
    rw [sub_self, abs_zero, abs_nonpos_iff, sub_eq_zero] at this
    exact ⟨rfl, this⟩
  · linarith
  · linarith

/-- The double of a magnitude's units is a magnitude's units. -/
theorem exists_magUnits_double (m : ℕ) : ∃ m', magUnits m' = 2 * magUnits m := by
  by_cases h : m < 0x800000
  · refine ⟨2 * m, ?_⟩
    have h1 := magUnits_binade (j := m) (k := 0) (by omega) (.inl rfl)
    have h2 := magUnits_binade (j := 2 * m) (k := 0) (by omega) (.inl rfl)
    simp only [zero_mul, zero_add, pow_zero, mul_one] at h1 h2
    rw [h1, h2]
  · refine ⟨m + 0x800000, ?_⟩
    unfold magUnits
    rw [if_neg h, if_neg (by omega), Nat.add_mod_right, Nat.shiftLeft_eq, Nat.shiftLeft_eq,
      show (m + 0x800000) / 0x800000 - 1 = (m / 0x800000 - 1) + 1 by omega, pow_succ]
    ring

/-- A significand of 24 bits in any binade is a magnitude's units. -/
theorem exists_magUnits_eq {j : ℕ} (hj : j ≤ 2 ^ 24) (k : ℕ) : ∃ m, magUnits m = j * 2 ^ k := by
  induction k with
  | zero => exact ⟨0 * 2 ^ 23 + j, magUnits_binade hj (.inl rfl)⟩
  | succ k ih =>
    obtain ⟨m, hm⟩ := ih
    obtain ⟨m', hm'⟩ := exists_magUnits_double m
    exact ⟨m', by rw [hm', hm, pow_succ]; ring⟩

/-- An integer of at most 24 bits is a number of the format. -/
theorem exists_f32_eq_int {n : ℤ} (hn : |n| ≤ 2 ^ 24) : ∃ s m, f32Real (.fin s m) = (n : ℝ) := by
  have hn' : n.natAbs ≤ 2 ^ 24 := by
    rw [Int.abs_eq_natAbs] at hn
    exact_mod_cast hn
  obtain ⟨m, hm⟩ := exists_magUnits_eq hn' 149
  have hm0 : m < 0x7F800000 := by
    rw [← magUnits_lt, hm]
    calc n.natAbs * 2 ^ 149 ≤ 2 ^ 24 * 2 ^ 149 := Nat.mul_le_mul_right _ hn'
      _ < magUnits 0x7F800000 := by decide
  have hreal : magReal m = |(n : ℝ)| := by
    rw [magReal, hm, Nat.cast_mul, Nat.cast_natAbs, Int.cast_abs, Nat.cast_pow,
      Nat.cast_ofNat]
    exact mul_div_cancel_right₀ _ (pow_ne_zero 149 two_ne_zero)
  refine ⟨decide (n < 0), ⟨m, hm0⟩, ?_⟩
  rw [f32Real_fin]
  change signed _ (magReal m) = _
  rw [hreal]
  rcases lt_or_ge n 0 with hneg | hpos
  · have : (n : ℝ) < 0 := by exact_mod_cast hneg
    rw [decide_eq_true hneg, signed_true, abs_of_neg this, neg_neg]
  · have : (0 : ℝ) ≤ n := by exact_mod_cast hpos
    rw [decide_eq_false (not_lt.mpr hpos), signed_false, abs_of_nonneg this]

/-- From 2^23 on every magnitude is a whole number. -/
theorem magUnits_whole_or_lt (m : ℕ) : 2 ^ 149 ∣ magUnits m ∨ magUnits m < 2 ^ 172 := by
  by_cases h : m < 0x800000
  · right
    rw [magUnits, if_pos h]
    exact h.trans (by norm_num)
  · rw [magUnits, if_neg h, Nat.shiftLeft_eq]
    by_cases he : 149 ≤ m / 0x800000 - 1
    · exact .inl ((pow_dvd_pow 2 he).mul_left _)
    · right
      calc (0x800000 + m % 0x800000) * 2 ^ (m / 0x800000 - 1)
          ≤ (0x800000 + m % 0x800000) * 2 ^ 148 :=
            Nat.mul_le_mul_left _ (Nat.pow_le_pow_right (by norm_num) (by omega))
        _ < 2 ^ 24 * 2 ^ 148 := Nat.mul_lt_mul_of_pos_right (by omega) (by norm_num)
        _ = 2 ^ 172 := by norm_num

/-- The floor of a number of the format is a number of the format. -/
theorem exists_f32_eq_floor (s : Bool) (m : F32Mag) :
    ∃ t n, f32Real (.fin t n) = ((⌊f32Real (.fin s m)⌋ : ℤ) : ℝ) := by
  rcases magUnits_whole_or_lt m with ⟨c, hc⟩ | hlt
  · have hreal : magReal m = c := by
      rw [magReal, hc, Nat.cast_mul]
      push_cast
      field_simp
      ring
    refine ⟨s, m, ?_⟩
    rw [f32Real_fin, hreal]
    cases s
    · simp
    · rw [signed_true, ← Int.cast_natCast, ← Int.cast_neg, Int.floor_intCast]
  · refine exists_f32_eq_int ?_
    have hreal : magReal m ≤ 2 ^ 23 := by
      rw [magReal, div_le_iff₀ (by positivity)]
      have : (magUnits m : ℝ) < 2 ^ 172 := by exact_mod_cast hlt
      exact this.le.trans (by norm_num)
    have habs : |f32Real (.fin s m)| ≤ 2 ^ 23 := by
      rwa [f32Real_fin, abs_signed, abs_of_nonneg (magReal_nonneg m)]
    rw [abs_le] at habs ⊢
    have h1 : (-2 ^ 23 : ℤ) ≤ ⌊f32Real (.fin s m)⌋ := Int.le_floor.mpr (by exact_mod_cast habs.1)
    have h2 : (⌊f32Real (.fin s m)⌋ : ℝ) ≤ 2 ^ 23 := (Int.floor_le _).trans habs.2
    have h3 : ⌊f32Real (.fin s m)⌋ ≤ (2 ^ 23 : ℤ) := by exact_mod_cast h2
    exact ⟨le_trans (by norm_num) h1, h3.trans (by norm_num)⟩

theorem one_shiftLeft_149 : (1 <<< 149 : ℤ) = 2 ^ 149 := by decide

/-- The floor of a number of units of 2^-149 by whole-number division. -/
theorem floor_units (n : ℤ) : ⌊(n : ℝ) / 2 ^ 149⌋ = Int.fdiv n (1 <<< 149) := by
  have hcast : (2 : ℝ) ^ 149 = ((2 ^ 149 : ℕ) : ℝ) := by rw [Nat.cast_pow, Nat.cast_ofNat]
  rw [Int.fdiv_eq_ediv_of_nonneg _ (by decide), hcast, Int.floor_div_natCast, Int.floor_intCast]
  rfl

/-- `F32.floor` is exact (R11). -/
theorem f32Real_floor (s : Bool) (m : F32Mag) :
    (F32.floor (.fin s m)).isFinite = true ∧
      f32Real (F32.floor (.fin s m)) = ((⌊f32Real (.fin s m)⌋ : ℤ) : ℝ) := by
  unfold F32.floor
  dsimp only
  split
  · next h => cases s <;> simp [F32.isFinite, f32Real_fin, h]
  · obtain ⟨t, n, hn⟩ := exists_f32_eq_floor s m
    rw [← hn]
    refine roundedFrom_exact ?_
    have h := roundedFrom_ofUnits_one false (Int.fdiv (signedUnits s m) (1 <<< 149) * (1 <<< 149))
    have hval : ((Int.fdiv (signedUnits s m) (1 <<< 149) * (1 <<< 149) : ℤ) : ℝ) / 2 ^ 149 =
        ((⌊f32Real (.fin s m)⌋ : ℤ) : ℝ) := by
      rw [f32Real, floor_units, Int.cast_mul, one_shiftLeft_149, Int.cast_pow]
      exact mul_div_cancel_right₀ _ (by positivity)
    rwa [hn, ← hval]

/-- A small integer converts exactly (R11). -/
theorem f32Real_ofInt {n : ℤ} (hn : |n| ≤ 2 ^ 24) :
    (F32.ofInt n).isFinite = true ∧ f32Real (F32.ofInt n) = n := by
  obtain ⟨s, m, hm⟩ := exists_f32_eq_int hn
  rw [← hm]
  refine roundedFrom_exact ?_
  have h := roundedFrom_ofUnits_one false (n * (1 <<< 149))
  have hval : ((n * (1 <<< 149) : ℤ) : ℝ) / 2 ^ 149 = n := by
    rw [Int.cast_mul, one_shiftLeft_149, Int.cast_pow]
    exact mul_div_cancel_right₀ _ (by positivity)
  rwa [hm, ← hval]

/-! ## The comparisons -/

theorem f32_lt_iff (s t : Bool) (m n : F32Mag) :
    F32.lt (.fin s m) (.fin t n) = true ↔ f32Real (.fin s m) < f32Real (.fin t n) := by
  rw [F32.lt_fin, decide_eq_true_iff, f32Real, f32Real, div_lt_div_iff_of_pos_right (by positivity),
    Int.cast_lt]

theorem f32_le_iff (s t : Bool) (m n : F32Mag) :
    F32.le (.fin s m) (.fin t n) = true ↔ f32Real (.fin s m) ≤ f32Real (.fin t n) := by
  rw [F32.le_fin, decide_eq_true_iff, f32Real, f32Real, div_le_div_iff_of_pos_right (by positivity),
    Int.cast_le]

theorem f32_eq_iff (s t : Bool) (m n : F32Mag) :
    F32.eq (.fin s m) (.fin t n) = true ↔ f32Real (.fin s m) = f32Real (.fin t n) := by
  rw [F32.eq_fin, decide_eq_true_iff, f32Real, f32Real, div_left_inj' (by positivity), Int.cast_inj]

theorem f32Real_maxNum (elem : ElemFn → F32 → F32) (s t : Bool) (m n : F32Mag) :
    f32Real (maxNum (N := f32With elem) (.fin s m) (.fin t n)) =
      max (f32Real (.fin s m)) (f32Real (.fin t n)) := by
  unfold maxNum
  split
  · next h => exact (max_eq_right ((f32_lt_iff ..).mp h).le).symm
  · next h => exact (max_eq_left (not_lt.mp fun hlt => h ((f32_lt_iff ..).mpr hlt))).symm

theorem f32Real_minNum (elem : ElemFn → F32 → F32) (s t : Bool) (m n : F32Mag) :
    f32Real (minNum (N := f32With elem) (.fin s m) (.fin t n)) =
      min (f32Real (.fin s m)) (f32Real (.fin t n)) := by
  unfold minNum
  split
  · next h => exact (min_eq_right ((f32_lt_iff ..).mp h).le).symm
  · next h => exact (min_eq_left (not_lt.mp fun hlt => h ((f32_lt_iff ..).mpr hlt))).symm

theorem f32Real_abs (s : Bool) (m : F32Mag) : f32Real (F32.abs (.fin s m)) = |f32Real (.fin s m)| := by
  rw [F32.abs, f32Real_fin, f32Real_fin, abs_signed, signed_false, abs_of_nonneg (magReal_nonneg m)]

/-- Settles O54: comparing units is comparing the numbers, and a floor and a small integer are numbers
of the format. -/
theorem exactPrimitives : Obligations.ExactPrimitives := by
  unfold Obligations.ExactPrimitives
  refine ⟨fun s t m n => ?_, fun n hn => f32Real_ofInt hn.le, fun s k x => ?_⟩
  · obtain ⟨hfin, hfloor⟩ := f32Real_floor s m
    exact ⟨f32_lt_iff s t m n, f32_le_iff s t m n, f32_eq_iff s t m n,
      fun elem => ⟨f32Real_maxNum elem s t m n, f32Real_minNum elem s t m n⟩, f32Real_abs s m, hfin,
      hfloor⟩
  · exact ⟨F32.lt_nan_left s k x, F32.lt_nan_right s k x, F32.le_nan_left s k x,
      F32.le_nan_right s k x, F32.eq_nan_left s k x, F32.eq_nan_right s k x⟩

/-! ## The constants -/

/-- A decimal constant is rounded once (R13). -/
theorem roundedFrom_ofDec {d : Dec} (hd : d.wf = true) : roundedFrom (decReal d) (F32.ofDec d) := by
  have hden : 0 < d.den := of_decide_eq_true hd
  have h := roundedFrom_ofUnits false (d.num * (1 <<< 149)) hden
  have hval : ((d.num * (1 <<< 149) : ℤ) : ℝ) / d.den / 2 ^ 149 = decReal d := by
    rw [Int.cast_mul, one_shiftLeft_149, Int.cast_pow, mul_div_right_comm]
    exact mul_div_cancel_right₀ _ (by positivity)
  rwa [hval] at h

/-- Settles O55: the general clause is the rounding of a fraction; the bit patterns are evaluated. -/
theorem constantsAreRoundedOnce : Obligations.ConstantsAreRoundedOnce := by
  unfold Obligations.ConstantsAreRoundedOnce
  refine ⟨fun d hd => roundedFrom_ofDec hd, ?_, ?_, ?_, ?_, ?_, ?_⟩ <;> decide

end Sys2Proof.Machine
end

section
/-! The bit patterns of binary32 (R10, R43) and the clamp on it (R14). -/

namespace Sys2Proof.Machine

/-! ## Bit patterns -/

/-- The sign bit and the 31 bits below it, from the pattern as a number. -/
theorem word_fields {w : Word} {s : Bool} {p : ℕ} (hp : p < 2 ^ 31)
    (h : w.toNat = (if s = true then 0x80000000 else 0) + p) :
    w.msb = s ∧ w.toNat % 0x80000000 = p := by
  rw [BitVec.msb_eq_decide, h]
  norm_num only at hp ⊢
  cases s
  · simp only [Bool.false_eq_true, if_false, decide_eq_false_iff_not]
    omega
  · simp only [if_true, decide_eq_true_eq]
    omega

/-- A word's pattern as a number, from its sign bit and the 31 bits below it. -/
theorem toNat_eq_fields (w : Word) :
    w.toNat = (if w.msb = true then 0x80000000 else 0) + w.toNat % 0x80000000 := by
  have hw := w.isLt
  rw [BitVec.msb_eq_decide]
  by_cases h : 2 ^ (32 - 1) ≤ w.toNat
  · rw [decide_eq_true h, if_pos rfl]
    omega
  · rw [decide_eq_false h, if_neg Bool.false_ne_true]
    omega

theorem toNat_toBits_fin (s : Bool) (m : F32Mag) :
    (F32.toBits (.fin s m)).toNat = (if s = true then 0x80000000 else 0) + m.val := by
  rw [F32.toBits, BitVec.toNat_ofNat, Nat.mod_eq_of_lt]
  split <;> omega

theorem toNat_toBits_inf (s : Bool) :
    (F32.toBits (.inf s)).toNat = (if s = true then 0x80000000 else 0) + 0x7F800000 := by
  cases s <;> rfl

theorem toNat_toBits_nan (s : Bool) (k : Fin 0x7FFFFF) :
    (F32.toBits (.nan s k)).toNat = (if s = true then 0x80000000 else 0) + (0x7F800001 + k.val) := by
  rw [F32.toBits, BitVec.toNat_ofNat, Nat.mod_eq_of_lt]
  · ring
  · split <;> omega

/-- Reading back the bits of a number gives the number (R10). -/
theorem ofBits_toBits (x : F32) : F32.ofBits (F32.toBits x) = x := by
  cases x with
  | nan s k =>
    obtain ⟨hs, hp⟩ := word_fields (by omega) (toNat_toBits_nan s k)
    unfold F32.ofBits
    rw [dif_neg (by omega), if_neg (by omega)]
    simp [hs, hp]
  | inf s =>
    obtain ⟨hs, hp⟩ := word_fields (by norm_num) (toNat_toBits_inf s)
    unfold F32.ofBits
    rw [dif_neg (by omega), if_pos hp, hs]
  | fin s m =>
    obtain ⟨hs, hp⟩ := word_fields (by omega) (toNat_toBits_fin s m)
    unfold F32.ofBits
    rw [dif_pos (by omega)]
    simp [hs, hp]

/-- Writing back the number of a word gives the word (R10). -/
theorem toBits_ofBits (w : Word) : F32.toBits (F32.ofBits w) = w := by
  apply BitVec.eq_of_toNat_eq
  rw [toNat_eq_fields w]
  unfold F32.ofBits
  split
  · exact toNat_toBits_fin _ _
  · split
    · next h => rw [toNat_toBits_inf, h]
    · rw [toNat_toBits_nan]
      dsimp only
      omega

/-- The exponent field `w[30:23]` (R10). -/
abbrev expoField (w : Word) : ℕ := w.toNat / 2 ^ 23 % 2 ^ 8

/-- The fraction field `w[22:0]` (R10). -/
abbrev fracField (w : Word) : ℕ := w.toNat % 2 ^ 23

/-- The exponent and the fraction are the 31 bits below the sign. -/
theorem mod_eq_expo_frac (w : Word) : w.toNat % 0x80000000 = expoField w * 2 ^ 23 + fracField w := by
  unfold expoField fracField
  omega

theorem expoField_lt (w : Word) : expoField w < 256 := Nat.mod_lt _ (by norm_num)

theorem fracField_lt (w : Word) : fracField w < 8388608 := Nat.mod_lt _ (by norm_num)

/-- A word is a finite number when its exponent field is below 255. -/
theorem ofBits_finite {w : Word} (h : expoField w ≠ 255) :
    ∃ m : F32Mag, F32.ofBits w = .fin w.msb m ∧ m.val = expoField w * 2 ^ 23 + fracField w := by
  have hm := mod_eq_expo_frac w
  have he := expoField_lt w
  have hf := fracField_lt w
  have hlt : w.toNat % 0x80000000 < 0x7F800000 := by omega
  exact ⟨⟨_, hlt⟩, dif_pos hlt, hm⟩

theorem ofBits_inf {w : Word} (he : expoField w = 255) (hf : fracField w = 0) :
    F32.ofBits w = .inf w.msb := by
  have hm := mod_eq_expo_frac w
  unfold F32.ofBits
  rw [dif_neg (by omega), if_pos (by omega)]

theorem ofBits_nan {w : Word} (he : expoField w = 255) (hf : fracField w ≠ 0) :
    ∃ k, F32.ofBits w = .nan w.msb k := by
  have hm := mod_eq_expo_frac w
  unfold F32.ofBits
  rw [dif_neg (by omega), if_neg (by omega)]
  exact ⟨_, rfl⟩

/-- Which kind of number a word is, by its exponent and fraction fields (R10). -/
theorem ofBits_kind (w : Word) :
    ((F32.ofBits w).isNaN = true ↔ expoField w = 255 ∧ fracField w ≠ 0) ∧
      ((F32.ofBits w).isFinite = true ↔ expoField w ≠ 255) := by
  by_cases he : expoField w = 255
  · by_cases hf : fracField w = 0
    · rw [ofBits_inf he hf]
      simp only [F32.isNaN, F32.isFinite, he, hf]
      tauto
    · obtain ⟨k, hk⟩ := ofBits_nan he hf
      rw [hk]
      simp only [F32.isNaN, F32.isFinite, he]
      tauto
  · obtain ⟨m, hm, -⟩ := ofBits_finite he
    rw [hm]
    simp only [F32.isNaN, F32.isFinite]
    tauto

theorem signed_msb (w : Word) (v : ℝ) :
    signed w.msb v = (if w.toNat / 2 ^ 31 = 1 then -1 else 1) * v := by
  have hw := w.isLt
  rw [signed_eq_mul, BitVec.msb_eq_decide]
  congr 1
  refine if_congr ?_ rfl rfl
  rw [decide_eq_true_iff]
  omega

/-- A subnormal number is its fraction in units of 2^-149 (R10). -/
theorem f32Real_subnormal {w : Word} (h : expoField w = 0) :
    f32Real (F32.ofBits w) = signed w.msb (fracField w / 2 ^ 149) := by
  obtain ⟨m, hm, hv⟩ := ofBits_finite (w := w) (by omega)
  have hf := fracField_lt w
  rw [h, zero_mul, zero_add] at hv
  rw [hm, f32Real_fin, magReal, hv]
  have := magUnits_binade (j := fracField w) (k := 0) (by omega) (.inl rfl)
  rw [zero_mul, zero_add, pow_zero, mul_one] at this
  rw [this]

/-- A normal number is its significand scaled by its exponent (R10). -/
theorem f32Real_normal {w : Word} (h0 : expoField w ≠ 0) (h255 : expoField w ≠ 255) :
    f32Real (F32.ofBits w) =
      signed w.msb ((1 + fracField w / 2 ^ 23) * (2 : ℝ) ^ ((expoField w : ℤ) - 127)) := by
  obtain ⟨m, hm, hv⟩ := ofBits_finite h255
  have hf := fracField_lt w
  rw [hm, f32Real_fin, magReal, hv]
  generalize fracField w = f at *
  obtain ⟨e, he⟩ : ∃ e, expoField w = e + 1 := ⟨expoField w - 1, by omega⟩
  rw [he] at hv ⊢
  have hunits := magUnits_binade (j := 2 ^ 23 + f) (k := e) (by omega) (.inr (by omega))
  rw [show (e + 1) * 2 ^ 23 + f = e * 2 ^ 23 + (2 ^ 23 + f) by ring, hunits]
  have hexp : (2 : ℝ) ^ (((e + 1 : ℕ) : ℤ) - 127) = 2 ^ e * (2 ^ 23 / 2 ^ 149) := by
    have : (((e + 1 : ℕ) : ℤ) - 127) = (e : ℤ) + (23 - 149) := by
      push_cast
      ring
    rw [this, zpow_add₀ two_ne_zero, zpow_sub₀ two_ne_zero]
    norm_cast
  rw [hexp, Nat.cast_mul, Nat.cast_pow, Nat.cast_add, Nat.cast_pow, Nat.cast_ofNat]
  congr 1
  field_simp

/-- Settles O56: a pattern and a number determine each other's sign and 31 lower bits. -/
theorem bitPatternsRoundTrip : Obligations.BitPatternsRoundTrip := by
  unfold Obligations.BitPatternsRoundTrip
  refine ⟨toBits_ofBits, ofBits_toBits, fun w => ?_⟩
  intro expo frac sign
  refine ⟨(ofBits_kind w).1, (ofBits_kind w).2, fun h => ?_, fun h0 h255 => ?_⟩
  · rw [f32Real_subnormal h, signed_msb, mul_div_assoc]
  · rw [f32Real_normal h0 h255, signed_msb, mul_assoc]

/-! ## The clamp -/

section Clamp
variable (elem : ElemFn → F32 → F32) {x lo : F32} {hi : Option F32}

theorem san_of_isNaN (h : x.isNaN = true) : san (N := f32With elem) x lo hi = lo := if_pos h

theorem san_of_lt (h : F32.lt x lo = true) : san (N := f32With elem) x lo hi = lo := by
  unfold san
  split
  · rfl
  · exact if_pos h

theorem san_of_gt {h : F32} (hn : x.isNaN = false) (hlo : F32.lt x lo = false)
    (hhi : F32.lt h x = true) : san (N := f32With elem) x lo (some h) = h := by
  exact (if_neg (ne_true_of_eq_false hn)).trans ((if_neg (ne_true_of_eq_false hlo)).trans (if_pos hhi))

theorem san_of_mem (hn : x.isNaN = false) (hlo : F32.lt x lo = false)
    (hhi : ∀ h, hi = some h → F32.lt h x = false) : san (N := f32With elem) x lo hi = x := by
  refine (if_neg (ne_true_of_eq_false hn)).trans ((if_neg (ne_true_of_eq_false hlo)).trans ?_)
  cases hi with
  | none => rfl
  | some h => exact if_neg (ne_true_of_eq_false (hhi h rfl))

end Clamp

theorem isNaN_of_isFinite {a : F32} (h : a.isFinite = true) : a.isNaN = false := by
  cases a with
  | nan => cases h
  | inf => cases h
  | fin => rfl

/-- A finite number lies strictly between the infinities. -/
theorem lt_inf_of_isFinite {a : F32} (h : a.isFinite = true) :
    F32.lt (.inf true) a = true ∧ F32.lt a (.inf false) = true := by
  cases a with
  | nan => cases h
  | inf => cases h
  | fin s m =>
    have hm : magUnits m < 1 <<< 277 := by
      have : magUnits 0x7F800000 = 1 <<< 277 := by decide
      rw [← this, magUnits_lt]
      exact m.isLt
    have hz : ((magUnits m : ℕ) : ℤ) < 1 <<< 277 := by exact_mod_cast hm
    constructor <;> simp only [F32.lt, F32.isNaN, F32.place, signedUnits, Bool.not_false, Bool.true_and,
      decide_eq_true_iff, if_true, Bool.false_eq_true, if_false] <;> split <;> omega

theorem lt_trans_le {a b c : F32} (h1 : F32.lt a b = true) (h2 : F32.le b c = true) :
    F32.lt a c = true := by
  simp only [F32.lt, F32.le, Bool.and_eq_true, Bool.not_eq_true', decide_eq_true_iff] at *
  obtain ⟨⟨ha, -⟩, hab⟩ := h1
  obtain ⟨⟨-, hc⟩, hbc⟩ := h2
  exact ⟨⟨ha, hc⟩, by omega⟩

theorem lt_asymm_f32 {a b : F32} (h : F32.lt a b = true) : F32.lt b a = false := by
  simp only [F32.lt, Bool.and_eq_true, Bool.not_eq_true', decide_eq_true_iff] at h
  simp only [F32.lt, Bool.and_eq_false_iff, decide_eq_false_iff_not]
  exact .inr (by omega)

theorem le_of_lt_eq_false {a b : F32} (ha : a.isNaN = false) (hb : b.isNaN = false)
    (h : F32.lt a b = false) : F32.le b a = true := by
  rw [F32.lt_eq_not_le a b ha hb] at h
  simpa using h

theorem le_refl_f32 {a : F32} (ha : a.isNaN = false) : F32.le a a = true :=
  le_of_lt_eq_false ha ha (by simp [F32.lt])

/-- An infinity that is not below a finite number is the positive one. -/
theorem eq_inf_of_not_lt {x lo : F32} (hlo : lo.isFinite = true) (hn : x.isNaN = false)
    (hx : x.isFinite = false) (h : F32.lt x lo = false) : x = .inf false := by
  cases x with
  | nan => cases hn
  | fin => cases hx
  | inf s =>
    cases s
    · rfl
    · rw [(lt_inf_of_isFinite hlo).1] at h
      cases h

/-- What R14 promises of the clamp's answer `r` to `x`: it lies between the ends, is no NaN, and is
infinite only for `+Inf` with no upper end. -/
structure ClampAnswer (lo : F32) (hi : Option F32) (x r : F32) : Prop where
  notNaN : r.isNaN = false
  infinite : r.isFinite = false → hi = none ∧ x = .inf false
  low : F32.le lo r = true
  high : ∀ h, hi = some h → F32.le r h = true

/-- A finite number between the ends is such an answer, to any operand. -/
theorem ClampAnswer.of_finite {lo r : F32} {hi : Option F32} (x : F32) (hr : r.isFinite = true)
    (hlow : F32.le lo r = true) (hhigh : ∀ h, hi = some h → F32.le r h = true) :
    ClampAnswer lo hi x r :=
  ⟨isNaN_of_isFinite hr, fun hc => absurd hr (ne_true_of_eq_false hc), hlow, hhigh⟩

/-- So is an operand that is neither a NaN, nor below the low end, nor above the high one. -/
theorem ClampAnswer.of_mem {lo x : F32} {hi : Option F32} (hlo : lo.isFinite = true)
    (hhi : ∀ h, hi = some h → h.isFinite = true) (hn : x.isNaN = false) (hl : F32.lt x lo = false)
    (hin : ∀ h, hi = some h → F32.lt h x = false) : ClampAnswer lo hi x x where
  notNaN := hn
  infinite hx := by
    have hinf := eq_inf_of_not_lt hlo hn hx hl
    refine ⟨?_, hinf⟩
    cases hi with
    | none => rfl
    | some h =>
      have := hin h rfl
      rw [hinf, (lt_inf_of_isFinite (hhi h rfl)).2] at this
      cases this
  low := le_of_lt_eq_false hn (isNaN_of_isFinite hlo) hl
  high h he := le_of_lt_eq_false (isNaN_of_isFinite (hhi h he)) hn (hin h he)

/-- The clamp's answer between finite ends in order (R14). -/
theorem san_clampAnswer (elem : ElemFn → F32 → F32) {x lo : F32} {hi : Option F32}
    (hlo : lo.isFinite = true) (hhi : ∀ h, hi = some h → h.isFinite = true ∧ F32.le lo h = true) :
    ClampAnswer lo hi x (san (N := f32With elem) x lo hi) := by
  have hlow : ClampAnswer lo hi x lo :=
    .of_finite x hlo (le_refl_f32 (isNaN_of_isFinite hlo)) fun h hh => (hhi h hh).2
  cases hn : x.isNaN with
  | true => rwa [san_of_isNaN elem hn]
  | false =>
    cases hl : F32.lt x lo with
    | true => rwa [san_of_lt elem hl]
    | false =>
      by_cases hh : ∃ h, hi = some h ∧ F32.lt h x = true
      · obtain ⟨h, rfl, hlt⟩ := hh
        obtain ⟨hfin, hle⟩ := hhi h rfl
        rw [san_of_gt elem hn hl hlt]
        refine .of_finite x hfin hle ?_
        rintro _ ⟨⟩
        exact le_refl_f32 (isNaN_of_isFinite hfin)
      · have hin : ∀ h, hi = some h → F32.lt h x = false := fun h he =>
          Bool.eq_false_iff.mpr fun hc => hh ⟨h, he, hc⟩
        rw [san_of_mem elem hn hl hin]
        exact .of_mem hlo (fun h he => (hhi h he).1) hn hl hin

/-- What lies above the high end is no NaN and not below the low one. -/
theorem not_lt_lo_of_gt {x lo h : F32} (hle : F32.le lo h = true) (hlt : F32.lt h x = true) :
    x.isNaN = false ∧ F32.lt x lo = false := by
  constructor
  · cases x with
    | nan => simp at hlt
    | inf => rfl
    | fin => rfl
  · by_contra hc
    rw [Bool.not_eq_false] at hc
    rw [lt_asymm_f32 (lt_trans_le hc hle)] at hlt
    cases hlt

/-- Settles O17: `x` is a NaN, below `lo`, above `hi`, or within the two. -/
theorem sanClampsAndNeverAnswersNaN : Obligations.SanClampsAndNeverAnswersNaN := by
  unfold Obligations.SanClampsAndNeverAnswersNaN
  intro elem x lo hi hlo hhi
  obtain ⟨hnan, hinf, hlow, hhigh⟩ := san_clampAnswer elem (x := x) hlo hhi
  refine ⟨san_of_isNaN elem, san_of_lt elem, ?_, san_of_mem elem, hnan, hinf, hlow, hhigh⟩
  rintro h rfl hlt
  obtain ⟨hn, hl⟩ := not_lt_lo_of_gt (hhi h rfl).2 hlt
  exact san_of_gt elem hn hl hlt

end Sys2Proof.Machine
end

section
/-! The step on a command word, and what a command does to the allocator and to the response: both are
functions of the configuration, the allocator and the command alone (R5, R173). -/

namespace Sys2Proof.Machine

/-! ## The step -/

/-- The command a word stands for; a reserved opcode acts as NOP (R87). -/
def commandOf (w : CmdWord) : Instr :=
  match decode w with
  | .ok i => i
  | .error _ => .nop

theorem commandOf_of_ok {w : CmdWord} {i : Instr} (h : decode w = .ok i) : commandOf w = i := by
  simp [commandOf, h]

theorem commandOf_of_error {w : CmdWord} {e : DecodeReject} (h : decode w = .error e) :
    commandOf w = .nop := by
  simp [commandOf, h]

/-- A step of a ready block runs the command of the next word on the state with the word accepted. -/
theorem step_eq_exec {s : State} {w : CmdWord} {rest : List CmdWord} (hs : s.ready)
    (hp : s.pending = w :: rest) : step s = exec (commandOf w) (s.accept rest) := by
  obtain ⟨hrst, hready⟩ := hs
  cases hd : decode w with
  | ok i => simp [step, hrst, hready, hp, hd, commandOf_of_ok hd]
  | error e => simp [step, hrst, hready, hp, hd, commandOf_of_error hd, exec, execNop]

/-- Settles O3: `step` on a ready block with a word that decodes. -/
theorem stepRunsDecodedCommand : Obligations.StepRunsDecodedCommand := by
  unfold Obligations.StepRunsDecodedCommand
  intro s w rest i hs hp hd
  rw [step_eq_exec hs hp, commandOf_of_ok hd]
  rfl

/-! ## Opcodes -/

/-- The word under the mask of Table 30-2 is the field `op` above 56 zeros. -/
theorem opBits_eq (w : CmdWord) : opBits w = opField w ++ 0#56 := by
  have hw : opField w ++ w.extractLsb' 0 56 = w := BitVec.extractLsb'_append_extractLsb'
  have hmask : 0xFF00000000000000#64 = BitVec.allOnes 8 ++ 0#56 := by decide
  calc opBits w = (opField w ++ w.extractLsb' 0 56) &&& (BitVec.allOnes 8 ++ 0#56) := by
        rw [hw, ← hmask, opBits]
    _ = opField w ++ 0#56 := by rw [BitVec.and_append, BitVec.and_allOnes, BitVec.and_zero]

/-- TICK is the command of opcode 0x04, and of no other (Table 30-2). -/
theorem commandOf_eq_tick {w : CmdWord} : commandOf w = .tick ↔ opBits w = 0x0400000000000000#64 := by
  have h4 : 0x0400000000000000#64 = 4#8 ++ 0#56 := by decide
  rw [h4, opBits_eq, BitVec.append_left_inj, ← BitVec.toNat_inj]
  unfold commandOf decode
  split
  · next i h =>
    split at h <;> cases h <;> simp_all
  · next e h =>
    split at h <;> cases h
    simpa using ‹_›

/-! ## The control agent's view of a command -/

/-- The allocator after a command (R170, R171, R206). -/
def nextAlloc (c : Cfg) (a : Alloc) : Instr → Alloc
  | .noteOn n _ => (allocNoteOn a n).2
  | .noteOff n => (allocNoteOff a n).2
  | .init => Alloc.resetOf c
  | .nop | .setp _ _ | .tick => a

/-- The response a command raises, if it raises one (R201, R202). -/
def response (a : Alloc) : Instr → Option RespWord
  | .noteOn n _ => some (noteOnResponse (allocNoteOn a n).1.2 (allocNoteOn a n).1.1)
  | .noteOff n => some (noteOffResponse (allocNoteOff a n).1)
  | .nop | .setp _ _ | .tick | .init => none

/-- What a command does as the control agent sees it, from a state without a pulse: the allocator and
the response follow `nextAlloc` and `response`, and a TICK alone raises a sample. -/
structure ControlEffect (s t : State) (i : Instr) : Prop where
  cfg : t.cfg = s.cfg
  ready : s.ready → t.ready
  alloc : t.alloc = nextAlloc s.cfg s.alloc i
  response : t.observed.2 = response s.alloc i
  sample : t.observed.1.isSome = true ↔ i = .tick

theorem exec_controlEffect (i : Instr) (s : State) (ho : s.outValid = false) (hr : s.respValid = false) :
    ∃ t, exec i s = .next t ∧ ControlEffect s t i := by
  cases i with
  | nop => exact ⟨_, rfl, ⟨rfl, id, rfl, by simp [State.observed, hr, response],
      by simp [State.observed, ho]⟩⟩
  | noteOn n v => exact ⟨_, rfl, ⟨rfl, id, rfl, rfl, by simp [State.observed, ho]⟩⟩
  | noteOff n =>
    simp only [exec, execNoteOff]
    cases hn : slotHolding s.alloc.slots n with
    | none =>
      have ha : allocNoteOff s.alloc n = (none, s.alloc) := by simp [allocNoteOff, hn]
      rw [ha]
      exact ⟨_, rfl, ⟨rfl, id, by simp [nextAlloc, ha], by simp [State.observed, response, ha],
        by simp [State.observed, ho]⟩⟩
    | some k =>
      obtain ⟨a, ha⟩ : ∃ a, allocNoteOff s.alloc n = (some k, a) := by simp [allocNoteOff, hn]
      rw [ha]
      exact ⟨_, rfl, ⟨rfl, id, by simp [nextAlloc, ha], by simp [State.observed, response, ha],
        by simp [State.observed, ho]⟩⟩
  | setp a v => exact ⟨_, rfl, ⟨rfl, id, rfl, by simp [State.observed, hr, response],
      by simp [State.observed, ho]⟩⟩
  | tick => exact ⟨_, rfl, ⟨rfl, id, rfl, by simp [State.observed, hr, response],
      by simp [State.observed]⟩⟩
  | init => exact ⟨_, rfl, ⟨rfl, id, rfl, by simp [State.observed, hr, response],
      by simp [State.observed, ho]⟩⟩

/-! ## Programs -/

/-- The responses to a list of commands, from the allocator alone. -/
def responses (c : Cfg) : Alloc → List Instr → List RespWord
  | _, [] => []
  | a, i :: is => (response a i).toList ++ responses c (nextAlloc c a i) is

/-- A program runs its first command, then the rest from the state that leaves. -/
theorem runProgram_cons {s : State} (hs : s.ready) (w : CmdWord) (ws : List CmdWord) :
    ∃ t, ControlEffect s t (commandOf w) ∧
      (runProgram s (w :: ws)).2 = t.observed :: (runProgram t ws).2 := by
  have hstep := step_eq_exec (s := { s with pending := w :: ws }) (rest := ws) hs rfl
  obtain ⟨t, ht, heff⟩ :=
    exec_controlEffect (commandOf w) (State.accept { s with pending := w :: ws } ws) rfl rfl
  rw [ht] at hstep
  refine ⟨t, ⟨heff.cfg, heff.ready, heff.alloc, heff.response, heff.sample⟩, ?_⟩
  simp [runProgram, hstep]

/-- The responses of a program follow from the allocator it starts with. -/
theorem runProgram_responses {s : State} (hs : s.ready) (ws : List CmdWord) :
    (runProgram s ws).2.filterMap (·.2) = responses s.cfg s.alloc (ws.map commandOf) := by
  induction ws generalizing s with
  | nil => rfl
  | cons w ws ih =>
    obtain ⟨t, heff, hrun⟩ := runProgram_cons hs w ws
    have ht := ih (heff.ready hs)
    rw [heff.cfg, heff.alloc] at ht
    rw [hrun, List.filterMap_cons, heff.response, ht, List.map_cons, responses]
    cases response s.alloc (commandOf w) <;> rfl

/-- A program raises one sample per TICK (R204). -/
theorem runProgram_samples {s : State} (hs : s.ready) (ws : List CmdWord) :
    ((runProgram s ws).2.filterMap (·.1)).length = (ws.map commandOf).count .tick := by
  induction ws generalizing s with
  | nil => rfl
  | cons w ws ih =>
    obtain ⟨t, heff, hrun⟩ := runProgram_cons hs w ws
    have ht := ih (heff.ready hs)
    have hsample := heff.sample
    rw [hrun, List.filterMap_cons, List.map_cons, List.count_cons]
    cases ho : t.observed.1 with
    | none =>
      have hne : commandOf w ≠ .tick := fun h => by simp [ho, h] at hsample
      simp [ht, hne]
    | some y =>
      have heq : commandOf w = .tick := hsample.mp (by simp [ho])
      simp [ht, heq]

/-- A TICK among the commands changes none of their responses (R5, R173). -/
theorem responses_interleaves (c : Cfg) {audio control merged : List Instr}
    (h : Interleaves audio control merged) (haudio : ∀ i ∈ audio, i = .tick) (a : Alloc) :
    responses c a merged = responses c a control := by
  induction h generalizing a with
  | done => rfl
  | audio x _ ih =>
    obtain ⟨rfl, hrest⟩ := List.forall_mem_cons.mp haudio
    exact ih hrest a
  | control y _ ih => simp only [responses, ih haudio]

/-- The TICKs of an interleaving are those of the audio agent. -/
theorem count_tick_interleaves {audio control merged : List Instr}
    (h : Interleaves audio control merged) (haudio : ∀ i ∈ audio, i = .tick)
    (hcontrol : ∀ i ∈ control, i ≠ .tick) : merged.count .tick = audio.length := by
  induction h with
  | done => rfl
  | audio x _ ih =>
    obtain ⟨rfl, hrest⟩ := List.forall_mem_cons.mp haudio
    rw [List.count_cons_self, ih hrest hcontrol, List.length_cons]
  | control y _ ih =>
    obtain ⟨hy, hrest⟩ := List.forall_mem_cons.mp hcontrol
    rw [List.count_cons_of_ne hy, ih haudio hrest]

theorem Interleaves.map {β γ : Type} (f : β → γ) {xs ys zs : List β} (h : Interleaves xs ys zs) :
    Interleaves (xs.map f) (ys.map f) (zs.map f) := by
  induction h with
  | done => exact .done
  | audio x _ ih => exact .audio _ ih
  | control y _ ih => exact .control _ ih

/-- Settles O32: responses are a function of the allocator, which a TICK keeps. -/
theorem responsesIgnoreInterleaving : Obligations.ResponsesIgnoreInterleaving := by
  unfold Obligations.ResponsesIgnoreInterleaving
  intro s audio control merged hs haudio hcontrol h
  have hticks : ∀ i ∈ audio.map commandOf, i = .tick :=
    List.forall_mem_map.mpr fun w hw => commandOf_eq_tick.mpr (haudio w hw)
  have hothers : ∀ i ∈ control.map commandOf, i ≠ .tick :=
    List.forall_mem_map.mpr fun w hw ht => hcontrol w hw (commandOf_eq_tick.mp ht)
  have hmap := h.map commandOf
  rw [runProgram_responses hs, runProgram_responses hs, runProgram_samples hs,
    responses_interleaves _ hmap hticks, count_tick_interleaves hmap hticks hothers, List.length_map]
  exact ⟨rfl, rfl⟩

end Sys2Proof.Machine
end

section
/-! What lies between two numbers that round alike rounds as they do, so an enclosure whose ends round
alike settles the rounding of what it holds; and the search over the midpoints finds the rounding of a
number that is none of them (R11, log 4). -/

namespace Sys2Proof.Machine

/-! ## Enclosures -/

/-- `r` is no further from `v` than `x`, without absolute values; the right side is linear in `v`. -/
theorem abs_sub_le_abs_sub_iff (r x v : ℝ) :
    |r - v| ≤ |x - v| ↔ (r - x) * (r + x - 2 * v) ≤ 0 := by
  rw [← sq_le_sq, ← sub_nonpos]
  ring_nf

/-- What a number is nearest to at both ends of an interval it is nearest to within. -/
theorem nearestTo_between {lo v hi : ℝ} {r : F32} (h1 : lo ≤ v) (h2 : v ≤ hi)
    (hlo : nearestTo lo r) (hhi : nearestTo hi r) : nearestTo v r := by
  obtain ⟨neg, mag, rfl, hnlo, htlo⟩ := hlo
  obtain ⟨neg', mag', heq, hnhi, hthi⟩ := hhi
  cases heq
  refine ⟨neg, mag, rfl, fun x hx => ?_, ?_⟩
  · have ha := (abs_sub_le_abs_sub_iff _ _ _).mp (hnlo x hx)
    have hb := (abs_sub_le_abs_sub_iff _ _ _).mp (hnhi x hx)
    rw [abs_sub_le_abs_sub_iff]
    rcases le_total (f32Real x) (f32Real (.fin neg mag)) with hc | hc <;> nlinarith
  · rintro ⟨x, hx, hne, htie⟩
    have hsum : f32Real x + f32Real (.fin neg mag) = 2 * v := by
      rcases abs_eq_abs.mp htie with h | h
      · exact absurd (by linarith) hne
      · linarith
    have ha := (abs_sub_le_abs_sub_iff _ _ _).mp (hnlo x hx)
    have hb := (abs_sub_le_abs_sub_iff _ _ _).mp (hnhi x hx)
    rcases lt_or_gt_of_ne hne with hc | hc
    · have : lo = v := by nlinarith
      exact htlo ⟨x, hx, hne, this ▸ htie⟩
    · have : hi = v := by nlinarith
      exact hthi ⟨x, hx, hne, this ▸ htie⟩

/-- What lies between two numbers that round alike rounds as they do. -/
theorem roundedFrom_between {lo v hi : ℝ} {r : F32} (h1 : lo ≤ v) (h2 : v ≤ hi)
    (hlo : roundedFrom lo r) (hhi : roundedFrom hi r) : roundedFrom v r := by
  rcases hlo with ⟨ha, hn⟩ | ⟨ha, hr⟩ | ⟨-, hr⟩
  · rcases hhi with ⟨hb, hn'⟩ | ⟨-, hr'⟩ | ⟨hb, hr'⟩
    · refine .inl ⟨abs_lt.mpr ⟨?_, ?_⟩, nearestTo_between h1 h2 hn hn'⟩
      · linarith [(abs_lt.mp ha).1]
      · linarith [(abs_lt.mp hb).2]
    · obtain ⟨neg, mag, hf, -⟩ := hn
      rw [hf] at hr'
      cases hr'
    · exact .inr (.inr ⟨h2.trans hb, hr'⟩)
  · exact .inr (.inl ⟨ha.trans h1, hr⟩)
  · rcases hhi with ⟨-, neg, mag, hf, -⟩ | ⟨-, hr'⟩ | ⟨hb, hr'⟩
    · rw [hf] at hr
      cases hr
    · rw [hr'] at hr
      cases hr
    · exact .inr (.inr ⟨h2.trans hb, hr'⟩)

/-- An enclosure that settles the rounding of what it holds settles it right. -/
theorem roundedFrom_of_settled {e : Enclosure} {v : ℝ} (h : Enclosure.holds e v) {neg : Bool} {r : F32}
    (hr : e.settled neg = some r) : roundedFrom (signed neg v) r := by
  obtain ⟨hlod, hhid, hlo, hhi⟩ := h
  unfold Enclosure.settled at hr
  simp only [Option.ite_none_right_eq_some, Option.some.injEq] at hr
  obtain ⟨heq, rfl⟩ := hr
  have hp : (0 : ℝ) < 2 ^ 149 := by positivity
  have hrlo := roundedFrom_round neg e.loNum hlod
  have hrhi := roundedFrom_round neg e.hiNum hhid
  rw [← heq] at hrhi
  rw [← div_le_iff₀ hp] at hlo
  rw [← le_div_iff₀ hp] at hhi
  cases neg with
  | false => exact roundedFrom_between hlo hhi hrlo hrhi
  | true => exact roundedFrom_between (neg_le_neg hhi) (neg_le_neg hlo) hrhi hrlo

/-- The first answer is the answer at one of the precisions. -/
theorem exists_of_firstSettled {f : ℕ → Option F32} {ps : List ℕ} {r : F32}
    (h : firstSettled f ps = some r) : ∃ p ∈ ps, f p = some r := by
  induction ps with
  | nil => cases h
  | cons p ps ih =>
    rw [firstSettled] at h
    split at h
    · next x hx =>
      cases h
      exact ⟨p, List.mem_cons_self, hx⟩
    · obtain ⟨q, hq, hr⟩ := ih h
      exact ⟨q, List.mem_cons_of_mem _ hq, hr⟩

/-! ## The exact comparison -/

/-- The search over the midpoints finds the magnitude a number rounds to that is no midpoint. -/
theorem largestBelow_roundsTo {above : ℕ → Bool} {v : ℝ}
    (h : ∀ t : ℕ, above t = true ↔ (t : ℝ) / 2 ^ 150 < v) (hv : 0 ≤ v) (hne : ∀ j, v ≠ midReal j) :
    RoundsTo v (largestBelow above 31 0) := by
  have hmono : ∀ t t', t ≤ t' → above t' = true → above t = true := fun t t' htt ha => by
    rw [h] at ha ⊢
    refine lt_of_le_of_lt ?_ ha
    gcongr
  obtain ⟨-, hlo, hhi⟩ := largestBelow_spec above hmono 31 0 (by norm_num) (.inl rfl)
    fun j hj hle => absurd (hj.trans hle) (by norm_num)
  refine ⟨?_, fun hr => ?_, fun _ htie => htie.elim (absurd · (hne _)) (absurd · (hne _))⟩
  · rcases hlo with h0 | ha
    · rw [h0]
      simpa [midReal, midpoint] using hv
    · exact ((h _).mp ha).le
  · have := hhi _ (Nat.lt_succ_self _) hr
    rw [← Bool.not_eq_true, h, not_lt] at this
    exact this

/-- The binary32 found by the exact comparison is the value rounded once. -/
theorem roundedFrom_roundAbove {above : ℕ → Bool} {v : ℝ}
    (h : ∀ t : ℕ, above t = true ↔ (t : ℝ) / 2 ^ 150 < v) (hv : 0 ≤ v) (hne : ∀ j, v ≠ midReal j)
    (neg : Bool) : roundedFrom (signed neg v) (roundAbove neg above) :=
  (largestBelow_roundsTo h hv hne).roundedFrom neg

/-- A midpoint is a fraction. -/
theorem midReal_eq_rat (j : ℕ) : midReal j = ((halfUnitsRat (midpoint j) : ℚ) : ℝ) := by
  simp [midReal, halfUnitsRat]

theorem halfUnitsRat_cast (t : ℕ) : ((halfUnitsRat t : ℚ) : ℝ) = (t : ℝ) / 2 ^ 150 := by
  simp [halfUnitsRat]

/-- A number past the range of the format. -/
theorem roundedFrom_inf {v : ℝ} (h : overflowBound ≤ v) : roundedFrom v (.inf false) :=
  .inr (.inl ⟨h, rfl⟩)

/-- A number not above half the smallest one of the format. -/
theorem roundedFrom_tiny {v : ℝ} (h0 : 0 ≤ v) (h : v ≤ 1 / 2 ^ 150) : roundedFrom v .zero := by
  have hr : RoundsTo v 0 := by
    refine ⟨by simpa [midReal, midpoint] using h0, fun _ => ?_, fun _ _ => rfl⟩
    have : midpoint (0 + 1) = 1 := by decide
    rw [midReal, this, Nat.cast_one]
    exact h
  exact hr.roundedFrom false

/-! ## The real operand -/

theorem f32Real_eq_unitsRat (s : Bool) (m : F32Mag) :
    f32Real (.fin s m) = ((unitsRat (signedUnits s m) : ℚ) : ℝ) := by
  simp [f32Real, unitsRat]

theorem magReal_eq_unitsRat (m : ℕ) : magReal m = ((unitsRat (magUnits m) : ℚ) : ℝ) := by
  simp [magReal, unitsRat]

theorem unitsRat_ne_zero {n : ℤ} (h : n ≠ 0) : unitsRat n ≠ 0 := by
  unfold unitsRat
  have : (n : ℚ) ≠ 0 := by exact_mod_cast h
  positivity

/-- The reference function is the answer of the fixed precisions, or the exact comparison's. -/
theorem roundedFrom_refElemOf {f : ElemFn} {s : Bool} {m : F32Mag} {v : ℝ}
    (hsome : ∀ r, refElem f s m = some r → roundedFrom v r)
    (hnone : refElem f s m = none → roundedFrom v (exactElem f s m)) :
    roundedFrom v (elemApply .reference f (.fin s m)) := by
  change roundedFrom v ((refElem f s m).getD (exactElem f s m))
  cases h : refElem f s m with
  | none => exact hnone h
  | some r => exact hsome r h

end Sys2Proof.Machine
end

section
/-! Interval arithmetic in whole numbers: each operation of `Ivl` holds the result of the operation on
what its operands hold (log 4). -/

namespace Sys2Proof

/-- The interval holds `v`, at a precision of `p` bits. -/
def Ivl.has (p : ℕ) (a : Ivl) (v : ℝ) : Prop := (a.lo : ℝ) ≤ v * 2 ^ p ∧ v * 2 ^ p ≤ a.hi

/-- A quotient of whole numbers is rounded down, by less than 1. -/
theorem natDiv_le_of_le_mul {n d : ℕ} {v : ℝ} (hd : 0 < d) (h : (n : ℝ) ≤ v * d) :
    ((n / d : ℕ) : ℝ) ≤ v :=
  Nat.cast_div_le.trans ((div_le_iff₀ (by exact_mod_cast hd)).mpr h)

theorem le_natDiv_add_one_of_mul_le {n d : ℕ} {v : ℝ} (hd : 0 < d) (h : v * d ≤ n) :
    v ≤ ((n / d : ℕ) : ℝ) + 1 := by
  have hlt : (n : ℝ) < ((n / d + 1 : ℕ) : ℝ) * d := by
    exact_mod_cast Nat.lt_mul_of_div_lt (Nat.lt_succ_self (n / d)) hd
  have hd' : (0 : ℝ) < d := by exact_mod_cast hd
  push_cast at hlt
  exact (lt_of_mul_lt_mul_right (h.trans_lt hlt) hd'.le).le

namespace Ivl
variable {p : ℕ} {a b : Ivl} {u v : ℝ}

theorem has.nonneg (h : a.has p v) : 0 ≤ v := by
  have h1 : (0 : ℝ) ≤ v * 2 ^ p := (Nat.cast_nonneg _).trans h.1
  exact nonneg_of_mul_nonneg_left h1 (by positivity)

theorem has.hi_pos (h : a.has p v) (hv : 0 < v) : 0 < a.hi := by
  have : (0 : ℝ) < a.hi := lt_of_lt_of_le (by positivity) h.2
  exact_mod_cast this

theorem has.add (ha : a.has p u) (hb : b.has p v) : (a.add b).has p (u + v) := by
  obtain ⟨ha1, ha2⟩ := ha
  obtain ⟨hb1, hb2⟩ := hb
  constructor <;> simp only [Ivl.add, Nat.cast_add] <;> linarith

theorem has_one : (Ivl.one p).has p 1 := by
  simp [Ivl.has, Ivl.one, Nat.one_shiftLeft]

theorem has_zero : (⟨0, 0⟩ : Ivl).has p 0 := by simp [Ivl.has]

theorem has.mul (ha : a.has p u) (hb : b.has p v) : (Ivl.mul p a b).has p (u * v) := by
  have hu := ha.nonneg
  have hv := hb.nonneg
  obtain ⟨ha1, ha2⟩ := ha
  obtain ⟨hb1, hb2⟩ := hb
  simp only [Ivl.has, Ivl.mul, Nat.shiftRight_eq_div_pow]
  push_cast [Nat.cast_add]
  constructor
  · refine natDiv_le_of_le_mul (by positivity) ?_
    push_cast
    calc (a.lo : ℝ) * b.lo ≤ (u * 2 ^ p) * (v * 2 ^ p) := by gcongr
      _ = u * v * 2 ^ p * 2 ^ p := by ring
  · refine le_natDiv_add_one_of_mul_le (by positivity) ?_
    push_cast
    calc u * v * 2 ^ p * 2 ^ p = (u * 2 ^ p) * (v * 2 ^ p) := by ring
      _ ≤ (a.hi : ℝ) * b.hi := by gcongr

theorem has.divNat (ha : a.has p u) {k : ℕ} (hk : 0 < k) : (a.divNat k).has p (u / k) := by
  obtain ⟨ha1, ha2⟩ := ha
  have hk' : (k : ℝ) ≠ 0 := by exact_mod_cast hk.ne'
  have hval : u / k * 2 ^ p * k = u * 2 ^ p := by field_simp
  simp only [Ivl.has, Ivl.divNat, Nat.cast_add, Nat.cast_one]
  exact ⟨natDiv_le_of_le_mul hk (by rw [hval]; exact ha1),
    le_natDiv_add_one_of_mul_le hk (by rw [hval]; exact ha2)⟩

theorem has.shiftRight (ha : a.has p u) (j : ℕ) : (a.shiftRight j).has p (u / 2 ^ j) := by
  have h := ha.divNat (k := 2 ^ j) (by positivity)
  simpa only [Ivl.divNat, Ivl.shiftRight, Nat.shiftRight_eq_div_pow, Nat.cast_pow, Nat.cast_ofNat] using h

/-- Moved to a smaller precision. -/
theorem has.lower {j : ℕ} (ha : a.has (p + j) u) : (a.shiftRight j).has p u := by
  have h : (a.shiftRight j).has (p + j) (u / 2 ^ j) := ha.shiftRight j
  have hval : u / 2 ^ j * 2 ^ (p + j) = u * 2 ^ p := by
    rw [pow_add]
    field_simp
  unfold Ivl.has at *
  rwa [hval] at h

end Ivl

theorem unitsIvl_has (p x : ℕ) : (unitsIvl p x).has p ((x : ℝ) / 2 ^ 149) := by
  have hval : (x : ℝ) / 2 ^ 149 * 2 ^ p * ((2 ^ 149 : ℕ) : ℝ) = ((x * 2 ^ p : ℕ) : ℝ) := by
    rw [Nat.cast_mul, Nat.cast_pow, Nat.cast_pow, Nat.cast_ofNat]
    have : (2 : ℝ) ^ 149 ≠ 0 := by positivity
    generalize (2 : ℝ) ^ 149 = y at *
    field_simp
  simp only [Ivl.has, unitsIvl, Nat.shiftRight_eq_div_pow, Nat.shiftLeft_eq, Nat.cast_add, Nat.cast_one]
  exact ⟨natDiv_le_of_le_mul (by positivity) hval.ge,
    le_natDiv_add_one_of_mul_le (by positivity) hval.le⟩

end Sys2Proof
end

section
/-! The enclosures of `exp`, of the logarithm of 2 and of `exp2` hold the real values (R11). -/

namespace Sys2Proof

/-! ## exp -/

/-- The first `n` terms of the series of `exp`. -/
noncomputable def expSum (x : ℝ) (n : ℕ) : ℝ := ∑ i ∈ Finset.range n, x ^ i / i.factorial

theorem expSum_succ (x : ℝ) (n : ℕ) : expSum x (n + 1) = expSum x n + x ^ n / n.factorial :=
  Finset.sum_range_succ ..

/-- The rest of the series is at most twice the first term left out. -/
theorem exp_le_expSum_add {x : ℝ} (h0 : 0 ≤ x) (h1 : x ≤ 1) {n : ℕ} (hn : 0 < n) :
    Real.exp x ≤ expSum x n + 2 * (x ^ n / n.factorial) := by
  refine (Real.exp_bound' h0 h1 hn).trans (add_le_add_right ?_ _)
  have hn' : (1 : ℝ) ≤ n := by exact_mod_cast hn
  have hf : (0 : ℝ) < n.factorial := by positivity
  calc x ^ n * (n + 1) / (n.factorial * n) = x ^ n / n.factorial * ((n + 1) / n) := by
        field_simp
    _ ≤ x ^ n / n.factorial * 2 := by
        gcongr
        rw [div_le_iff₀ (by positivity)]
        linarith
    _ = 2 * (x ^ n / n.factorial) := mul_comm _ _

/-- The next term of the series from the one before. -/
theorem Ivl.has.nextTerm {p : ℕ} {t r : Ivl} {x : ℝ} {k : ℕ} (ht : t.has p (x ^ k / k.factorial))
    (hr : r.has p x) :
    ((Ivl.mul p t r).divNat (k + 1)).has p (x ^ (k + 1) / (k + 1).factorial) := by
  have h := (ht.mul hr).divNat (k := k + 1) (by omega)
  have hval : x ^ k / k.factorial * x / ((k + 1 : ℕ) : ℝ) = x ^ (k + 1) / (k + 1).factorial := by
    rw [Nat.factorial_succ, pow_succ]
    push_cast
    field_simp
  rwa [hval] at h

/-- `expTerms` continues a partial sum to the sum. -/
theorem expTerms_has {p : ℕ} {r : Ivl} {x : ℝ} (hr : r.has p x) (h1 : x ≤ 1) (n : ℕ) :
    ∀ (k : ℕ) (t acc : Ivl), 0 < k + n → t.has p (x ^ k / k.factorial) → acc.has p (expSum x k) →
      (expTerms p r n k t acc).has p (Real.exp x) := by
  have h0 := hr.nonneg
  induction n with
  | zero =>
    rintro k t acc hk ⟨-, ht⟩ ⟨hlo, hhi⟩
    rw [add_zero] at hk
    have hp : (0 : ℝ) < 2 ^ p := by positivity
    constructor
    · exact hlo.trans (mul_le_mul_of_nonneg_right (Real.sum_le_exp_of_nonneg h0 k) hp.le)
    · have := mul_le_mul_of_nonneg_right (exp_le_expSum_add h0 h1 hk) hp.le
      simp only [expTerms]
      push_cast
      linarith
  | succ n ih =>
    intro k t acc hk ht hacc
    refine ih (k + 1) _ _ (by omega) (ht.nextTerm hr) ?_
    rw [expSum_succ]
    exact hacc.add ht

theorem expTerms_lo_ge (p : ℕ) (r : Ivl) (n : ℕ) :
    ∀ (k : ℕ) (t acc : Ivl), acc.lo ≤ (expTerms p r n k t acc).lo := by
  induction n with
  | zero => exact fun _ _ _ => le_rfl
  | succ n ih => exact fun k t acc => (Nat.le_add_right _ _).trans (ih _ _ (acc.add t))

theorem expUnit_has {p : ℕ} {r : Ivl} {x : ℝ} (hr : r.has p x) (h1 : x ≤ 1) :
    (expUnit p r).has p (Real.exp x) :=
  expTerms_has hr h1 _ 0 _ _ (by omega) (by simpa using Ivl.has_one)
    (by simpa [expSum] using Ivl.has_zero)

theorem expUnit_lo_ge (p : ℕ) (r : Ivl) : 2 ^ p ≤ (expUnit p r).lo := by
  have h := expTerms_lo_ge p r (p / 4 + 7) 1 ((Ivl.mul p (Ivl.one p) r).divNat 1)
    (Ivl.add ⟨0, 0⟩ (Ivl.one p))
  refine le_trans ?_ h
  simp [Ivl.add, Ivl.one, Nat.one_shiftLeft]

theorem squareTimes_has {p : ℕ} (n : ℕ) : ∀ {e : Ivl} {x : ℝ}, e.has p (Real.exp x) →
    (squareTimes p n e).has p (Real.exp (2 ^ n * x)) := by
  induction n with
  | zero =>
    intro e x h
    simpa [squareTimes] using h
  | succ n ih =>
    intro e x h
    have := ih (h.mul h |> fun h2 => by rwa [← Real.exp_add] at h2)
    rwa [show (2 : ℝ) ^ n * (x + x) = 2 ^ (n + 1) * x by ring] at this

theorem squareTimes_lo_ge (p n : ℕ) : ∀ e : Ivl, 2 ^ p ≤ e.lo → 2 ^ p ≤ (squareTimes p n e).lo := by
  induction n with
  | zero => exact fun _ h => h
  | succ n ih =>
    refine fun e h => ih _ ?_
    simp only [Ivl.mul, Nat.shiftRight_eq_div_pow]
    rw [Nat.le_div_iff_mul_le (by positivity)]
    exact Nat.mul_le_mul h h

/-- `expIvl` holds the exponential, whatever the size of the argument. -/
theorem expIvl_has {p : ℕ} {r : Ivl} {x : ℝ} (hr : r.has p x) : (expIvl p r).has p (Real.exp x) := by
  unfold expIvl
  dsimp only
  generalize hj : Nat.log2 r.hi + 1 - p = j
  have hle : x / 2 ^ j ≤ 1 := by
    have hlt : r.hi < 2 ^ (p + j) :=
      Nat.lt_log2_self.trans_le (Nat.pow_le_pow_right (by norm_num) (by omega))
    have hlt' : (r.hi : ℝ) < 2 ^ p * 2 ^ j := by
      rw [← pow_add]
      exact_mod_cast hlt
    have hp : (0 : ℝ) < 2 ^ p := by positivity
    rw [div_le_one (by positivity)]
    have := hr.2.trans hlt'.le
    rw [mul_comm] at this
    exact le_of_mul_le_mul_left this hp
  have h := squareTimes_has j (expUnit_has (hr.shiftRight j) hle)
  rwa [mul_div_cancel₀ x (by positivity : (2 : ℝ) ^ j ≠ 0)] at h

theorem expIvl_lo_ge (p : ℕ) (r : Ivl) : 2 ^ p ≤ (expIvl p r).lo :=
  squareTimes_lo_ge p _ _ (expUnit_lo_ge p _)

/-! ## The logarithm of 2 -/

/-- `q` is `v` rounded down to a whole number, or the whole number before. -/
def FloorOf (q : ℕ) (v : ℝ) : Prop := (q : ℝ) ≤ v ∧ v ≤ q + 1

theorem FloorOf.div {q : ℕ} {v : ℝ} (h : FloorOf q v) {d : ℕ} (hd : 0 < d) : FloorOf (q / d) (v / d) := by
  have hd' : (0 : ℝ) < d := by exact_mod_cast hd
  refine ⟨Nat.cast_div_le.trans (div_le_div_of_nonneg_right h.1 hd'.le), ?_⟩
  have hlt : q + 1 ≤ (q / d + 1) * d := by
    have := Nat.lt_mul_of_div_lt (Nat.lt_succ_self (q / d)) hd
    exact this
  have hlt' : (q : ℝ) + 1 ≤ (((q / d : ℕ) : ℝ) + 1) * d := by exact_mod_cast hlt
  rw [div_le_iff₀ hd']
  exact h.2.trans hlt'

theorem floorOf_natDiv (n : ℕ) {d : ℕ} (hd : 0 < d) : FloorOf (n / d) ((n : ℝ) / d) :=
  FloorOf.div (q := n) ⟨le_rfl, by linarith⟩ hd

/-- The first `n` terms of `c · (1 + 1/(3 m) + 1/(5 m^2) + ...)`. -/
noncomputable def inverseOddSum (c : ℝ) (m n : ℕ) : ℝ :=
  ∑ i ∈ Finset.range n, c / m ^ i / ((2 * i + 1 : ℕ) : ℝ)

theorem inverseOddSum_succ (c : ℝ) (m n : ℕ) :
    inverseOddSum c m (n + 1) = inverseOddSum c m n + c / m ^ n / ((2 * n + 1 : ℕ) : ℝ) :=
  Finset.sum_range_succ ..

/-- `inverseOddTerms` continues a sum of floors, each less than 1 below its term. -/
theorem inverseOddTerms_spec (c : ℝ) {m : ℕ} (hm : 0 < m) (n : ℕ) :
    ∀ k q acc : ℕ, FloorOf q (c / m ^ k) → (acc : ℝ) ≤ inverseOddSum c m k →
      inverseOddSum c m k ≤ acc + k →
      let r := inverseOddTerms m n k q acc
      (r.1 : ℝ) ≤ inverseOddSum c m (k + n) ∧ inverseOddSum c m (k + n) ≤ r.1 + (k + n : ℕ) ∧
        FloorOf r.2 (c / m ^ (k + n)) := by
  induction n with
  | zero => exact fun k q acc hq hlo hhi => ⟨hlo, hhi, hq⟩
  | succ n ih =>
    intro k q acc hq hlo hhi
    have hterm := hq.div (d := 2 * k + 1) (by omega)
    have hnext := hq.div hm
    rw [div_div, ← pow_succ] at hnext
    have h := ih (k + 1) (q / m) (acc + q / (2 * k + 1)) hnext
      (by rw [inverseOddSum_succ]; push_cast at hterm ⊢; linarith [hterm.1])
      (by rw [inverseOddSum_succ]; have := hterm.2; push_cast at this ⊢; linarith)
    rwa [show k + 1 + n = k + (n + 1) by omega] at h

/-- The series of the logarithm of 2, from `2 · artanh (1/3)`. -/
theorem hasSum_log_two (c : ℝ) :
    HasSum (fun i : ℕ => c * 2 / 3 / 9 ^ i / ((2 * i + 1 : ℕ) : ℝ)) (c * Real.log 2) := by
  have h := (Real.hasSum_log_sub_log_of_abs_lt_one (x := 1 / 3) (by norm_num [abs_of_pos])).mul_left c
  have hlog : Real.log (1 + 1 / 3) - Real.log (1 - 1 / 3) = Real.log 2 := by
    rw [← Real.log_div (by norm_num) (by norm_num)]
    norm_num
  rw [hlog] at h
  refine h.congr_fun fun i => ?_
  rw [pow_succ, pow_mul, show (1 / 3 : ℝ) ^ 2 = 9⁻¹ by norm_num, inv_pow]
  push_cast
  field_simp

/-- The rest of the series is at most twice the first term left out without its divisor. -/
theorem log_two_rest (c : ℝ) (hc : 0 ≤ c) (n : ℕ) :
    inverseOddSum (c * 2 / 3) 9 n ≤ c * Real.log 2 ∧
      c * Real.log 2 ≤ inverseOddSum (c * 2 / 3) 9 n + 2 * (c * 2 / 3 / 9 ^ n) := by
  have h := hasSum_log_two c
  have hrest := (hasSum_nat_add_iff' n).mpr h
  have hsum : ∑ i ∈ Finset.range n, c * 2 / 3 / 9 ^ i / ((2 * i + 1 : ℕ) : ℝ) =
      inverseOddSum (c * 2 / 3) 9 n := by simp [inverseOddSum]
  rw [hsum] at hrest
  have hnonneg : 0 ≤ c * Real.log 2 - inverseOddSum (c * 2 / 3) 9 n :=
    hrest.nonneg fun i => by positivity
  have hgeom := (hasSum_geometric_of_lt_one (r := (1 / 9 : ℝ)) (by norm_num) (by norm_num)).mul_left
    (c * 2 / 3 / 9 ^ n)
  have hterm : ∀ i : ℕ, c * 2 / 3 / 9 ^ (i + n) / ((2 * (i + n) + 1 : ℕ) : ℝ) ≤
      c * 2 / 3 / 9 ^ n * (1 / 9) ^ i := fun i => by
    rw [pow_add, mul_comm (9 ^ i : ℝ), ← div_div, one_div, inv_pow, ← div_eq_mul_inv]
    exact div_le_self (by positivity) (by exact_mod_cast Nat.le_add_left 1 _)
  have hle := hasSum_le hterm hrest hgeom
  have h0 : 0 ≤ c * 2 / 3 / 9 ^ n := by positivity
  norm_num at hle
  constructor <;> linarith

/-- `ln2Ivl` holds the natural logarithm of 2. -/
theorem ln2Ivl_has (p : ℕ) : (ln2Ivl p).has p (Real.log 2) := by
  unfold ln2Ivl
  dsimp only
  generalize p / 3 + 4 = n
  have hc : ((2 <<< p : ℕ) : ℝ) / (3 : ℕ) = 2 ^ p * 2 / 3 := by
    rw [Nat.shiftLeft_eq]
    push_cast
    ring
  have hq := floorOf_natDiv (2 <<< p) (d := 3) (by norm_num)
  rw [hc] at hq
  obtain ⟨hlo, hhi, hend⟩ := inverseOddTerms_spec (2 ^ p * 2 / 3) (m := 9) (by norm_num) n 0
    ((2 <<< p) / 3) 0 (by simpa using hq) (by simp [inverseOddSum]) (by simp [inverseOddSum])
  obtain ⟨hrlo, hrhi⟩ := log_two_rest (2 ^ p) (by positivity) n
  rw [zero_add] at hlo hhi hend
  have := hend.2
  push_cast at this
  constructor
  · rw [mul_comm (Real.log 2)]
    exact hlo.trans hrlo
  · rw [mul_comm (Real.log 2)]
    push_cast
    linarith

end Sys2Proof

namespace Sys2Proof.Machine

/-- An interval as an enclosure in units of 2^-149. -/
theorem enclosure_of_has {p : ℕ} {a : Ivl} {v : ℝ} (h : a.has p v) :
    Enclosure.holds ⟨a.lo <<< 149, 1 <<< p, a.hi <<< 149, 1 <<< p⟩ v := by
  obtain ⟨h1, h2⟩ := h
  have hpow : (0 : ℝ) ≤ 2 ^ 149 := by positivity
  have hend : ∀ n : ℕ, ((n <<< 149 : ℕ) : ℝ) / ((1 <<< p : ℕ) : ℝ) = n / 2 ^ p * 2 ^ 149 :=
    fun n => by
      rw [Nat.one_shiftLeft, Nat.shiftLeft_eq, Nat.cast_mul, Nat.cast_pow, Nat.cast_pow,
        Nat.cast_ofNat, mul_div_right_comm]
  refine ⟨by simp [Nat.one_shiftLeft], by simp [Nat.one_shiftLeft], ?_, ?_⟩
  · refine (hend _).trans_le (mul_le_mul_of_nonneg_right ?_ hpow)
    rwa [div_le_iff₀ (by positivity)]
  · refine le_of_le_of_eq (mul_le_mul_of_nonneg_right ?_ hpow) (hend _).symm
    rwa [le_div_iff₀ (by positivity)]

/-- The quotient of two intervals as an enclosure in units of 2^-149. -/
theorem enclosure_div_of_has {p : ℕ} {a b : Ivl} {u v : ℝ} (ha : a.has p u) (hb : b.has p v)
    (hlo : b.lo ≠ 0) : Enclosure.holds ⟨a.lo <<< 149, b.hi, a.hi <<< 149, b.lo⟩ (u / v) := by
  have hp : (0 : ℝ) < 2 ^ p := by positivity
  have hpow : (0 : ℝ) ≤ 2 ^ 149 := by positivity
  have hblo : (0 : ℝ) < b.lo := by exact_mod_cast Nat.pos_of_ne_zero hlo
  have hv : 0 < v := pos_of_mul_pos_left (hblo.trans_le hb.1) hp.le
  have hbhi := hb.hi_pos hv
  have hbhi' : (0 : ℝ) < b.hi := by exact_mod_cast hbhi
  have hu := ha.nonneg
  have hend : ∀ n d : ℕ, ((n <<< 149 : ℕ) : ℝ) / (d : ℝ) = n / d * 2 ^ 149 := fun n d => by
    rw [Nat.shiftLeft_eq, Nat.cast_mul, Nat.cast_pow, Nat.cast_ofNat, mul_div_right_comm]
  have hval : u / v = u * 2 ^ p / (v * 2 ^ p) := by field_simp
  refine ⟨hbhi, Nat.pos_of_ne_zero hlo, ?_, ?_⟩
  · refine (hend _ _).trans_le (mul_le_mul_of_nonneg_right ?_ hpow)
    rw [hval]
    exact div_le_div₀ (by positivity) ha.1 (by positivity) hb.2
  · refine le_of_le_of_eq (mul_le_mul_of_nonneg_right ?_ hpow) (hend _ _).symm
    rw [hval]
    exact div_le_div₀ (Nat.cast_nonneg _) ha.2 hblo hb.1

/-- The enclosure of `exp` holds the exponential of the operand. -/
theorem expEnclosure_holds (neg : Bool) (x p : ℕ) :
    Enclosure.holds (expEnclosure neg x p) (Real.exp (signed neg ((x : ℝ) / 2 ^ 149))) := by
  have h := expIvl_has (unitsIvl_has p x)
  cases neg with
  | false => exact enclosure_of_has h
  | true =>
    have hlo : (expIvl p (unitsIvl p x)).lo ≠ 0 :=
      ((Nat.two_pow_pos p).trans_le (expIvl_lo_ge p (unitsIvl p x))).ne'
    have hdiv := enclosure_div_of_has Ivl.has_one h hlo
    rw [one_div, ← Real.exp_neg] at hdiv
    rwa [Ivl.one, ← Nat.shiftLeft_add] at hdiv

/-- A whole power of 2 as a quotient of two natural ones. -/
theorem two_zpow_mul_toNat (n : ℤ) : (2 : ℝ) ^ n * 2 ^ (-n).toNat = 2 ^ n.toNat := by
  rw [← zpow_natCast, ← zpow_natCast, ← zpow_add₀ two_ne_zero]
  congr 1
  omega

/-- The enclosure of `exp2` holds the power of 2. -/
theorem exp2Enclosure_holds (n : ℤ) {frac : ℕ} (hf : frac < 2 ^ 149) (p : ℕ) :
    Enclosure.holds (exp2Enclosure n frac p) ((2 : ℝ) ^ ((n : ℝ) + (frac : ℝ) / 2 ^ 149)) := by
  unfold exp2Enclosure
  dsimp only
  have hpow : (0 : ℝ) < 2 ^ 149 := by positivity
  have hfrac : (frac : ℝ) / 2 ^ 149 ≤ 1 := by
    rw [div_le_one hpow]
    exact_mod_cast hf.le
  have hlog : 0 < Real.log 2 := Real.log_pos one_lt_two
  obtain ⟨hl1, hl2⟩ := ln2Ivl_has p
  have harg : (⟨(frac * (ln2Ivl p).lo) >>> 149, ((frac * (ln2Ivl p).hi) >>> 149) + 1⟩ : Ivl).has p
      ((frac : ℝ) / 2 ^ 149 * Real.log 2) := by
    have hval : (frac : ℝ) / 2 ^ 149 * Real.log 2 * 2 ^ p * ((2 ^ 149 : ℕ) : ℝ) =
        frac * (Real.log 2 * 2 ^ p) := by
      rw [Nat.cast_pow, Nat.cast_ofNat]
      field_simp
    simp only [Ivl.has, Nat.shiftRight_eq_div_pow, Nat.cast_add, Nat.cast_one]
    refine ⟨natDiv_le_of_le_mul (by positivity) ?_, le_natDiv_add_one_of_mul_le (by positivity) ?_⟩
    · rw [hval, Nat.cast_mul]
      gcongr
    · rw [hval, Nat.cast_mul]
      gcongr
  have hone : (frac : ℝ) / 2 ^ 149 * Real.log 2 ≤ 1 := by
    have := Real.log_two_lt_d9
    nlinarith [mul_le_mul_of_nonneg_right hfrac hlog.le]
  obtain ⟨h1, h2⟩ := expUnit_has harg hone
  generalize expUnit p _ = e at *
  have hexp : Real.exp ((frac : ℝ) / 2 ^ 149 * Real.log 2) = (2 : ℝ) ^ ((frac : ℝ) / 2 ^ 149) := by
    rw [Real.rpow_def_of_pos two_pos, mul_comm]
  rw [hexp] at h1 h2
  rw [Real.rpow_add two_pos, Real.rpow_intCast]
  generalize (2 : ℝ) ^ ((frac : ℝ) / 2 ^ 149) = v at *
  have hscale : ∀ y : ℝ, (2 : ℝ) ^ n * y * 2 ^ 149 * (2 ^ p * 2 ^ (-n).toNat) =
      y * 2 ^ p * (2 ^ 149 * 2 ^ n.toNat) := fun y => by
    rw [← two_zpow_mul_toNat n]
    ring
  refine ⟨by simp [Nat.one_shiftLeft], by simp [Nat.one_shiftLeft], ?_, ?_⟩ <;>
    simp only [Nat.shiftLeft_eq, one_mul, Nat.cast_mul, Nat.cast_pow, Nat.cast_ofNat, pow_add]
  · rw [div_le_iff₀ (by positivity), hscale]
    gcongr
  · rw [le_div_iff₀ (by positivity), hscale]
    gcongr

end Sys2Proof.Machine
end

section
/-! The reference `exp` and `exp2` are the real functions rounded once (R11). -/

namespace Sys2Proof.Machine

/-! ## exp -/

/-- A number of the format is no midpoint. -/
theorem magReal_ne_midReal {m : ℕ} (hm : m ≠ 0) (j : ℕ) : magReal m ≠ midReal j := by
  intro h
  rw [midReal_eq] at h
  have hpos : magReal 0 < magReal m := magReal_strictMono (Nat.pos_of_ne_zero hm)
  rcases Nat.eq_zero_or_pos j with rfl | hj
  · rw [Nat.zero_sub] at h
    linarith [magReal_zero]
  · have hstep := magReal_strictMono (show j - 1 < j by omega)
    have h1 : j - 1 < m := magReal_strictMono.lt_iff_lt.mp (by linarith)
    have h2 : m < j := magReal_strictMono.lt_iff_lt.mp (by linarith)
    omega

theorem overflowBound_le : overflowBound ≤ 2 ^ 128 := by
  unfold overflowBound
  norm_num

/-- A lower bound on the powers of e that is compared with powers of 2. -/
theorem pow_le_exp (n : ℕ) : (2.718 : ℝ) ^ n ≤ Real.exp n := by
  have h : (2.718 : ℝ) ≤ Real.exp 1 := by linarith [Real.exp_one_gt_d9]
  rw [← mul_one (n : ℝ), Real.exp_nat_mul]
  gcongr

theorem two_pow_le_exp_89 : (2 : ℝ) ^ 128 ≤ Real.exp (89 : ℕ) :=
  le_trans (by norm_num) (pow_le_exp 89)

theorem two_pow_le_exp_104 : (2 : ℝ) ^ 150 ≤ Real.exp (104 : ℕ) :=
  le_trans (by norm_num) (pow_le_exp 104)

/-- A magnitude with more than `n` times 2^149 units is above `n`. -/
theorem le_magReal {n m : ℕ} (h : n <<< 149 < magUnits m) : (n : ℝ) ≤ magReal m := by
  rw [Nat.shiftLeft_eq] at h
  have h' : (n : ℝ) * 2 ^ 149 < magUnits m := by exact_mod_cast h
  rw [magReal, le_div_iff₀ (by positivity)]
  exact h'.le

/-- What the fixed precisions answer for `exp` is the real result rounded once. -/
theorem refExp_rounded {s : Bool} {m : F32Mag} {r : F32} (h : refExp s m = some r) :
    roundedFrom (Real.exp (f32Real (.fin s m))) r := by
  have henc : ∀ p, Enclosure.holds (expEnclosure s (magUnits m) p) (Real.exp (f32Real (.fin s m))) :=
    fun p => by
      rw [f32Real_fin]
      exact expEnclosure_holds s (magUnits m) p
  have hsettled : firstSettled (fun p => (expEnclosure s (magUnits m) p).settled false)
      workingPrecisions = some r → roundedFrom (Real.exp (f32Real (.fin s m))) r := fun hf => by
    obtain ⟨p, -, hp⟩ := exists_of_firstSettled hf
    exact roundedFrom_of_settled (henc p) hp
  unfold refExp at h
  dsimp only at h
  cases s with
  | false =>
    rw [if_neg Bool.false_ne_true] at h
    split at h
    · next hbig =>
      cases h
      refine roundedFrom_inf (overflowBound_le.trans (two_pow_le_exp_89.trans ?_))
      rw [f32Real_fin, signed_false, Real.exp_le_exp]
      exact le_magReal hbig
    · exact hsettled h
  | true =>
    rw [if_pos rfl] at h
    split at h
    · next hbig =>
      cases h
      refine roundedFrom_tiny (Real.exp_pos _).le ?_
      rw [f32Real_fin, signed_true, Real.exp_neg, ← one_div]
      refine one_div_le_one_div_of_le (by positivity) (two_pow_le_exp_104.trans ?_)
      rw [Real.exp_le_exp]
      exact le_magReal hbig
    · exact hsettled h

/-- The exponential of a number of the format is no midpoint. -/
theorem exp_ne_midReal (x : ℚ) (j : ℕ) : Real.exp x ≠ midReal j := by
  by_cases hx : x = 0
  · have hone : magReal 0x3F800000 = 1 := by
      have : magUnits 0x3F800000 = 2 ^ 149 := by decide
      rw [magReal, this, Nat.cast_pow, Nat.cast_ofNat]
      exact div_self (by positivity)
    rw [hx, Rat.cast_zero, Real.exp_zero, ← hone]
    exact magReal_ne_midReal (by norm_num) j
  · rw [midReal_eq_rat]
    exact exp_rat_ne x _ hx

/-- The exact comparison answers `exp` rounded once. -/
theorem exactElem_exp_rounded (s : Bool) (m : F32Mag) :
    roundedFrom (Real.exp (f32Real (.fin s m))) (exactElem .exp s m) := by
  rw [f32Real_eq_unitsRat]
  refine roundedFrom_roundAbove (fun t => ?_) (Real.exp_pos _).le (exp_ne_midReal _) false
  rw [expAbove_iff, halfUnitsRat_cast]

/-! ## exp2 -/

/-- A power of 2 whose exponent is a fraction of whole numbers is a fraction with a power of 2 below
only when the exponent is whole. -/
theorem two_rpow_div_eq {D : ℕ} (hD : D ≠ 0) {a : ℤ} {t : ℕ}
    (h : (2 : ℝ) ^ ((a : ℝ) / D) = (t : ℝ) / 2 ^ 150) : (D : ℤ) ∣ a := by
  have hD' : (D : ℝ) ≠ 0 := by exact_mod_cast hD
  -- `t` to the power `D` is a power of 2, so `t` is
  have hpow : ((t : ℝ) / 2 ^ 150) ^ D = 2 ^ a := by
    rw [← h, ← Real.rpow_mul_natCast two_pos.le, div_mul_cancel₀ _ hD', Real.rpow_intCast]
  have hnat : t ^ D * 2 ^ (-a).toNat = 2 ^ (a.toNat + 150 * D) := by
    rw [div_pow, ← pow_mul, div_eq_iff (by positivity)] at hpow
    have : (t : ℝ) ^ D * 2 ^ (-a).toNat = 2 ^ (a.toNat + 150 * D) := by
      rw [hpow, pow_add, ← two_zpow_mul_toNat a]
      ring
    exact_mod_cast this
  have hdvd : t ∣ 2 ^ (a.toNat + 150 * D) :=
    (dvd_pow_self t hD).trans ⟨_, hnat.symm⟩
  obtain ⟨j, -, rfl⟩ := (Nat.dvd_prime_pow Nat.prime_two).mp hdvd
  have hexp : (a : ℝ) / D = (((j : ℤ) - 150 : ℤ) : ℝ) := by
    have : (2 : ℝ) ^ ((a : ℝ) / D) = 2 ^ ((((j : ℤ) - 150 : ℤ) : ℝ)) := by
      rw [h, Real.rpow_intCast, zpow_sub₀ two_ne_zero]
      norm_cast
    exact (Real.strictMono_rpow_of_base_gt_one one_lt_two).injective this
  refine ⟨(j : ℤ) - 150, ?_⟩
  rw [div_eq_iff hD'] at hexp
  have : (a : ℝ) = ((D * ((j : ℤ) - 150) : ℤ) : ℝ) := by
    rw [hexp]
    push_cast
    ring
  exact_mod_cast this

/-- The operand of `exp2` as a whole number and a fraction below 1 in units of 2^-149. -/
theorem units_split (a : ℤ) :
    (a : ℝ) / (2 : ℝ) ^ 149 =
        (Int.fdiv a (1 <<< 149) : ℝ) + ((Int.fmod a (1 <<< 149)).toNat : ℝ) / 2 ^ 149 ∧
      (Int.fmod a (1 <<< 149)).toNat < 2 ^ 149 := by
  rw [one_shiftLeft_149]
  have hpos : (0 : ℤ) < 2 ^ 149 := by positivity
  have h0 := Int.fmod_nonneg_of_pos a hpos
  have hlt := Int.fmod_lt_of_pos a hpos
  have hsum := Int.mul_fdiv_add_fmod a (2 ^ 149)
  have hcast : ((Int.fmod a (2 ^ 149)).toNat : ℝ) = ((Int.fmod a (2 ^ 149) : ℤ) : ℝ) := by
    rw [← Int.cast_natCast, Int.toNat_of_nonneg h0]
  refine ⟨?_, by omega⟩
  rw [hcast, eq_comm, ← sub_eq_zero]
  have hsum' : (2 : ℝ) ^ 149 * (Int.fdiv a (2 ^ 149) : ℝ) + (Int.fmod a (2 ^ 149) : ℝ) = a := by
    exact_mod_cast congrArg (Int.cast (R := ℝ)) hsum
  rw [← hsum']
  field_simp
  ring

/-- `exp2` of a whole number is a quotient of powers of 2, rounded once. -/
theorem roundedFrom_two_zpow (n : ℤ) :
    roundedFrom ((2 : ℝ) ^ n) (F32.round false (1 <<< (149 + n.toNat)) (1 <<< (-n).toNat)) := by
  have hr := roundedFrom_round false (1 <<< (149 + n.toNat)) (den := 1 <<< (-n).toNat)
    (by simp [Nat.one_shiftLeft])
  have hval : (2 : ℝ) ^ n =
      ((1 <<< (149 + n.toNat) : ℕ) : ℝ) / ((1 <<< (-n).toNat : ℕ) : ℝ) / 2 ^ 149 := by
    rw [Nat.one_shiftLeft, Nat.one_shiftLeft, Nat.cast_pow, Nat.cast_pow, Nat.cast_ofNat, pow_add,
      ← two_zpow_mul_toNat n]
    field_simp
  rwa [signed_false, ← hval] at hr

/-- What the fixed precisions answer for `exp2` is the real result rounded once. -/
theorem refExp2_rounded {s : Bool} {m : F32Mag} {r : F32} (h : refExp2 s m = some r) :
    roundedFrom ((2 : ℝ) ^ f32Real (.fin s m)) r := by
  obtain ⟨hx, hlt⟩ := units_split (signedUnits s m)
  unfold refExp2 at h
  dsimp only at h
  change roundedFrom ((2 : ℝ) ^ ((signedUnits s m : ℝ) / 2 ^ 149)) r
  rw [hx]
  generalize Int.fdiv (signedUnits s m) (1 <<< 149) = n at *
  generalize (Int.fmod (signedUnits s m) (1 <<< 149)).toNat = frac at *
  have hfrac : (0 : ℝ) ≤ (frac : ℝ) / 2 ^ 149 := by positivity
  split at h
  · next hbig =>
    cases h
    refine roundedFrom_inf (overflowBound_le.trans ?_)
    rw [← Real.rpow_natCast 2 128]
    refine Real.rpow_le_rpow_of_exponent_le one_le_two ?_
    have : ((128 : ℤ) : ℝ) ≤ n := by exact_mod_cast hbig
    push_cast at this ⊢
    linarith
  · split at h
    · next hsmall =>
      cases h
      refine roundedFrom_tiny (by positivity) ?_
      have hf1 : (frac : ℝ) / 2 ^ 149 ≤ 1 := by
        rw [div_le_one (by positivity)]
        exact_mod_cast hlt.le
      have hn : (n : ℝ) ≤ ((-151 : ℤ) : ℝ) := by exact_mod_cast (by omega : n ≤ -151)
      rw [one_div, ← Real.rpow_natCast 2 150, ← Real.rpow_neg two_pos.le]
      refine Real.rpow_le_rpow_of_exponent_le one_le_two ?_
      push_cast at hn ⊢
      linarith
    · split at h
      · next h0 =>
        cases h
        rw [h0, Nat.cast_zero, zero_div, add_zero, Real.rpow_intCast]
        exact roundedFrom_two_zpow n
      · obtain ⟨p, -, hp⟩ := exists_of_firstSettled h
        exact roundedFrom_of_settled (exp2Enclosure_holds n hlt p) hp

/-- The exact comparison answers `exp2` rounded once where the exponent is not whole. -/
theorem exactElem_exp2_rounded {s : Bool} {m : F32Mag} (h : refExp2 s m = none) :
    roundedFrom ((2 : ℝ) ^ f32Real (.fin s m)) (exactElem .exp2 s m) := by
  have hcast : (2 : ℝ) ^ 149 = ((2 ^ 149 : ℕ) : ℝ) := by rw [Nat.cast_pow, Nat.cast_ofNat]
  have hne : ¬ ((2 ^ 149 : ℕ) : ℤ) ∣ signedUnits s m := by
    intro hd
    unfold refExp2 at h
    dsimp only at h
    have hmod : (Int.fmod (signedUnits s m) (1 <<< 149)).toNat = 0 := by
      rw [show (1 <<< 149 : ℤ) = ((2 ^ 149 : ℕ) : ℤ) by decide,
        Int.fmod_eq_emod_of_nonneg _ (by positivity), Int.emod_eq_zero_of_dvd hd]
      rfl
    rw [if_pos hmod] at h
    split at h
    · cases h
    · split at h <;> cases h
  rw [f32Real, hcast]
  refine roundedFrom_roundAbove (exp2Above_iff _) (by positivity) (fun j hj => hne ?_) false
  exact two_rpow_div_eq (by positivity) hj

/-- Settles O57: an enclosure that settles the rounding is right, and so is the exact comparison. -/
theorem referenceExpAndExp2AreCorrectlyRounded :
    Obligations.ReferenceExpAndExp2AreCorrectlyRounded := by
  unfold Obligations.ReferenceExpAndExp2AreCorrectlyRounded
  intro s m x
  exact ⟨roundedFrom_refElemOf (fun _ => refExp_rounded) fun _ => exactElem_exp_rounded s m,
    roundedFrom_refElemOf (fun _ => refExp2_rounded) exactElem_exp2_rounded,
    fun _ => ⟨refExp_rounded, refExp2_rounded⟩⟩

end Sys2Proof.Machine
end

section
/-! The reference `tanh` is the hyperbolic tangent rounded once (R11). -/

namespace Sys2Proof.Machine

theorem tanh_eq_exp_two_mul (x : ℝ) :
    Real.tanh x = (Real.exp (2 * x) - 1) / (Real.exp (2 * x) + 1) := by
  rw [Real.tanh_eq_sinh_div_cosh, Real.sinh_eq, Real.cosh_eq, Real.exp_neg, two_mul, Real.exp_add]
  field_simp

theorem tanh_signed (s : Bool) (v : ℝ) : Real.tanh (signed s v) = signed s (Real.tanh v) := by
  cases s
  · rfl
  · exact Real.tanh_neg v

/-- The enclosure of `tanh` holds the hyperbolic tangent of the magnitude. -/
theorem tanhEnclosure_holds (x p : ℕ) :
    Enclosure.holds (tanhEnclosure x p) (Real.tanh ((x : ℝ) / 2 ^ 149)) := by
  have h := expIvl_has (unitsIvl_has p (2 * x))
  have hlo := expIvl_lo_ge p (unitsIvl p (2 * x))
  have harg : ((2 * x : ℕ) : ℝ) / 2 ^ 149 = 2 * ((x : ℝ) / 2 ^ 149) := by
    rw [Nat.cast_mul, Nat.cast_ofNat, mul_div_assoc]
  rw [harg] at h
  obtain ⟨h1, h2⟩ := h
  rw [tanh_eq_exp_two_mul]
  unfold tanhEnclosure
  dsimp only
  generalize expIvl p (unitsIvl p (2 * x)) = e at *
  have hE := Real.exp_pos (2 * ((x : ℝ) / 2 ^ 149))
  generalize Real.exp (2 * ((x : ℝ) / 2 ^ 149)) = E at *
  have hloR : (2 : ℝ) ^ p ≤ e.lo := by exact_mod_cast hlo
  have hle : e.lo ≤ e.hi := by exact_mod_cast h1.trans h2
  have ho : (0 : ℝ) < 2 ^ p := by positivity
  have hpow : (0 : ℝ) ≤ 2 ^ 149 := by positivity
  have hend : ∀ a : ℕ, 2 ^ p ≤ a → (((a - 1 <<< p) <<< 149 : ℕ) : ℝ) / ((a + 1 <<< p : ℕ) : ℝ) =
      ((a : ℝ) - 2 ^ p) / (a + 2 ^ p) * 2 ^ 149 := fun a ha => by
    rw [Nat.one_shiftLeft, Nat.shiftLeft_eq, Nat.cast_mul, Nat.cast_add, Nat.cast_sub ha,
      Nat.cast_pow, Nat.cast_pow, Nat.cast_ofNat, mul_div_right_comm]
  refine ⟨by simp [Nat.one_shiftLeft], by simp [Nat.one_shiftLeft], ?_, ?_⟩
  · refine (hend e.lo hlo).trans_le (mul_le_mul_of_nonneg_right ?_ hpow)
    rw [div_le_div_iff₀ (by positivity) (by positivity)]
    nlinarith
  · refine le_of_le_of_eq (mul_le_mul_of_nonneg_right ?_ hpow) (hend e.hi (hlo.trans hle)).symm
    rw [div_le_div_iff₀ (by positivity) (by positivity)]
    nlinarith

/-- From 16 on the hyperbolic tangent rounds to 1. -/
theorem roundsTo_one_of_tanh {x : ℝ} (hx : 16 ≤ x) : RoundsTo (Real.tanh x) 0x3F800000 := by
  have hexp : (2 : ℝ) ^ 26 ≤ Real.exp (2 * x) :=
    calc (2 : ℝ) ^ 26 ≤ 2.718 ^ 32 := by norm_num
      _ ≤ Real.exp (32 : ℕ) := pow_le_exp 32
      _ ≤ Real.exp (2 * x) := Real.exp_le_exp.mpr (by push_cast; linarith)
  have hlo : midReal 0x3F800000 = 1 - 1 / 2 ^ 25 := by
    have h : midpoint 0x3F800000 = (2 ^ 25 - 1) * 2 ^ 125 := by decide
    rw [midReal, h]
    norm_num
  have hhi : midReal (0x3F800000 + 1) = 1 + 1 / 2 ^ 24 := by
    have h : midpoint (0x3F800000 + 1) = (2 ^ 24 + 1) * 2 ^ 126 := by decide
    rw [midReal, h]
    norm_num
  refine ⟨?_, fun _ => ?_, fun _ _ => rfl⟩
  · rw [hlo, tanh_eq_exp_two_mul, le_div_iff₀ (by positivity)]
    norm_num at hexp ⊢
    linarith
  · rw [hhi]
    exact (Real.tanh_lt_one x).le.trans (by norm_num)

/-- What the fixed precisions answer for `tanh` is the real result rounded once. -/
theorem refTanh_rounded {s : Bool} {m : F32Mag} {r : F32} (h : refTanh s m = some r) :
    roundedFrom (Real.tanh (f32Real (.fin s m))) r := by
  rw [f32Real_fin, tanh_signed]
  unfold refTanh at h
  split at h
  · next h0 =>
    cases h
    have hm : m = 0 := Fin.ext h0
    subst hm
    have : signed s (Real.tanh (magReal ((0 : F32Mag) : ℕ))) = 0 := by cases s <;> simp
    rw [this]
    exact roundedFrom_zero s
  · split at h
    · next hbig =>
      cases h
      have h16 : (16 : ℝ) ≤ magReal m := by exact_mod_cast le_magReal hbig
      exact (roundsTo_one_of_tanh h16).roundedFrom s
    · obtain ⟨p, -, hp⟩ := exists_of_firstSettled h
      exact roundedFrom_of_settled (tanhEnclosure_holds _ p) hp

/-- The hyperbolic tangent of a nonzero fraction is no fraction. -/
theorem tanh_rat_ne (q r : ℚ) (hq : q ≠ 0) : Real.tanh q ≠ r := by
  intro h
  refine exp_rat_ne (2 * q) ((1 + r) / (1 - r)) (by simpa using hq) ?_
  have hlt := Real.tanh_lt_one q
  rw [h] at hlt
  rw [tanh_eq_exp_two_mul, div_eq_iff (by positivity)] at h
  push_cast
  rw [eq_div_iff (by linarith)]
  linarith

/-- The exact comparison answers `tanh` rounded once. -/
theorem exactElem_tanh_rounded (s : Bool) (m : F32Mag) (hm : m.val ≠ 0) :
    roundedFrom (Real.tanh (f32Real (.fin s m))) (exactElem .tanh s m) := by
  have hx : unitsRat (magUnits m) ≠ 0 := unitsRat_ne_zero (by simpa using hm)
  have hnonneg : 0 ≤ Real.tanh ((unitsRat (magUnits m) : ℚ) : ℝ) := by
    rw [← magReal_eq_unitsRat, tanh_eq_exp_two_mul]
    have := Real.one_le_exp (mul_nonneg two_pos.le (magReal_nonneg m))
    exact div_nonneg (by linarith) (by positivity)
  rw [f32Real_fin, tanh_signed, magReal_eq_unitsRat]
  simp only [exactElem, if_neg hm]
  refine roundedFrom_roundAbove (fun t => ?_) hnonneg (fun j => ?_) s
  · rw [tanhMagAbove_iff _ _ (by unfold halfUnitsRat; positivity), halfUnitsRat_cast]
  · rw [midReal_eq_rat]
    exact tanh_rat_ne _ _ hx

/-- A function that answers a zero as it is has a precision that settles it. -/
theorem refTanh_zero {s : Bool} {m : F32Mag} (h : refTanh s m = none) : m.val ≠ 0 := fun h0 => by
  simp [refTanh, h0] at h

/-- Settles O58: an enclosure that settles the rounding is right, and so is the exact comparison. -/
theorem referenceTanhIsCorrectlyRounded : Obligations.ReferenceTanhIsCorrectlyRounded := by
  unfold Obligations.ReferenceTanhIsCorrectlyRounded
  intro s m x
  exact ⟨roundedFrom_refElemOf (fun _ => refTanh_rounded) fun h =>
    exactElem_tanh_rounded s m (refTanh_zero h), fun _ => refTanh_rounded⟩

end Sys2Proof.Machine
end

section
/-! Alternating series in interval arithmetic, and pi/2 by Machin's formula (R11, log 4). -/

namespace Sys2Proof

/-! ## Differences -/

theorem cast_natSub_le {a b : ℕ} {v : ℝ} (h : (a : ℝ) - b ≤ v) (hv : 0 ≤ v) : ((a - b : ℕ) : ℝ) ≤ v := by
  rcases le_total b a with hle | hle
  · rwa [Nat.cast_sub hle]
  · rwa [Nat.sub_eq_zero_of_le hle, Nat.cast_zero]

theorem le_cast_natSub (a b : ℕ) : (a : ℝ) - b ≤ ((a - b : ℕ) : ℝ) := by
  have : (a : ℝ) ≤ ((a - b + b : ℕ) : ℝ) := by exact_mod_cast le_tsub_add
  push_cast at this
  linarith

theorem Ivl.has.sub {p : ℕ} {a b : Ivl} {u v : ℝ} (ha : a.has p u) (hb : b.has p v) (h : v ≤ u) :
    (⟨a.lo - b.hi, a.hi - b.lo⟩ : Ivl).has p (u - v) := by
  have hp : (0 : ℝ) < 2 ^ p := by positivity
  obtain ⟨ha1, ha2⟩ := ha
  obtain ⟨hb1, hb2⟩ := hb
  constructor
  · exact cast_natSub_le (by linarith) (mul_nonneg (by linarith) hp.le)
  · exact le_trans (by linarith) (le_cast_natSub a.hi b.lo)

theorem Ivl.has.mulNat {p : ℕ} {a : Ivl} {u : ℝ} (ha : a.has p u) (q : ℕ) :
    (⟨q * a.lo, q * a.hi⟩ : Ivl).has p (q * u) := by
  obtain ⟨ha1, ha2⟩ := ha
  have hq : (0 : ℝ) ≤ q := Nat.cast_nonneg q
  constructor <;> push_cast <;> rw [mul_assoc] <;> exact mul_le_mul_of_nonneg_left ‹_› hq

/-! ## Alternating series -/

/-- The first `n` terms of `f 0 - f 1 + f 2 - ...`. -/
noncomputable def altSum (f : ℕ → ℝ) (n : ℕ) : ℝ := ∑ i ∈ Finset.range n, (-1) ^ i * f i

theorem altSum_add_two (f : ℕ → ℝ) (k : ℕ) :
    altSum f (2 * (k + 1)) = altSum f (2 * k) + f (2 * k) - f (2 * k + 1) := by
  have h : (-1 : ℝ) ^ (2 * k) = 1 := by simp
  rw [altSum, show 2 * (k + 1) = 2 * k + 1 + 1 by ring, Finset.sum_range_succ, Finset.sum_range_succ,
    pow_succ, h, altSum]
  ring

/-- The sum of an alternating series with falling terms lies between the sum of an even number of terms
and that with the next one. -/
theorem altSum_bounds {f : ℕ → ℝ} {l : ℝ} (hf : Antitone f) (h : HasSum (fun i => (-1) ^ i * f i) l)
    (k : ℕ) : altSum f (2 * k) ≤ l ∧ l ≤ altSum f (2 * k) + f (2 * k) := by
  refine ⟨hf.alternating_series_le_tendsto h.tendsto_sum_nat k, ?_⟩
  have hup := hf.tendsto_le_alternating_series h.tendsto_sum_nat k
  have hsign : (-1 : ℝ) ^ (2 * k) = 1 := by simp
  rwa [Finset.sum_range_succ, hsign, one_mul] at hup

/-! ## The arctangent -/

theorem FloorOf.has {p q : ℕ} {v : ℝ} (h : FloorOf q (v * 2 ^ p)) : (⟨q, q + 1⟩ : Ivl).has p v := by
  refine ⟨h.1, ?_⟩
  push_cast
  exact h.2

/-- The terms of `c · (1 - 1/(3 m) + 1/(5 m^2) - ...)`, without their signs. -/
noncomputable def arctanTerm (c : ℝ) (m i : ℕ) : ℝ := c / m ^ i / ((2 * i + 1 : ℕ) : ℝ)

theorem arctanTerm_has {p q m i : ℕ} {c : ℝ} (h : FloorOf q (c / m ^ i * 2 ^ p)) :
    (⟨q / (2 * i + 1), q / (2 * i + 1) + 1⟩ : Ivl).has p (arctanTerm c m i) := by
  have hd := h.div (d := 2 * i + 1) (by omega)
  rw [mul_div_right_comm] at hd
  exact hd.has

/-- `arctanTerms` continues the sums of the positive and the negative terms. -/
theorem arctanTerms_spec (p : ℕ) (c : ℝ) {m : ℕ} (hm : 0 < m) (n : ℕ) :
    ∀ (k q : ℕ) (pos neg : Ivl) (u v : ℝ), FloorOf q (c / m ^ (2 * k) * 2 ^ p) → pos.has p u →
      neg.has p v → u - v = altSum (arctanTerm c m) (2 * k) →
      let r := arctanTerms m n (2 * k) q pos neg
      (∃ u' v', r.1.1.has p u' ∧ r.1.2.has p v' ∧ u' - v' = altSum (arctanTerm c m) (2 * (k + n))) ∧
        FloorOf r.2 (c / m ^ (2 * (k + n)) * 2 ^ p) := by
  induction n with
  | zero => exact fun k q pos neg u v hq hu hv huv => ⟨⟨u, v, hu, hv, huv⟩, hq⟩
  | succ n ih =>
    intro k q pos neg u v hq hu hv huv
    have hdiv : ∀ i q', FloorOf q' (c / m ^ i * 2 ^ p) → FloorOf (q' / m) (c / m ^ (i + 1) * 2 ^ p) :=
      fun i q' h => by
        have := h.div hm
        rwa [mul_div_right_comm, div_div, ← pow_succ] at this
    have h1 := hdiv _ _ hq
    have h := ih (k + 1) (q / m / m) _ _ _ _ (hdiv _ _ h1) (hu.add (arctanTerm_has hq))
      (hv.add (arctanTerm_has h1)) (by rw [altSum_add_two]; linarith)
    rwa [show k + 1 + n = k + (n + 1) by omega] at h

/-- The series of `c · arctan (1/m)`. -/
theorem hasSum_arctanTerm (c : ℝ) {m : ℕ} (hm : 1 < m) :
    HasSum (fun i => (-1) ^ i * arctanTerm (c / m) (m * m) i) (c * Real.arctan (m : ℝ)⁻¹) := by
  have hm' : (1 : ℝ) < m := by exact_mod_cast hm
  have hlt : ‖(m : ℝ)⁻¹‖ < 1 := by
    rw [norm_inv, Real.norm_of_nonneg (by positivity)]
    exact inv_lt_one_of_one_lt₀ hm'
  refine ((Real.hasSum_arctan hlt).mul_left c).congr_fun fun i => ?_
  unfold arctanTerm
  rw [pow_succ, pow_mul, inv_pow, inv_pow]
  push_cast
  field_simp

theorem arctanTerm_antitone {c : ℝ} (hc : 0 ≤ c) {m : ℕ} (hm : 0 < m) : Antitone (arctanTerm c m) := by
  have hm' : (1 : ℝ) ≤ m := by exact_mod_cast hm
  refine antitone_nat_of_succ_le fun i => ?_
  unfold arctanTerm
  have hpow : (m : ℝ) ^ i ≤ m ^ (i + 1) := pow_le_pow_right₀ hm' (Nat.le_succ i)
  push_cast
  gcongr
  linarith

/-- `arctanInverse` holds `c · arctan (1/m)`. -/
theorem arctanInverse_has (c : ℕ) {m : ℕ} (hm : 1 < m) (p n : ℕ) :
    (arctanInverse c m p n).has p (c * Real.arctan (m : ℝ)⁻¹) := by
  have hq : FloorOf ((c <<< p) / m) ((c : ℝ) / m / ((m * m : ℕ) : ℝ) ^ (2 * 0) * 2 ^ p) := by
    have h := floorOf_natDiv (c <<< p) (d := m) (by omega)
    rw [Nat.shiftLeft_eq] at h ⊢
    push_cast at h
    rwa [mul_zero, pow_zero, div_one, ← mul_div_right_comm]
  obtain ⟨⟨u, v, hu, hv, huv⟩, hend⟩ := arctanTerms_spec p ((c : ℝ) / m) (m := m * m)
    (by positivity) n 0 _ ⟨0, 0⟩ ⟨0, 0⟩ 0 0 hq Ivl.has_zero Ivl.has_zero (by simp [altSum])
  obtain ⟨hlo, hhi⟩ := altSum_bounds
    (arctanTerm_antitone (c := (c : ℝ) / m) (by positivity) (m := m * m) (by positivity))
    (hasSum_arctanTerm c hm) n
  rw [zero_add] at huv hend
  rw [← huv] at hlo hhi
  have hnonneg : 0 ≤ (c : ℝ) * Real.arctan (m : ℝ)⁻¹ :=
    mul_nonneg (Nat.cast_nonneg c) (Real.arctan_nonneg.mpr (by positivity))
  have hp : (0 : ℝ) < 2 ^ p := by positivity
  have hterm : arctanTerm ((c : ℝ) / m) (m * m) (2 * n) * 2 ^ p ≤
      (arctanTerms (m * m) n 0 ((c <<< p) / m) ⟨0, 0⟩ ⟨0, 0⟩).2 + 1 := by
    refine le_trans (mul_le_mul_of_nonneg_right ?_ hp.le) hend.2
    exact div_le_self (by positivity) (by exact_mod_cast Nat.le_add_left 1 _)
  have hlo' := mul_le_mul_of_nonneg_right hlo hp.le
  have hhi' := mul_le_mul_of_nonneg_right hhi hp.le
  unfold arctanInverse
  dsimp only
  generalize arctanTerms (m * m) n 0 ((c <<< p) / m) ⟨0, 0⟩ ⟨0, 0⟩ = r at *
  obtain ⟨hu1, hu2⟩ := hu
  obtain ⟨hv1, hv2⟩ := hv
  constructor
  · rw [Nat.sub_sub]
    refine cast_natSub_le ?_ (by positivity)
    push_cast
    linarith
  · have := le_cast_natSub r.1.1.hi r.1.2.lo
    push_cast
    linarith

/-- `halfPiIvl` holds pi/2, by Machin's formula. -/
theorem halfPiIvl_has (p : ℕ) : (halfPiIvl p).has p (Real.pi / 2) := by
  have ha := arctanInverse_has 8 (m := 5) (by norm_num) p (p / 9 + 2)
  have hb := arctanInverse_has 2 (m := 239) (by norm_num) p (p / 31 + 2)
  have hmachin := Real.four_mul_arctan_inv_5_sub_arctan_inv_239
  push_cast at ha hb
  have hval : 8 * Real.arctan 5⁻¹ - 2 * Real.arctan 239⁻¹ = Real.pi / 2 := by linarith
  rw [← hval]
  exact ha.sub hb (by linarith [Real.pi_pos])

end Sys2Proof
end

section
/-! The enclosures of sine and cosine hold the real values: the series on [0, 1], and the reduction of
any operand to the first quadrant (R11, log 4). -/

namespace Sys2Proof

/-! ## The series -/

/-- The terms of the series of the cosine, without their signs. -/
noncomputable def cosTerm (x : ℝ) (i : ℕ) : ℝ := x ^ (2 * i) / (2 * i).factorial

/-- The terms of the series of the sine, without their signs. -/
noncomputable def sinTerm (x : ℝ) (i : ℕ) : ℝ := x ^ (2 * i + 1) / (2 * i + 1).factorial

/-- The terms of the series of `exp` fall, for an argument in [0, 1]. -/
theorem expTerm_antitone {x : ℝ} (h0 : 0 ≤ x) (h1 : x ≤ 1) :
    Antitone fun i : ℕ => x ^ i / i.factorial := fun i j hij => by
  dsimp only
  have hpow : x ^ j ≤ x ^ i := pow_le_pow_of_le_one h0 h1 hij
  have hfac : (i.factorial : ℝ) ≤ j.factorial := by exact_mod_cast Nat.factorial_le hij
  gcongr

theorem cosTerm_antitone {x : ℝ} (h0 : 0 ≤ x) (h1 : x ≤ 1) : Antitone (cosTerm x) := fun _ _ hij =>
  expTerm_antitone h0 h1 (Nat.mul_le_mul_left 2 hij)

theorem sinTerm_antitone {x : ℝ} (h0 : 0 ≤ x) (h1 : x ≤ 1) : Antitone (sinTerm x) := fun _ _ hij =>
  expTerm_antitone h0 h1 (Nat.add_le_add_right (Nat.mul_le_mul_left 2 hij) 1)

theorem cosTerm_bounds {x : ℝ} (h0 : 0 ≤ x) (h1 : x ≤ 1) (k : ℕ) :
    altSum (cosTerm x) (2 * k) ≤ Real.cos x ∧
      Real.cos x ≤ altSum (cosTerm x) (2 * k) + x ^ (4 * k) / (4 * k).factorial := by
  have h : HasSum (fun i => (-1) ^ i * cosTerm x i) (Real.cos x) :=
    (Real.hasSum_cos x).congr_fun fun i => by rw [cosTerm, mul_div_assoc]
  have hle : cosTerm x (2 * k) ≤ x ^ (4 * k) / (4 * k).factorial :=
    expTerm_antitone h0 h1 (by omega)
  obtain ⟨hlo, hhi⟩ := altSum_bounds (cosTerm_antitone h0 h1) h k
  exact ⟨hlo, by linarith⟩

theorem sinTerm_bounds {x : ℝ} (h0 : 0 ≤ x) (h1 : x ≤ 1) (k : ℕ) :
    altSum (sinTerm x) (2 * k) ≤ Real.sin x ∧
      Real.sin x ≤ altSum (sinTerm x) (2 * k) + x ^ (4 * k) / (4 * k).factorial := by
  have h : HasSum (fun i => (-1) ^ i * sinTerm x i) (Real.sin x) :=
    (Real.hasSum_sin x).congr_fun fun i => by rw [sinTerm, mul_div_assoc]
  have hle : sinTerm x (2 * k) ≤ x ^ (4 * k) / (4 * k).factorial :=
    expTerm_antitone h0 h1 (by omega)
  obtain ⟨hlo, hhi⟩ := altSum_bounds (sinTerm_antitone h0 h1) h k
  exact ⟨hlo, by linarith⟩

/-- The interval of the difference of two sums and a rest not above `t`. -/
theorem Ivl.has.sub_rest {p : ℕ} {pos neg t : Ivl} {u v y e : ℝ} (hu : pos.has p u) (hv : neg.has p v)
    (ht : t.has p e) (h1 : u - v ≤ y) (h2 : y ≤ u - v + e) (hy : 0 ≤ y) :
    (⟨pos.lo - neg.hi - t.hi, pos.hi + t.hi - neg.lo⟩ : Ivl).has p y := by
  have hp : (0 : ℝ) < 2 ^ p := by positivity
  have h1' := mul_le_mul_of_nonneg_right h1 hp.le
  have h2' := mul_le_mul_of_nonneg_right h2 hp.le
  have he := mul_nonneg ht.nonneg hp.le
  obtain ⟨hu1, hu2⟩ := hu
  obtain ⟨hv1, hv2⟩ := hv
  obtain ⟨-, ht2⟩ := ht
  constructor
  · rw [Nat.sub_sub]
    refine cast_natSub_le ?_ (by positivity)
    push_cast
    linarith
  · refine le_trans ?_ (le_cast_natSub _ _)
    push_cast
    linarith

/-- A sine and a cosine held by their intervals. -/
def SinCos.has (p : ℕ) (sc : SinCos) (x : ℝ) : Prop :=
  sc.sin.has p (Real.sin x) ∧ sc.cos.has p (Real.cos x)

/-- `sinCosTerms` continues the partial sums of both series to their sums. -/
theorem sinCosTerms_has {p y : ℕ} {x : ℝ} (hy : (⟨y, y⟩ : Ivl).has p x) (h1 : x ≤ 1) (n : ℕ) :
    ∀ (k : ℕ) (t cPos sPos cNeg sNeg : Ivl) (cp sp cn sn : ℝ),
      t.has p (x ^ (4 * k) / (4 * k).factorial) → cPos.has p cp → sPos.has p sp → cNeg.has p cn →
      sNeg.has p sn → cp - cn = altSum (cosTerm x) (2 * k) → sp - sn = altSum (sinTerm x) (2 * k) →
      (sinCosTerms p y n (4 * k) t cPos sPos cNeg sNeg).has p x := by
  have h0 := hy.nonneg
  induction n with
  | zero =>
    intro k t cPos sPos cNeg sNeg cp sp cn sn ht hcp hsp hcn hsn hc hs
    have hcos := cosTerm_bounds h0 h1 k
    have hsin := sinTerm_bounds h0 h1 k
    rw [← hc] at hcos
    rw [← hs] at hsin
    have hpi := Real.pi_gt_three
    exact ⟨hsp.sub_rest hsn ht hsin.1 hsin.2 (Real.sin_nonneg_of_nonneg_of_le_pi h0 (by linarith)),
      hcp.sub_rest hcn ht hcos.1 hcos.2
        (Real.cos_nonneg_of_neg_pi_div_two_le_of_le (by linarith) (by linarith))⟩
  | succ n ih =>
    intro k t cPos sPos cNeg sNeg cp sp cn sn ht hcp hsp hcn hsn hc hs
    have ht1 := ht.nextTerm hy
    have ht2 := ht1.nextTerm hy
    have ht3 := ht2.nextTerm hy
    have ht4 := ht3.nextTerm hy
    refine ih (k + 1) _ _ _ _ _ _ _ _ _ ht4 (hcp.add ht) (hsp.add ht1) (hcn.add ht2) (hsn.add ht3) ?_ ?_
    · rw [altSum_add_two, ← hc, cosTerm, cosTerm, show 2 * (2 * k) = 4 * k by ring,
        show 2 * (2 * k + 1) = 4 * k + 1 + 1 by ring]
      ring
    · rw [altSum_add_two, ← hs, sinTerm, sinTerm, show 2 * (2 * k) + 1 = 4 * k + 1 by ring,
        show 2 * (2 * k + 1) + 1 = 4 * k + 1 + 1 + 1 by ring]
      ring

/-- `sinCosUnit` holds sine and cosine in the first quadrant, the interval's low end not above 1. -/
theorem sinCosUnit_has {p : ℕ} {y : Ivl} {x : ℝ} (hy : y.has p x) (hlo : y.lo ≤ 2 ^ p)
    (hx : x ≤ Real.pi / 2) : (sinCosUnit p y).has p x := by
  have hp : (0 : ℝ) < 2 ^ p := by positivity
  have hpi := Real.pi_pos
  -- the low end `l` as a number
  obtain ⟨l, hl⟩ : ∃ l : ℝ, l * 2 ^ p = y.lo := ⟨y.lo / 2 ^ p, by field_simp⟩
  have hll : (⟨y.lo, y.lo⟩ : Ivl).has p l := ⟨hl.ge, hl.le⟩
  have hl1 : l ≤ 1 := by
    have : (y.lo : ℝ) ≤ 2 ^ p := by exact_mod_cast hlo
    rw [← hl] at this
    exact le_of_mul_le_mul_right (by linarith) hp
  have hlx : l ≤ x := le_of_mul_le_mul_right (hl.trans_le hy.1) hp
  have hl0 := hll.nonneg
  obtain ⟨hsin, hcos⟩ := sinCosTerms_has hll hl1 (p / 14 + 3) 0 (Ivl.one p) ⟨0, 0⟩ ⟨0, 0⟩ ⟨0, 0⟩ ⟨0, 0⟩
    0 0 0 0 (by simpa using Ivl.has_one) Ivl.has_zero Ivl.has_zero Ivl.has_zero Ivl.has_zero
    (by simp [altSum]) (by simp [altSum])
  have hw : (x - l) * 2 ^ p ≤ ((y.hi - y.lo : ℕ) : ℝ) := by
    refine le_trans ?_ (le_cast_natSub _ _)
    have := hy.2
    linarith
  have hsinle := Real.sin_le_sin_of_le_of_le_pi_div_two (by linarith) hx hlx
  have hcosle := Real.cos_le_cos_of_nonneg_of_le_pi hl0 (by linarith) hlx
  have hsinlip := (abs_le.mp (Real.abs_sin_sub_sin_le x l)).2
  have hcoslip := (abs_le.mp (Real.abs_cos_sub_cos_le x l)).1
  rw [abs_of_nonneg (sub_nonneg.mpr hlx)] at hsinlip hcoslip
  have hcos0 := Real.cos_nonneg_of_neg_pi_div_two_le_of_le (by linarith) hx
  have h1 := mul_le_mul_of_nonneg_right hsinle hp.le
  have h2 := mul_le_mul_of_nonneg_right hcosle hp.le
  have h3 := mul_le_mul_of_nonneg_right hsinlip hp.le
  have h4 := mul_le_mul_of_nonneg_right hcoslip hp.le
  unfold sinCosUnit
  dsimp only
  generalize sinCosTerms p y.lo (p / 14 + 3) 0 (Ivl.one p) ⟨0, 0⟩ ⟨0, 0⟩ ⟨0, 0⟩ ⟨0, 0⟩ = r at *
  obtain ⟨hs1, hs2⟩ := hsin
  obtain ⟨hc1, hc2⟩ := hcos
  refine ⟨⟨hs1.trans h1, ?_⟩, ⟨cast_natSub_le ?_ (by positivity), h2.trans hc2⟩⟩
  · push_cast
    linarith
  · linarith

/-! ## The reduction to the first quadrant -/

/-- `reduceQuadrant` writes the operand as a number of quadrants and a rest in the first one, with the
rest's sine and cosine. -/
theorem reduceQuadrant_spec {p x q4 : ℕ} {sc : SinCos} (h : reduceQuadrant p x = some (q4, sc)) :
    ∃ (q : ℕ) (r : ℝ), (x : ℝ) / 2 ^ 149 = r + q * (Real.pi / 2) ∧ q4 = q % 4 ∧ sc.has p r := by
  unfold reduceQuadrant at h
  dsimp only at h
  generalize Nat.log2 x - 149 + 8 = extra at h
  have hh := halfPiIvl_has (p + extra)
  have ha := unitsIvl_has (p + extra) x
  generalize halfPiIvl (p + extra) = H at *
  generalize unitsIvl (p + extra) x = a at *
  generalize (x : ℝ) / 2 ^ 149 = v at *
  generalize hq : a.lo / H.hi = q at *
  have hp : (0 : ℝ) < 2 ^ (p + extra) := by positivity
  have hqh := hh.mulNat q
  -- the rest is not below 0
  have hqv : (q : ℝ) * (Real.pi / 2) ≤ v := by
    refine le_of_mul_le_mul_right ?_ hp
    calc (q : ℝ) * (Real.pi / 2) * 2 ^ (p + extra) ≤ ((q * H.hi : ℕ) : ℝ) := hqh.2
      _ ≤ a.lo := by
        rw [← hq]
        exact_mod_cast Nat.div_mul_le_self _ _
      _ ≤ v * 2 ^ (p + extra) := ha.1
  have hr := ha.sub hqh hqv
  simp only at hr
  split at h
  · cases h
  · next hle =>
    -- nor above the quadrant
    have hrle : v - q * (Real.pi / 2) ≤ Real.pi / 2 := by
      refine le_of_mul_le_mul_right (hr.2.trans ?_) hp
      refine le_trans ?_ hh.1
      exact_mod_cast not_lt.mp hle
    generalize hrr : v - q * (Real.pi / 2) = r at *
    have hv : v = r + q * (Real.pi / 2) := by linarith
    have hlohi : a.lo - q * H.hi ≤ a.hi - q * H.lo := by exact_mod_cast hr.1.trans hr.2
    generalize a.lo - q * H.hi = lo at *
    generalize a.hi - q * H.lo = hi at *
    have hbound : ∀ n : ℕ, 2 * n ≤ H.lo → n >>> extra ≤ 2 ^ p := fun n hn => by
      rw [Nat.shiftRight_eq_div_pow]
      refine Nat.div_le_of_le_mul ?_
      have h4 : (H.lo : ℝ) ≤ 2 * 2 ^ (p + extra) := by
        refine hh.1.trans (mul_le_mul_of_nonneg_right ?_ hp.le)
        linarith [Real.pi_le_four]
      have h4' : H.lo ≤ 2 * 2 ^ (p + extra) := by exact_mod_cast h4
      rw [pow_add, mul_comm (2 ^ p)] at h4'
      omega
    split at h
    · next hsmall =>
      cases h
      exact ⟨q, r, hv, rfl, sinCosUnit_has hr.lower (hbound _ hsmall) hrle⟩
    · next hlarge =>
      cases h
      have hcompl := hh.sub hr hrle
      have hr0 := hr.nonneg
      obtain ⟨hs, hc⟩ := sinCosUnit_has hcompl.lower (hbound _ (by simp only; omega)) (by linarith)
      rw [Real.sin_pi_div_two_sub] at hs
      rw [Real.cos_pi_div_two_sub] at hc
      exact ⟨q, r, hv, rfl, hc, hs⟩

end Sys2Proof
end

section
/-! The reference `sin` and `tan` are the real functions rounded once (R11). -/

namespace Sys2Proof.Machine

/-! ## Quadrants -/

/-- Sine and cosine after `q` quadrants, by the remainder of `q`: which of the two at the rest, and with
which sign. -/
theorem sin_cos_add_quadrants (r : ℝ) (q : ℕ) :
    (q % 2 = 0 → Real.sin (r + q * (Real.pi / 2)) = signed (decide (2 ≤ q % 4)) (Real.sin r) ∧
      Real.cos (r + q * (Real.pi / 2)) = signed (decide (2 ≤ q % 4)) (Real.cos r)) ∧
    (q % 2 = 1 → Real.sin (r + q * (Real.pi / 2)) = signed (decide (2 ≤ q % 4)) (Real.cos r) ∧
      Real.cos (r + q * (Real.pi / 2)) = -signed (decide (2 ≤ q % 4)) (Real.sin r)) := by
  obtain ⟨k, j, hj, rfl⟩ : ∃ k j, j < 4 ∧ q = 4 * k + j :=
    ⟨q / 4, q % 4, Nat.mod_lt _ (by norm_num), (Nat.div_add_mod q 4).symm⟩
  have harg : r + ((4 * k + j : ℕ) : ℝ) * (Real.pi / 2) = r + j * (Real.pi / 2) + k * (2 * Real.pi) := by
    push_cast
    ring
  have hmod : (4 * k + j) % 4 = j := by omega
  rw [harg, Real.sin_add_nat_mul_two_pi, Real.cos_add_nat_mul_two_pi, hmod]
  have h3 : r + 3 * (Real.pi / 2) = r + Real.pi / 2 + Real.pi := by ring
  have h2 : r + 2 * (Real.pi / 2) = r + Real.pi := by ring
  interval_cases j
  · exact ⟨fun _ => by simp, fun h => by omega⟩
  · exact ⟨fun h => by omega, fun _ => by simp [Real.sin_add_pi_div_two, Real.cos_add_pi_div_two]⟩
  · exact ⟨fun _ => by simp [h2, Real.sin_add_pi, Real.cos_add_pi], fun h => by omega⟩
  · exact ⟨fun h => by omega, fun _ => by
      simp [h3, Real.sin_add_pi, Real.cos_add_pi, Real.sin_add_pi_div_two, Real.cos_add_pi_div_two]⟩

/-- The enclosure of `sin` holds the magnitude of the sine, with its sign beside. -/
theorem sinEnclosure_holds {x p : ℕ} {neg : Bool} {e : Enclosure}
    (h : sinEnclosure x p = some (neg, e)) :
    ∃ v, Enclosure.holds e v ∧ Real.sin ((x : ℝ) / 2 ^ 149) = signed neg v := by
  unfold sinEnclosure at h
  split at h
  · cases h
  · next q4 sc hred =>
    obtain ⟨q, r, hx, rfl, hs, hc⟩ := reduceQuadrant_spec hred
    cases h
    obtain ⟨heven, hodd⟩ := sin_cos_add_quadrants r q
    have hmod : q % 4 % 2 = q % 2 := by omega
    rw [hx, hmod]
    rcases Nat.mod_two_eq_zero_or_one q with h0 | h1
    · rw [if_pos h0]
      exact ⟨_, enclosure_of_has hs, (heven h0).1⟩
    · rw [if_neg (by omega)]
      exact ⟨_, enclosure_of_has hc, (hodd h1).1⟩

/-- The enclosure of `tan` holds the magnitude of the tangent, with its sign beside. -/
theorem tanEnclosure_holds {x p : ℕ} {neg : Bool} {e : Enclosure}
    (h : tanEnclosure x p = some (neg, e)) :
    ∃ v, Enclosure.holds e v ∧ Real.tan ((x : ℝ) / 2 ^ 149) = signed neg v := by
  unfold tanEnclosure at h
  split at h
  · cases h
  · next q4 sc hred =>
    obtain ⟨q, r, hx, rfl, hs, hc⟩ := reduceQuadrant_spec hred
    obtain ⟨heven, hodd⟩ := sin_cos_add_quadrants r q
    have hmod : q % 4 % 2 = q % 2 := by omega
    dsimp only at h
    rw [hmod] at h
    rw [hx, Real.tan_eq_sin_div_cos]
    rcases Nat.mod_two_eq_zero_or_one q with h0 | h1
    · simp only [h0, if_true] at h
      split at h
      · cases h
      · next hd =>
        cases h
        refine ⟨_, enclosure_div_of_has hs hc hd, ?_⟩
        rw [(heven h0).1, (heven h0).2]
        cases decide (2 ≤ q % 4) <;> simp [neg_div_neg_eq]
    · simp only [h1, one_ne_zero, if_false] at h
      split at h
      · cases h
      · next hd =>
        cases h
        refine ⟨_, enclosure_div_of_has hc hs hd, ?_⟩
        rw [(hodd h1).1, (hodd h1).2]
        cases decide (2 ≤ q % 4) <;> simp [div_neg, neg_div]

/-! ## The rounding -/

theorem signed_signed (s t : Bool) (v : ℝ) : signed s (signed t v) = signed (s != t) v := by
  cases s <;> cases t <;> simp

theorem sin_signed (s : Bool) (v : ℝ) : Real.sin (signed s v) = signed s (Real.sin v) := by
  cases s
  · rfl
  · exact Real.sin_neg v

theorem tan_signed (s : Bool) (v : ℝ) : Real.tan (signed s v) = signed s (Real.tan v) := by
  cases s
  · rfl
  · exact Real.tan_neg v

/-- An odd function answers a zero operand as it is, rounded once. -/
theorem roundedFrom_signed_zero {f : ℝ → ℝ} (h0 : f 0 = 0) {s : Bool} {m : F32Mag}
    (hm : m.val = 0) : roundedFrom (signed s (f (magReal m))) (.fin s m) := by
  have hm' : m = 0 := Fin.ext hm
  have hzero : signed s (f (magReal m)) = 0 := by
    rw [hm, magReal_zero, h0]
    cases s <;> simp
  rw [hzero, hm']
  exact roundedFrom_zero s

/-- An enclosure with a sign settles the rounding of what it holds with that sign. -/
theorem roundedFrom_firstSettled {enc : ℕ → Option (Bool × Enclosure)} {y : ℝ} {s : Bool} {r : F32}
    (henc : ∀ p neg e, enc p = some (neg, e) → ∃ v, Enclosure.holds e v ∧ y = signed neg v)
    (h : firstSettled (fun p => (enc p).bind fun r => r.2.settled (s != r.1)) workingPrecisions =
      some r) :
    roundedFrom (signed s y) r := by
  obtain ⟨p, -, hp⟩ := exists_of_firstSettled h
  obtain ⟨⟨neg, e⟩, he, hr⟩ := Option.bind_eq_some_iff.mp hp
  obtain ⟨v, hv, rfl⟩ := henc p neg e he
  rw [signed_signed]
  exact roundedFrom_of_settled hv hr

theorem refSin_rounded {s : Bool} {m : F32Mag} {r : F32} (h : refSin s m = some r) :
    roundedFrom (Real.sin (f32Real (.fin s m))) r := by
  rw [f32Real_fin, sin_signed]
  unfold refSin at h
  split at h
  · next h0 =>
    cases h
    exact roundedFrom_signed_zero Real.sin_zero h0
  · exact roundedFrom_firstSettled (fun _ _ _ => sinEnclosure_holds) h

theorem refTan_rounded {s : Bool} {m : F32Mag} {r : F32} (h : refTan s m = some r) :
    roundedFrom (Real.tan (f32Real (.fin s m))) r := by
  rw [f32Real_fin, tan_signed]
  unfold refTan at h
  split at h
  · next h0 =>
    cases h
    exact roundedFrom_signed_zero Real.tan_zero h0
  · exact roundedFrom_firstSettled (fun _ _ _ => tanEnclosure_holds) h

/-- The tangent of a nonzero fraction is no fraction. -/
theorem tan_rat_ne (q r : ℚ) (hq : q ≠ 0) : Real.tan q ≠ r := by
  intro h
  have hc : Real.cos q ≠ 0 := by simpa using cos_rat_ne q 0 hq
  refine cos_rat_ne (2 * q) ((1 - r * r) / (1 + r * r)) (by simpa using hq) ?_
  rw [Real.tan_eq_sin_div_cos, div_eq_iff hc] at h
  have hs := Real.sin_sq_add_cos_sq (q : ℝ)
  have hden : 0 < 1 + (r : ℝ) * r := by linarith [mul_self_nonneg (r : ℝ)]
  push_cast
  rw [Real.cos_two_mul, eq_div_iff hden.ne']
  rw [h] at hs
  linear_combination 2 * hs

theorem abs_ne_rat {v : ℝ} (h : ∀ r : ℚ, v ≠ r) (r : ℚ) : |v| ≠ r := fun he => by
  rcases abs_choice v with hc | hc
  · exact h r (hc.symm.trans he)
  · refine h (-r) ?_
    push_cast
    linarith

/-- The sign and magnitude of a real number. -/
theorem signed_abs {neg : Bool} {v : ℝ} (h : neg = true ↔ v < 0) : v = signed neg |v| := by
  cases neg with
  | false => rw [signed_false, abs_of_nonneg (not_lt.mp fun hv => Bool.false_ne_true (h.mpr hv))]
  | true => rw [signed_true, abs_of_neg (h.mp rfl), neg_neg]

theorem exactElem_sin_rounded (s : Bool) (m : F32Mag) (hm : m.val ≠ 0) :
    roundedFrom (Real.sin (f32Real (.fin s m))) (exactElem .sin s m) := by
  have hx : unitsRat (magUnits m) ≠ 0 := unitsRat_ne_zero (by simpa using hm)
  rw [f32Real_fin, sin_signed, magReal_eq_unitsRat]
  simp only [exactElem, if_neg hm]
  generalize unitsRat (magUnits m) = x at *
  have hne := fun r => sin_rat_ne x r hx
  have hsign : (!sinAbove x 0) = true ↔ Real.sin x < 0 := by
    rw [Bool.not_eq_true', ← Bool.not_eq_true, sinAbove_iff, not_lt]
    exact (hne 0).le_iff_lt.trans (by rw [Rat.cast_zero])
  rw [signed_abs hsign, signed_signed]
  refine roundedFrom_roundAbove (fun t => ?_) (abs_nonneg _) (fun j => ?_) _
  · rw [sinMagAbove_iff x _ hx, halfUnitsRat_cast]
  · rw [midReal_eq_rat]
    exact abs_ne_rat hne _

theorem exactElem_tan_rounded (s : Bool) (m : F32Mag) (hm : m.val ≠ 0) :
    roundedFrom (Real.tan (f32Real (.fin s m))) (exactElem .tan s m) := by
  have hx : unitsRat (magUnits m) ≠ 0 := unitsRat_ne_zero (by simpa using hm)
  rw [f32Real_fin, tan_signed, magReal_eq_unitsRat]
  simp only [exactElem, if_neg hm]
  generalize unitsRat (magUnits m) = x at *
  have hsin : Real.sin x ≠ 0 := by simpa using sin_rat_ne x 0 hx
  have hcos : Real.cos x ≠ 0 := by simpa using cos_rat_ne x 0 hx
  have hsign : (sinAbove x 0 != cosAbove x 0) = true ↔ Real.tan x < 0 := by
    have hsA := sinAbove_iff x 0
    have hcA := cosAbove_iff x 0
    rw [Rat.cast_zero] at hsA hcA
    rw [Real.tan_eq_sin_div_cos, div_neg_iff, bne_iff_ne, ne_eq, Bool.eq_iff_iff, hsA, hcA,
      ← hsin.le_iff_lt, ← hcos.le_iff_lt, ← not_lt, ← not_lt]
    tauto
  rw [signed_abs hsign, signed_signed]
  refine roundedFrom_roundAbove (fun t => ?_) (abs_nonneg _) (fun j => ?_) _
  · rw [tanMagAbove_iff x _ hx (by unfold halfUnitsRat; positivity), halfUnitsRat_cast]
  · rw [midReal_eq_rat]
    exact abs_ne_rat (fun r => tan_rat_ne x r hx) _

/-- Settles O59: the operand's quadrant and its rest give sine and tangent; where no precision settles
the rounding, the exact comparison does. -/
theorem referenceSinAndTanAreCorrectlyRounded : Obligations.ReferenceSinAndTanAreCorrectlyRounded := by
  unfold Obligations.ReferenceSinAndTanAreCorrectlyRounded
  intro s m x
  have hsin : refSin s m = none → m.val ≠ 0 := fun h h0 => by simp [refSin, h0] at h
  have htan : refTan s m = none → m.val ≠ 0 := fun h h0 => by simp [refTan, h0] at h
  exact ⟨roundedFrom_refElemOf (fun _ => refSin_rounded) fun h => exactElem_sin_rounded s m (hsin h),
    roundedFrom_refElemOf (fun _ => refTan_rounded) fun h => exactElem_tan_rounded s m (htan h),
    fun _ => ⟨refSin_rounded, refTan_rounded⟩⟩

end Sys2Proof.Machine
end

section
/-! What the step can do, and what every command leaves of the port, the stream and the configuration
(R5, R6, R7, R46). -/

namespace Sys2Proof.Machine

/-- The fields of the state that no command touches: the configuration, the port and the stream. -/
structure SamePort (s t : State) : Prop where
  cfg : t.cfg = s.cfg
  cmdReady : t.cmdReady = s.cmdReady
  rst : t.rst = s.rst
  pending : t.pending = s.pending
  pc : t.pc = s.pc

/-- A NOTEOFF of a held note (R202). -/
theorem execNoteOff_held {s : State} {note : Note} {i : ℕ} (h : slotHolding s.alloc.slots note = some i) :
    execNoteOff note s =
      .next ((({ s with alloc := (allocNoteOff s.alloc note).2 }).modifyVoice i
        (voiceNoteOff note)).raiseResponse (noteOffResponse (some i))) := by
  simp [execNoteOff, allocNoteOff, h]

/-- A NOTEOFF of a note that no slot holds (R202). -/
theorem execNoteOff_unheld {s : State} {note : Note} (h : slotHolding s.alloc.slots note = none) :
    execNoteOff note s = .next (s.raiseResponse (noteOffResponse none)) := by
  simp [execNoteOff, allocNoteOff, h]

/-- Every command answers a next state, with the port and the stream as they were. -/
theorem exec_samePort (i : Instr) (s : State) : ∃ t, exec i s = .next t ∧ SamePort s t := by
  cases i with
  | nop => exact ⟨_, rfl, ⟨rfl, rfl, rfl, rfl, rfl⟩⟩
  | noteOn note velocity => exact ⟨_, rfl, ⟨rfl, rfl, rfl, rfl, rfl⟩⟩
  | noteOff note =>
    cases h : slotHolding s.alloc.slots note with
    | none => exact ⟨_, execNoteOff_unheld h, ⟨rfl, rfl, rfl, rfl, rfl⟩⟩
    | some k => exact ⟨_, execNoteOff_held h, ⟨rfl, rfl, rfl, rfl, rfl⟩⟩
  | setp addr value => exact ⟨_, rfl, ⟨rfl, rfl, rfl, rfl, rfl⟩⟩
  | tick => exact ⟨_, rfl, ⟨rfl, rfl, rfl, rfl, rfl⟩⟩
  | init => exact ⟨_, rfl, ⟨rfl, rfl, rfl, rfl, rfl⟩⟩

/-- Settles O7: the accepted word leaves the stream, and its command leaves the stream alone. -/
theorem commandStreamAdvancesByOne : Obligations.CommandStreamAdvancesByOne := by
  unfold Obligations.CommandStreamAdvancesByOne
  intro s w rest hs hp
  obtain ⟨t, ht, hsame⟩ := exec_samePort (commandOf w) (s.accept rest)
  refine ⟨t, (step_eq_exec hs hp).trans ht, hsame.pending, hsame.pc, ⟨?_, ?_⟩, hsame.cfg⟩
  · exact hsame.rst.trans hs.1
  · exact hsame.cmdReady.trans hs.2

/-- What a step can be: reset held, reset left, an idle step, or the command of an accepted word. -/
theorem step_cases {s t : State} (h : step s = .next t) :
    t = s.underReset ∨ t = s.leaveReset ∨ t = s.idle ∨
      ∃ i rest, exec i (s.accept rest) = .next t := by
  unfold step at h
  split at h
  · cases h
    exact .inl rfl
  · split at h
    · split at h
      · cases h
        exact .inr (.inr (.inl rfl))
      · next w rest _ =>
        split at h
        · next i _ => exact .inr (.inr (.inr ⟨i, rest, h⟩))
        · exact .inr (.inr (.inr ⟨.nop, rest, h⟩))
    · cases h
      exact .inr (.inl rfl)

end Sys2Proof.Machine
end

section
/-! The invariant of the machine (R29, R31, R36, R174): its part about the pool of voices and slots, and
how a change of one slot and its voice keeps it. -/

namespace Sys2Proof.Machine

/-! ## Lists changed in one place -/

/-- What stands where in a list changed at the index `k`. -/
theorem getElem?_modify_eq_some {β : Type} {f : β → β} {l : List β} {k j : ℕ} {y : β}
    (h : (l.modify k f)[j]? = some y) :
    (j = k ∧ ∃ x, l[k]? = some x ∧ y = f x) ∨ (j ≠ k ∧ l[j]? = some y) := by
  rw [List.getElem?_modify, Option.map_eq_map, Option.map_eq_some_iff] at h
  obtain ⟨x, hx, rfl⟩ := h
  by_cases hjk : k = j
  · subst hjk
    exact .inl ⟨rfl, x, hx, if_pos rfl⟩
  · exact .inr ⟨fun he => hjk he.symm, by rw [if_neg hjk, hx]⟩

theorem forall_mem_modify {β : Type} {P : β → Prop} {f : β → β} {l : List β} {k : ℕ}
    (h : ∀ x ∈ l, P x) (hf : ∀ x, l[k]? = some x → P (f x)) : ∀ x ∈ l.modify k f, P x := by
  intro y hy
  obtain ⟨j, hj⟩ := List.mem_iff_getElem?.mp hy
  rcases getElem?_modify_eq_some hj with ⟨-, x, hx, rfl⟩ | ⟨-, hy'⟩
  · exact hf x hx
  · exact h y (List.mem_of_getElem? hy')

/-- A symmetric relation holds pairwise when it holds between the entries of any two indices. -/
theorem pairwise_iff_getElem?_ne {β : Type} {R : β → β → Prop} (hsymm : ∀ x y, R x y → R y x)
    {l : List β} :
    l.Pairwise R ↔ ∀ (i j : ℕ) (x y : β), i ≠ j → l[i]? = some x → l[j]? = some y → R x y := by
  rw [List.pairwise_iff_getElem]
  constructor
  · intro h i j x y hij hx hy
    obtain ⟨hi, rfl⟩ := List.getElem?_eq_some_iff.mp hx
    obtain ⟨hj, rfl⟩ := List.getElem?_eq_some_iff.mp hy
    rcases hij.lt_or_gt with hlt | hgt
    · exact h i j hi hj hlt
    · exact hsymm _ _ (h j i hj hi hgt)
  · intro h i j hi hj hij
    exact h i j _ _ hij.ne (List.getElem?_eq_getElem hi) (List.getElem?_eq_getElem hj)

theorem pairwise_modify {β : Type} {R : β → β → Prop} (hsymm : ∀ x y, R x y → R y x) {f : β → β}
    {l : List β} {k : ℕ} (h : l.Pairwise R)
    (hf : ∀ x, l[k]? = some x → ∀ j y, j ≠ k → l[j]? = some y → R (f x) y) :
    (l.modify k f).Pairwise R := by
  rw [pairwise_iff_getElem?_ne hsymm] at h ⊢
  intro i j x y hij hx hy
  rcases getElem?_modify_eq_some hx with ⟨rfl, x, hx', rfl⟩ | ⟨hik, hx'⟩
  · rcases getElem?_modify_eq_some hy with ⟨rfl, -⟩ | ⟨hjk, hy'⟩
    · exact absurd rfl hij
    · exact hf x hx' j y hjk hy'
  · rcases getElem?_modify_eq_some hy with ⟨rfl, y, hy', rfl⟩ | ⟨hjk, hy'⟩
    · exact hsymm _ _ (hf y hy' i x hik hx')
    · exact h i j x y hij hx' hy'

/-! ## Slots and voices -/

/-- R36 (a) and (c) for two slots: they hold no note in common, and triggered slots differ in age. -/
def Slot.Apart (x y : Slot) : Prop :=
  ¬ (x.valid = true ∧ y.valid = true ∧ x.note = y.note) ∧ (0 < x.age → 0 < y.age → x.age ≠ y.age)

theorem Slot.Apart.symm {x y : Slot} (h : x.Apart y) : y.Apart x :=
  ⟨fun ⟨hy, hx, hn⟩ => h.1 ⟨hx, hy, hn.symm⟩, fun hy hx he => h.2 hx hy he.symm⟩

/-- R36 (b) and R170 (corner case (a)) for one slot: no age above the counter, a held slot triggered. -/
def Slot.Sound (ctr : ℕ) (x : Slot) : Prop := x.age ≤ ctr ∧ (x.valid = true → 0 < x.age)

theorem Slot.Sound.mono {ctr ctr' : ℕ} {x : Slot} (h : x.Sound ctr) (hle : ctr ≤ ctr') :
    x.Sound ctr' := ⟨h.1.trans hle, h.2⟩

/-- R29 and R31 for one voice. -/
structure Voice.Sound (c : Cfg) (v : Voice F32) : Prop where
  ungatedReleases : v.ungatedReleases
  gatedSounds : v.gatedSounds
  flushed : v.flushed c

/-- The invariant's part about the voices and the allocator. -/
structure PoolInv (c : Cfg) (voices : List (Voice F32)) (a : Alloc) : Prop where
  voiceCount : voices.length = c.nVoices
  slotCount : a.slots.length = c.nVoices
  apart : a.slots.Pairwise Slot.Apart
  sound : ∀ x ∈ a.slots, x.Sound a.ctr
  voiceSound : ∀ v ∈ voices, v.Sound c
  agree : ∀ p ∈ a.slots.zip voices, slotAgrees p

/-- The invariant in four parts: a well-formed configuration, the pool, the response, the buffers. -/
theorem inv_iff {s : State} : Inv s ↔ s.cfg.wf = true ∧ PoolInv s.cfg s.voices s.alloc ∧
    respFormat s.cfg s.resp ∧ s.fx.sized s.cfg := by
  constructor
  · intro h
    exact ⟨h.cfgWf, ⟨h.voiceCount, h.slotCount, h.notesApart.and h.agesApart,
      fun x hx => ⟨h.agesBounded x hx, h.heldTriggered x hx⟩,
      fun v hv => ⟨h.ungatedReleases v hv, h.gatedSounds v hv, h.flushed v hv⟩, h.slotsAgree⟩,
      h.resp, h.fxSized⟩
  · rintro ⟨hcfg, hpool, hresp, hfx⟩
    exact {
      cfgWf := hcfg
      voiceCount := hpool.voiceCount
      slotCount := hpool.slotCount
      notesApart := hpool.apart.imp And.left
      agesBounded := fun x hx => (hpool.sound x hx).1
      agesApart := hpool.apart.imp And.right
      heldTriggered := fun x hx => (hpool.sound x hx).2
      ungatedReleases := fun v hv => (hpool.voiceSound v hv).ungatedReleases
      gatedSounds := fun v hv => (hpool.voiceSound v hv).gatedSounds
      flushed := fun v hv => (hpool.voiceSound v hv).flushed
      slotsAgree := hpool.agree
      resp := hresp
      fxSized := hfx }

theorem forall_mem_zip_iff {β γ : Type} {P : β × γ → Prop} {l : List β} {l' : List γ} :
    (∀ p ∈ l.zip l', P p) ↔ ∀ (i : ℕ) (x : β) (y : γ), l[i]? = some x → l'[i]? = some y → P (x, y) := by
  constructor
  · intro h i x y hx hy
    exact h _ (List.mem_of_getElem? (List.getElem?_zip_eq_some.mpr ⟨hx, hy⟩))
  · intro h p hp
    obtain ⟨i, hi⟩ := List.mem_iff_getElem?.mp hp
    obtain ⟨hx, hy⟩ := List.getElem?_zip_eq_some.mp hi
    exact h i p.1 p.2 hx hy

/-- A slot and its voice changed together keep the pool's invariant when the two agree and are sound,
and the slot is apart from the others. -/
theorem PoolInv.modify {c : Cfg} {voices : List (Voice F32)} {a : Alloc} (h : PoolInv c voices a)
    {k ctr : ℕ} {f : Slot → Slot} {g : Voice F32 → Voice F32} (hctr : a.ctr ≤ ctr)
    (hslot : ∀ x, a.slots[k]? = some x →
      (f x).Sound ctr ∧ ∀ j y, j ≠ k → a.slots[j]? = some y → (f x).Apart y)
    (hvoice : ∀ x v, a.slots[k]? = some x → voices[k]? = some v →
      (g v).Sound c ∧ slotAgrees (f x, g v)) :
    PoolInv c (voices.modify k g) ⟨a.slots.modify k f, ctr⟩ where
  voiceCount := (List.length_modify ..).trans h.voiceCount
  slotCount := (List.length_modify ..).trans h.slotCount
  apart := pairwise_modify (fun _ _ => Slot.Apart.symm) h.apart fun x hx => (hslot x hx).2
  sound := forall_mem_modify (fun x hx => (h.sound x hx).mono hctr) fun x hx => (hslot x hx).1
  voiceSound := by
    refine forall_mem_modify h.voiceSound fun v hv => ?_
    have hk : k < a.slots.length := by
      rw [h.slotCount, ← h.voiceCount]
      exact (List.getElem?_eq_some_iff.mp hv).1
    exact (hvoice _ v (List.getElem?_eq_getElem hk) hv).1
  agree := by
    rw [forall_mem_zip_iff]
    intro i x v hx hv
    rcases getElem?_modify_eq_some hx with ⟨rfl, x, hx', rfl⟩ | ⟨hik, hx'⟩
    · rcases getElem?_modify_eq_some hv with ⟨-, v, hv', rfl⟩ | ⟨hne, -⟩
      · exact (hvoice x v hx' hv').2
      · exact absurd rfl hne
    · rcases getElem?_modify_eq_some hv with ⟨rfl, -⟩ | ⟨-, hv'⟩
      · exact absurd rfl hik
      · exact forall_mem_zip_iff.mp h.agree i x v hx' hv'

end Sys2Proof.Machine
end

section
/-! The reset state meets the invariant, and every step keeps it. -/

namespace Sys2Proof.Machine

/-! ## Reset -/

theorem nVoices_bounds {c : Cfg} (h : c.wf = true) : 1 ≤ c.nVoices ∧ c.nVoices ≤ 128 := by
  simp only [Cfg.wf, Cfg.poolWf, Bool.and_eq_true, decide_eq_true_iff] at h
  exact h.1.1

/-- The voices and the allocator at reset. -/
theorem poolInv_reset (c : Cfg) :
    PoolInv c (List.replicate c.nVoices Voice.reset) (Alloc.resetOf c) where
  voiceCount := List.length_replicate
  slotCount := List.length_replicate
  apart := List.pairwise_replicate.mpr
    (.inr ⟨fun h => Bool.false_ne_true h.1, fun h => absurd h (lt_irrefl 0)⟩)
  sound x hx := by
    rw [List.eq_of_mem_replicate hx]
    exact ⟨le_rfl, fun h => absurd h Bool.false_ne_true⟩
  voiceSound v hv := by
    rw [List.eq_of_mem_replicate hv]
    exact ⟨fun _ => ⟨rfl, rfl⟩, fun h => absurd h Bool.false_ne_true, .inl rfl, .inl rfl, .inl rfl⟩
  agree p hp := by
    obtain ⟨hslot, hvoice⟩ := List.of_mem_zip hp
    unfold slotAgrees
    rw [List.eq_of_mem_replicate hslot, List.eq_of_mem_replicate hvoice]
    exact ⟨rfl, fun h => absurd h Bool.false_ne_true⟩

@[simp] theorem stageInitial_length (kind : FxStage) (p : StageParams) :
    (stageInitial kind p).length = p.size := fitBuffer_length _ _

/-- The buffers' sizes in topology A (R38). -/
theorem fxSized_iff_of_a {c : Cfg} (h : c.fxTopology = .a) (x : FxState) :
    x.sized c ↔ x.mod.length = c.modFx.size ∧ x.amb.length = c.ambFx.size := by
  unfold FxState.sized
  rw [h]

/-- The buffers are absent in topology B (R38). -/
theorem fxSized_iff_of_b {c : Cfg} (h : c.fxTopology = .b) (x : FxState) :
    x.sized c ↔ x.mod = [] ∧ x.amb = [] := by
  unfold FxState.sized
  rw [h]

theorem fxResetOf_of_a {c : Cfg} (h : c.fxTopology = .a) : FxState.resetOf c =
    ⟨stageInitial .modulation c.modFx, stageInitial .ambience c.ambFx⟩ := by
  unfold FxState.resetOf
  rw [h]

theorem fxResetOf_of_b {c : Cfg} (h : c.fxTopology = .b) : FxState.resetOf c = ⟨[], []⟩ := by
  unfold FxState.resetOf
  rw [h]

theorem fxSized_reset (c : Cfg) : (FxState.resetOf c).sized c := by
  cases h : c.fxTopology with
  | a =>
    rw [fxSized_iff_of_a h, fxResetOf_of_a h]
    exact ⟨stageInitial_length _ _, stageInitial_length _ _⟩
  | b =>
    rw [fxSized_iff_of_b h, fxResetOf_of_b h]
    exact ⟨rfl, rfl⟩

theorem respFormat_zero {c : Cfg} (h : c.wf = true) : respFormat c 0x0000#16 :=
  ⟨by decide, (nVoices_bounds h).1⟩

/-- A state at reset in the fields the invariant reads meets it. -/
theorem inv_of_reset {s : State} (hcfg : s.cfg.wf = true)
    (hvoices : s.voices = List.replicate s.cfg.nVoices Voice.reset)
    (halloc : s.alloc = Alloc.resetOf s.cfg) (hfx : s.fx = FxState.resetOf s.cfg)
    (hresp : respFormat s.cfg s.resp) : Inv s := by
  rw [inv_iff, hvoices, halloc, hfx]
  exact ⟨hcfg, poolInv_reset _, hresp, fxSized_reset _⟩

/-- Settles O33: every slot is free and untriggered, every voice silent and at 0. -/
theorem resetMeetsInvariant : Obligations.ResetMeetsInvariant := by
  unfold Obligations.ResetMeetsInvariant
  intro c hc
  exact inv_of_reset hc rfl rfl rfl (respFormat_zero hc)

/-! ## The response -/

/-- A response naming a slot of the pool has the format of R44. -/
theorem respFormat_respWord {c : Cfg} (h : c.wf = true) (found : Bool) (kind : BitVec 2) {slot : ℕ}
    (hslot : slot < c.nVoices) : respFormat c (respWord found kind slot) := by
  have hpool := nVoices_bounds h
  have hzeros : (respWord found kind slot).extractLsb' 8 5 = 0#5 := by
    unfold respWord
    rw [BitVec.extractLsb'_append_eq_of_le (by norm_num)]
    exact BitVec.extractLsb'_append_eq_right
  have hindex : (respWord found kind slot).extractLsb' 0 8 = BitVec.ofNat 8 slot :=
    BitVec.extractLsb'_append_eq_right
  refine ⟨hzeros, ?_⟩
  rw [hindex, BitVec.toNat_ofNat, Nat.mod_eq_of_lt (by omega)]
  exact hslot

/-! ## NOTEON -/

/-- `chooseSlot` answers by the priorities of R170. -/
theorem chooseSlot_chosenBy {slots : List Slot} (h : slots ≠ []) (note : Note) :
    chosenBy slots note (chooseSlot slots note).1 (chooseSlot slots note).2 := by
  unfold chooseSlot
  cases hheld : slotHolding slots note with
  | some i => exact slotHolding_some hheld
  | none =>
    have hnone := slotHolding_none.mp hheld
    cases hfree : lowestFree slots with
    | some i => exact ⟨hnone, lowestFree_some hfree⟩
    | none =>
      have hvalid := lowestFree_none.mp hfree
      exact ⟨fun x hx => ⟨hvalid x hx, hnone x hx (hvalid x hx)⟩, oldestSlot_spec slots h⟩

/-- The chosen slot is one of the pool. -/
theorem chosenBy_lt {slots : List Slot} {note : Note} {slot : ℕ} {kind : NoteOnKind}
    (h : chosenBy slots note slot kind) : slot < slots.length := by
  cases kind with
  | held =>
    obtain ⟨x, hx, -⟩ := h
    exact (List.getElem?_eq_some_iff.mp hx).1
  | free =>
    obtain ⟨-, ⟨x, hx, -⟩, -⟩ := h
    exact (List.getElem?_eq_some_iff.mp hx).1
  | steal =>
    obtain ⟨-, x, hx, -⟩ := h
    exact (List.getElem?_eq_some_iff.mp hx).1

/-- No slot but the chosen one holds the note (R36 (a)). -/
theorem chosenBy_others {slots : List Slot} {note : Note} {slot : ℕ} {kind : NoteOnKind}
    (h : chosenBy slots note slot kind) (hapart : slots.Pairwise Slot.Apart) {j : ℕ} {y : Slot}
    (hj : j ≠ slot) (hy : slots[j]? = some y) (hvalid : y.valid = true) : y.note ≠ note := by
  have hmem := List.mem_of_getElem? hy
  cases kind with
  | held =>
    obtain ⟨x, hx, hxvalid, rfl⟩ := h
    have hxy := (pairwise_iff_getElem?_ne fun _ _ => Slot.Apart.symm).mp hapart j slot y x hj hy hx
    exact fun hn => hxy.1 ⟨hvalid, hxvalid, hn⟩
  | free => exact h.1 y hmem hvalid
  | steal => exact (h.1 y hmem).2

/-- A started voice (R151): gated, on its note, both envelopes in ATTACK. -/
theorem voiceNoteOn_started {α : Type} [N : NumDomain α] (c : Cfg) (note : Note)
    (velocity : Option Velocity) (v : Voice α) :
    let w := voiceNoteOn c note velocity v
    w.gate = true ∧ w.note = note ∧ w.aenv.stage = .attack ∧ w.fenv.stage = .attack := by
  simp only [voiceNoteOn]
  split <;> exact ⟨rfl, rfl, rfl, rfl⟩

/-- A started voice has its filter states cleared, or as they were (R151). -/
theorem voiceNoteOn_flushed (elem : ElemFn → F32 → F32) {c : Cfg} (note : Note)
    (velocity : Option Velocity) {v : Voice F32} (h : v.flushed c) :
    (voiceNoteOn (N := f32With elem) c note velocity v).flushed c := by
  unfold voiceNoteOn
  split
  · exact ⟨.inl F32.ofInt_zero, .inl F32.ofInt_zero, .inl F32.ofInt_zero⟩
  · exact h

theorem voiceNoteOn_sound (elem : ElemFn → F32 → F32) {c : Cfg} (note : Note)
    (velocity : Option Velocity) {v : Voice F32} (h : v.Sound c) :
    (voiceNoteOn (N := f32With elem) c note velocity v).Sound c := by
  obtain ⟨hgate, -, haenv, hfenv⟩ := voiceNoteOn_started (N := f32With elem) c note velocity v
  refine ⟨fun hg => ?_, fun _ => ?_, voiceNoteOn_flushed elem note velocity h.flushed⟩
  · rw [hgate] at hg
    cases hg
  · rw [haenv, hfenv]
    exact ⟨nofun, nofun⟩

theorem PoolInv.noteOn (elem : ElemFn → F32 → F32) {c : Cfg} {voices : List (Voice F32)} {a : Alloc}
    (h : PoolInv c voices a) {note : Note} (velocity : Option Velocity)
    (hchosen : chosenBy a.slots note (allocNoteOn a note).1.1 (allocNoteOn a note).1.2) :
    PoolInv c (voices.modify (allocNoteOn a note).1.1
      (voiceNoteOn (N := f32With elem) c note velocity)) (allocNoteOn a note).2 := by
  unfold allocNoteOn at hchosen ⊢
  dsimp only at hchosen ⊢
  rw [List.set_eq_modify]
  refine h.modify (Nat.le_succ _) (fun x _ => ⟨⟨le_rfl, fun _ => Nat.succ_pos _⟩, ?_⟩) ?_
  · intro j y hj hy
    have hage : y.age ≤ a.ctr := (h.sound y (List.mem_of_getElem? hy)).1
    exact ⟨fun ⟨_, hv, hn⟩ => chosenBy_others hchosen h.apart hj hy hv hn.symm,
      fun _ _ => (Nat.lt_succ_of_le hage).ne'⟩
  · intro x v _ hv
    obtain ⟨hgate, hnote, -⟩ := voiceNoteOn_started (N := f32With elem) c note velocity v
    exact ⟨voiceNoteOn_sound elem note velocity (h.voiceSound v (List.mem_of_getElem? hv)),
      hgate.symm, fun _ => hnote⟩

/-! ## NOTEOFF -/

/-- A voice released by its own note (R152). -/
theorem voiceNoteOff_self {note : Note} {v : Voice F32} (h : v.note = note) :
    voiceNoteOff note v =
      { v with gate := false, aenv := envGateOff v.aenv, fenv := envGateOff v.fenv } := if_pos h

theorem PoolInv.noteOff {c : Cfg} {voices : List (Voice F32)} {a : Alloc} (h : PoolInv c voices a)
    {note : Note} {i : ℕ} (hi : slotHolding a.slots note = some i) :
    PoolInv c (voices.modify i (voiceNoteOff note)) (allocNoteOff a note).2 := by
  have ha : (allocNoteOff a note).2 =
      ⟨a.slots.modify i fun x => { x with valid := false }, a.ctr⟩ := by
    simp [allocNoteOff, hi]
  rw [ha]
  refine h.modify le_rfl (fun x hx => ⟨⟨?_, nofun⟩, ?_⟩) ?_
  · exact (h.sound x (List.mem_of_getElem? hx)).1
  · intro j y hj hy
    have hxy := (pairwise_iff_getElem?_ne fun _ _ => Slot.Apart.symm).mp h.apart i j x y hj.symm hx hy
    exact ⟨fun hc => absurd hc.1 Bool.false_ne_true, hxy.2⟩
  · intro x v hx hv
    obtain ⟨y, hy, hvalid, hnote⟩ := slotHolding_some hi
    cases hx.symm.trans hy
    have hvnote := ((forall_mem_zip_iff.mp h.agree i x v hx hv).2 hvalid).trans hnote
    rw [voiceNoteOff_self hvnote]
    have hs := h.voiceSound v (List.mem_of_getElem? hv)
    exact ⟨⟨fun _ => ⟨rfl, rfl⟩, nofun, hs.flushed⟩, rfl, nofun⟩

/-! ## TICK -/

/-- A filter state as it is stored (R138). -/
theorem flushedState_fltFlush (elem : ElemFn → F32 → F32) (c : Cfg) (s : F32) :
    flushedState c (fltFlush (N := f32With elem) c s) := by
  unfold fltFlush
  split
  · exact .inl F32.ofInt_zero
  · next h => exact .inr (Bool.not_eq_true _ ▸ h)

/-- A step of the envelope neither enters nor leaves RELEASE (R123). -/
theorem envStep_release_iff {α : Type} [N : NumDomain α] (c : Cfg) (e : Env α) (sustain tA tD tR : α) :
    (envStep c e sustain tA tD tR).stage = .release ↔ e.stage = .release := by
  rcases envStep_stage c e sustain tA tD tR with h | ⟨ha, hd⟩
  · rw [h]
  · rw [ha, hd]
    exact ⟨nofun, nofun⟩

/-- A processed voice is in RELEASE exactly where it was (R153). -/
theorem voiceProcess_release_iff {α : Type} [N : NumDomain α] (c : Cfg) (p : Patch α) (v : Voice α) :
    ((voiceProcess c p v).2.aenv.stage = .release ↔ v.aenv.stage = .release) ∧
      ((voiceProcess c p v).2.fenv.stage = .release ↔ v.fenv.stage = .release) := by
  unfold voiceProcess
  split
  · exact ⟨envStep_release_iff .., envStep_release_iff ..⟩
  · exact ⟨Iff.rfl, Iff.rfl⟩

/-- A processed voice has its filter states flushed, or as they were (R138, R156). -/
theorem voiceProcess_flushed (elem : ElemFn → F32 → F32) {c : Cfg} (p : Patch F32) {v : Voice F32}
    (h : v.flushed c) : (voiceProcess (N := f32With elem) c p v).2.flushed c := by
  unfold voiceProcess
  split
  · exact ⟨flushedState_fltFlush .., flushedState_fltFlush .., flushedState_fltFlush ..⟩
  · exact h

theorem voiceProcess_sound (elem : ElemFn → F32 → F32) {c : Cfg} (p : Patch F32) {v : Voice F32}
    (h : v.Sound c) : (voiceProcess (N := f32With elem) c p v).2.Sound c := by
  obtain ⟨-, -, hgate⟩ := voiceProcess_frame (N := f32With elem) c p v
  obtain ⟨haenv, hfenv⟩ := voiceProcess_release_iff (N := f32With elem) c p v
  refine ⟨?_, ?_, voiceProcess_flushed elem p h.flushed⟩
  · unfold Voice.ungatedReleases
    rw [hgate, haenv, hfenv]
    exact h.ungatedReleases
  · unfold Voice.gatedSounds
    rw [hgate, Ne, haenv, Ne, hfenv]
    exact h.gatedSounds

/-- Voices changed in what the allocator does not see keep the pool's invariant (R174). -/
theorem PoolInv.map {c : Cfg} {voices : List (Voice F32)} {a : Alloc} (h : PoolInv c voices a)
    {g : Voice F32 → Voice F32} (hsound : ∀ v, v.Sound c → (g v).Sound c)
    (hframe : ∀ v, (g v).note = v.note ∧ (g v).gate = v.gate) : PoolInv c (voices.map g) a where
  voiceCount := (List.length_map ..).trans h.voiceCount
  slotCount := h.slotCount
  apart := h.apart
  sound := h.sound
  voiceSound := List.forall_mem_map.mpr fun v hv => hsound v (h.voiceSound v hv)
  agree := by
    rw [forall_mem_zip_iff]
    intro i x w hx hw
    rw [List.getElem?_map, Option.map_eq_some_iff] at hw
    obtain ⟨v, hv, rfl⟩ := hw
    obtain ⟨hnote, hgate⟩ := hframe v
    have hagree := forall_mem_zip_iff.mp h.agree i x v hx hv
    exact ⟨hagree.1.trans hgate.symm, fun hvalid => hnote.trans (hagree.2 hvalid)⟩

theorem PoolInv.tick (elem : ElemFn → F32 → F32) {c : Cfg} {voices : List (Voice F32)} {a : Alloc}
    (h : PoolInv c voices a) (p : Patch F32) (acc : F32) :
    PoolInv c (processVoices (N := f32With elem) c p acc voices).2 a := by
  rw [processVoices_eq (N := f32With elem)]
  refine h.map (fun _ => voiceProcess_sound elem p) fun v => ?_
  obtain ⟨hnote, -, hgate⟩ := voiceProcess_frame (N := f32With elem) c p v
  exact ⟨hnote, hgate⟩

/-- The chain steps the buffers of topology A, or leaves them as they are (R185). -/
theorem fxRun_buffers (c : Cfg) (x amt : F32) (st : FxState) :
    (fxRun c x amt st).2 = st ∨ c.fxTopology = .a ∧ ∃ y, (fxRun c x amt st).2 =
      ⟨(stageStep .modulation c.modFx st.mod x).1, (stageStep .ambience c.ambFx st.amb y).1⟩ := by
  unfold fxRun fxProcess
  split
  · exact .inl rfl
  · cases h : c.fxTopology with
    | a => exact .inr ⟨rfl, _, rfl⟩
    | b => exact .inl rfl

/-- The chain keeps its buffers at their sizes (R38, R187). -/
theorem fxRun_sized {c : Cfg} {st : FxState} (h : st.sized c) (x amt : F32) :
    (fxRun c x amt st).2.sized c := by
  rcases fxRun_buffers c x amt st with hkept | ⟨ha, y, hstep⟩
  · rwa [hkept]
  · rw [hstep, fxSized_iff_of_a ha]
    exact ⟨stageStep_length .., stageStep_length ..⟩

/-! ## The step -/

/-- Every command keeps the invariant. -/
theorem exec_keeps_inv {i : Instr} {s t : State} (h : Inv s) (ht : exec i s = .next t) : Inv t := by
  obtain ⟨hcfg, hpool, hresp, hfx⟩ := inv_iff.mp h
  cases i with
  | nop =>
    cases ht
    exact h
  | noteOn note velocity =>
    cases ht
    have hne : s.alloc.slots ≠ [] := List.length_pos_iff.mp <| by
      rw [hpool.slotCount]
      exact (nVoices_bounds hcfg).1
    have hchosen := chooseSlot_chosenBy hne note
    exact inv_iff.mpr ⟨hcfg, hpool.noteOn _ velocity hchosen,
      respFormat_respWord hcfg _ _ (hpool.slotCount ▸ chosenBy_lt hchosen), hfx⟩
  | noteOff note =>
    change execNoteOff note s = .next t at ht
    cases hi : slotHolding s.alloc.slots note with
    | none =>
      rw [execNoteOff_unheld hi] at ht
      cases ht
      exact inv_iff.mpr ⟨hcfg, hpool,
        respFormat_respWord hcfg _ _ (nVoices_bounds hcfg).1, hfx⟩
    | some k =>
      rw [execNoteOff_held hi] at ht
      cases ht
      obtain ⟨x, hx, -⟩ := slotHolding_some hi
      exact inv_iff.mpr ⟨hcfg, hpool.noteOff hi, respFormat_respWord hcfg _ _
        (hpool.slotCount ▸ (List.getElem?_eq_some_iff.mp hx).1), hfx⟩
  | setp addr value =>
    cases ht
    exact inv_iff.mpr ⟨hcfg, hpool, hresp, hfx⟩
  | tick =>
    cases ht
    exact inv_iff.mpr ⟨hcfg, hpool.tick _ _ _, hresp, fxRun_sized hfx _ _⟩
  | init =>
    cases ht
    exact inv_of_reset hcfg rfl rfl rfl hresp

/-- Settles O34: a step resets the state, changes nothing the invariant reads, or runs a command. -/
theorem stepKeepsInvariant : Obligations.StepKeepsInvariant := by
  unfold Obligations.StepKeepsInvariant
  intro s t h ht
  obtain ⟨hcfg, hpool, hresp, hfx⟩ := inv_iff.mp h
  rcases step_cases ht with rfl | rfl | rfl | ⟨i, rest, hexec⟩
  · exact inv_of_reset hcfg rfl rfl rfl (respFormat_zero hcfg)
  · exact inv_of_reset hcfg rfl rfl rfl (respFormat_zero hcfg)
  · exact inv_iff.mpr ⟨hcfg, hpool, hresp, hfx⟩
  · exact exec_keeps_inv (inv_iff.mpr ⟨hcfg, hpool, hresp, hfx⟩ : Inv (s.accept rest)) hexec

end Sys2Proof.Machine
end

section
/-! What a rounding keeps (R10): a bound that is a number of the format, and the order; and that it is a
function of the real number. -/

namespace Sys2Proof.Machine

/-! ## Finite numbers -/

theorem exists_fin_of_isFinite {a : F32} (h : a.isFinite = true) : ∃ s m, a = .fin s m := by
  cases a with
  | nan => cases h
  | inf => cases h
  | fin s m => exact ⟨s, m, rfl⟩

theorem le_iff_of_isFinite {a b : F32} (ha : a.isFinite = true) (hb : b.isFinite = true) :
    F32.le a b = true ↔ f32Real a ≤ f32Real b := by
  obtain ⟨s, m, rfl⟩ := exists_fin_of_isFinite ha
  obtain ⟨t, n, rfl⟩ := exists_fin_of_isFinite hb
  exact f32_le_iff s t m n

theorem lt_iff_of_isFinite {a b : F32} (ha : a.isFinite = true) (hb : b.isFinite = true) :
    F32.lt a b = true ↔ f32Real a < f32Real b := by
  obtain ⟨s, m, rfl⟩ := exists_fin_of_isFinite ha
  obtain ⟨t, n, rfl⟩ := exists_fin_of_isFinite hb
  exact f32_lt_iff s t m n

theorem eq_iff_of_isFinite {a b : F32} (ha : a.isFinite = true) (hb : b.isFinite = true) :
    F32.eq a b = true ↔ f32Real a = f32Real b := by
  obtain ⟨s, m, rfl⟩ := exists_fin_of_isFinite ha
  obtain ⟨t, n, rfl⟩ := exists_fin_of_isFinite hb
  exact f32_eq_iff s t m n

theorem le_of_lt_f32 {a b : F32} (h : F32.lt a b = true) : F32.le a b = true := by
  simp only [F32.lt, F32.le, Bool.and_eq_true, Bool.not_eq_true', decide_eq_true_iff] at *
  exact ⟨h.1, h.2.le⟩

@[simp] theorem isFinite_neg (a : F32) : (F32.neg a).isFinite = a.isFinite := by cases a <;> rfl

@[simp] theorem f32Real_fin_zero (s : Bool) : f32Real (.fin s 0) = 0 := by
  rw [f32Real_fin]
  cases s <;> simp

@[simp] theorem f32Real_zero : f32Real .zero = 0 := f32Real_fin_zero false

@[simp] theorem magReal_one : magReal 0x3F800000 = 1 := by
  have : magUnits 0x3F800000 = 2 ^ 149 := by decide
  rw [magReal, this, Nat.cast_pow, Nat.cast_ofNat]
  exact div_self (by positivity)

@[simp] theorem f32Real_one : f32Real .one = 1 := by
  rw [F32.one, f32Real_fin]
  exact magReal_one

theorem isFinite_zero : F32.isFinite .zero = true := rfl

theorem isFinite_one : F32.isFinite .one = true := rfl

/-- A number between finite ends is finite. -/
theorem isFinite_of_within {lo hi x : F32} (hlo : lo.isFinite = true) (hhi : hi.isFinite = true)
    (h : F32.within lo hi x) : x.isFinite = true := by
  obtain ⟨h1, h2⟩ := h
  cases x with
  | nan => simp at h1
  | fin => rfl
  | inf s =>
    cases s with
    | false =>
      have := lt_trans_le (lt_inf_of_isFinite hhi).2 h2
      simp [F32.lt] at this
    | true =>
      have := lt_trans_le (lt_inf_of_isFinite hlo).1 h1
      simp [F32.lt] at this

/-- The closed range between finite numbers, in the real numbers. -/
theorem within_iff {lo hi x : F32} (hlo : lo.isFinite = true) (hhi : hi.isFinite = true) :
    F32.within lo hi x ↔
      x.isFinite = true ∧ f32Real lo ≤ f32Real x ∧ f32Real x ≤ f32Real hi := by
  constructor
  · intro h
    have hx := isFinite_of_within hlo hhi h
    exact ⟨hx, (le_iff_of_isFinite hlo hx).mp h.1, (le_iff_of_isFinite hx hhi).mp h.2⟩
  · rintro ⟨hx, h1, h2⟩
    exact ⟨(le_iff_of_isFinite hlo hx).mpr h1, (le_iff_of_isFinite hx hhi).mpr h2⟩

/-- The unit interval of binary32, in the real numbers. -/
theorem within_zero_one_iff {x : F32} :
    F32.within .zero .one x ↔ x.isFinite = true ∧ 0 ≤ f32Real x ∧ f32Real x ≤ 1 := by
  simpa using within_iff isFinite_zero isFinite_one (x := x)

/-! ## The operations on finite numbers -/

section Operations
variable {a b : F32} (ha : a.isFinite = true) (hb : b.isFinite = true)
include ha hb

theorem roundedFrom_add_of_isFinite : roundedFrom (f32Real a + f32Real b) (F32.add a b) := by
  obtain ⟨s, m, rfl⟩ := exists_fin_of_isFinite ha
  obtain ⟨t, n, rfl⟩ := exists_fin_of_isFinite hb
  exact roundedFrom_sumOf _ s t m n

theorem roundedFrom_sub_of_isFinite : roundedFrom (f32Real a - f32Real b) (F32.sub a b) := by
  rw [sub_eq_add_neg, ← f32Real_neg]
  obtain ⟨s, m, rfl⟩ := exists_fin_of_isFinite ha
  obtain ⟨t, n, rfl⟩ := exists_fin_of_isFinite hb
  exact roundedFrom_sumOf _ s (!t) m n

theorem roundedFrom_mul_of_isFinite : roundedFrom (f32Real a * f32Real b) (F32.mul a b) := by
  obtain ⟨s, m, rfl⟩ := exists_fin_of_isFinite ha
  obtain ⟨t, n, rfl⟩ := exists_fin_of_isFinite hb
  exact roundedFrom_mul s t m n

theorem roundedFrom_div_of_isFinite (h0 : f32Real b ≠ 0) :
    roundedFrom (f32Real a / f32Real b) (F32.div a b) := by
  obtain ⟨s, m, rfl⟩ := exists_fin_of_isFinite ha
  obtain ⟨t, n, rfl⟩ := exists_fin_of_isFinite hb
  refine roundedFrom_div s t m n fun hn => h0 ?_
  rw [f32Real_fin, hn, magReal_zero]
  cases t <;> simp

end Operations

/-! ## Bounds -/

theorem abs_lt_overflowBound_of_isFinite {a : F32} (ha : a.isFinite = true) :
    |f32Real a| < overflowBound := by
  obtain ⟨s, m, rfl⟩ := exists_fin_of_isFinite ha
  exact abs_f32Real_lt_overflowBound s m

/-- Within the format's range a rounded number is the nearest finite one. -/
theorem nearestTo_of_roundedFrom {v : ℝ} {r : F32} (h : roundedFrom v r) (hv : |v| < overflowBound) :
    nearestTo v r := by
  obtain ⟨h1, h2⟩ := abs_lt.mp hv
  rcases h with ⟨-, hn⟩ | ⟨hge, -⟩ | ⟨hle, -⟩
  · exact hn
  · linarith
  · linarith

theorem nearestTo.isFinite {v : ℝ} {r : F32} (h : nearestTo v r) : r.isFinite = true := by
  obtain ⟨neg, mag, rfl, -⟩ := h
  rfl

theorem nearestTo.abs_le {v : ℝ} {r x : F32} (h : nearestTo v r) (hx : x.isFinite = true) :
    |f32Real r - v| ≤ |f32Real x - v| := by
  obtain ⟨neg, mag, rfl, hnear, -⟩ := h
  exact hnear x hx

/-- A number of the format not above a real number is not above what that is rounded to. -/
theorem le_of_roundedFrom {v : ℝ} {r a : F32} (h : roundedFrom v r) (ha : a.isFinite = true)
    (hav : f32Real a ≤ v) : F32.le a r = true := by
  rcases h with ⟨-, hn⟩ | ⟨-, rfl⟩ | ⟨hle, -⟩
  · rw [le_iff_of_isFinite ha hn.isFinite]
    by_contra hlt
    rw [not_le] at hlt
    have hnear := hn.abs_le ha
    rw [abs_of_nonpos (by linarith), abs_of_nonpos (by linarith)] at hnear
    linarith
  · exact le_of_lt_f32 (lt_inf_of_isFinite ha).2
  · have := (abs_lt.mp (abs_lt_overflowBound_of_isFinite ha)).1
    linarith

/-- A number of the format not below a real number is not below what that is rounded to. -/
theorem roundedFrom_le {v : ℝ} {r a : F32} (h : roundedFrom v r) (ha : a.isFinite = true)
    (hva : v ≤ f32Real a) : F32.le r a = true := by
  rcases h with ⟨-, hn⟩ | ⟨hge, -⟩ | ⟨-, rfl⟩
  · rw [le_iff_of_isFinite hn.isFinite ha]
    by_contra hlt
    rw [not_le] at hlt
    have hnear := hn.abs_le ha
    rw [abs_of_nonneg (by linarith), abs_of_nonneg (by linarith)] at hnear
    linarith
  · have := (abs_lt.mp (abs_lt_overflowBound_of_isFinite ha)).2
    linarith
  · exact le_of_lt_f32 (lt_inf_of_isFinite ha).1

/-- What lies between two numbers of the format is rounded to a number between them. -/
theorem roundedFrom_within {v : ℝ} {r lo hi : F32} (h : roundedFrom v r) (hlo : lo.isFinite = true)
    (hhi : hi.isFinite = true) (h1 : f32Real lo ≤ v) (h2 : v ≤ f32Real hi) : F32.within lo hi r :=
  ⟨le_of_roundedFrom h hlo h1, roundedFrom_le h hhi h2⟩

/-- What is not below a positive number of the format is rounded to a positive number. -/
theorem zero_lt_of_roundedFrom {v : ℝ} {r a : F32} (h : roundedFrom v r) (ha : a.isFinite = true)
    (hpos : 0 < f32Real a) (hav : f32Real a ≤ v) : F32.lt .zero r = true :=
  lt_trans_le ((lt_iff_of_isFinite isFinite_zero ha).mpr (by rwa [f32Real_zero]))
    (le_of_roundedFrom h ha hav)

/-- A number of the format is what it is rounded to. -/
theorem roundedFrom_exact_of_isFinite {r a : F32} (ha : a.isFinite = true)
    (h : roundedFrom (f32Real a) r) : r.isFinite = true ∧ f32Real r = f32Real a := by
  obtain ⟨s, m, rfl⟩ := exists_fin_of_isFinite ha
  exact roundedFrom_exact h

/-- 1 is rounded to `1.0` itself. -/
theorem eq_one_of_roundedFrom {r : F32} (h : roundedFrom 1 r) : r = .one := by
  obtain ⟨hfin, hr⟩ := roundedFrom_exact_of_isFinite isFinite_one (by rwa [f32Real_one])
  obtain ⟨s, m, rfl⟩ := exists_fin_of_isFinite hfin
  rw [f32Real_one, f32Real_fin] at hr
  cases s with
  | true => linarith [signed_true (magReal m), magReal_nonneg m]
  | false =>
    rw [signed_false, ← magReal_one] at hr
    exact congrArg _ (Fin.ext (magReal_strictMono.injective hr))

/-! ## Rounding is a function, and keeps the order -/

/-- Between two different numbers with an even last bit each there is a third. -/
theorem exists_between_of_even {s t : Bool} {m n : F32Mag} (hm : m.val % 2 = 0) (hn : n.val % 2 = 0)
    (hlt : f32Real (.fin s m) < f32Real (.fin t n)) :
    ∃ x : F32, x.isFinite = true ∧ f32Real (.fin s m) < f32Real x ∧ f32Real x < f32Real (.fin t n) := by
  have hm0 := magReal_nonneg m
  have hn0 := magReal_nonneg n
  have h1 : magReal 0 < magReal 1 := magReal_strictMono one_pos
  rw [magReal_zero] at h1
  rw [f32Real_fin, f32Real_fin] at hlt ⊢
  cases s with
  | false =>
    cases t with
    | false =>
      have hmn : m.val < n.val := magReal_strictMono.lt_iff_lt.mp hlt
      refine ⟨.fin false ⟨m + 1, by omega⟩, rfl, ?_, ?_⟩ <;> rw [f32Real_fin]
      · exact magReal_strictMono (Nat.lt_succ_self _)
      · exact magReal_strictMono (show m.val + 1 < n by omega)
    | true =>
      rw [signed_false, signed_true] at hlt
      linarith
  | true =>
    cases t with
    | false =>
      by_cases hm2 : m.val = 0
      · have hpos : 0 < n.val := by
          by_contra h0
          rw [hm2, Nat.eq_zero_of_not_pos h0] at hlt
          simp at hlt
        refine ⟨.fin false ⟨1, by norm_num⟩, rfl, ?_, ?_⟩ <;> rw [f32Real_fin]
        · rw [hm2]
          simpa using h1
        · exact magReal_strictMono (show 1 < n.val by omega)
      · refine ⟨.fin true ⟨1, by norm_num⟩, rfl, ?_, ?_⟩ <;> rw [f32Real_fin]
        · exact neg_lt_neg (magReal_strictMono (show 1 < m.val by omega))
        · exact lt_of_lt_of_le (neg_lt_zero.mpr h1) hn0
    | true =>
      have hmn : n.val < m.val := magReal_strictMono.lt_iff_lt.mp (neg_lt_neg_iff.mp hlt)
      refine ⟨.fin true ⟨n + 1, by omega⟩, rfl, ?_, ?_⟩ <;> rw [f32Real_fin]
      · exact neg_lt_neg (magReal_strictMono (show n.val + 1 < m by omega))
      · exact neg_lt_neg (magReal_strictMono (Nat.lt_succ_self _))

/-- Of two numbers nearest to the same real number, neither is below the other: both would have an even
last bit, and a third would be nearer. -/
theorem nearestTo.not_lt {v : ℝ} {r r' : F32} (h : nearestTo v r) (h' : nearestTo v r') :
    ¬ f32Real r < f32Real r' := by
  intro hlt
  have heq := le_antisymm (h.abs_le h'.isFinite) (h'.abs_le h.isFinite)
  have hmid : f32Real r + f32Real r' = 2 * v := by
    rcases abs_eq_abs.mp heq with hc | hc <;> linarith
  obtain ⟨x, hx, h1, h2⟩ : ∃ x : F32, x.isFinite = true ∧ f32Real r < f32Real x ∧
      f32Real x < f32Real r' := by
    obtain ⟨s, m, rfl, -, htie⟩ := h
    obtain ⟨t, n, rfl, -, htie'⟩ := h'
    exact exists_between_of_even (htie ⟨_, rfl, hlt.ne', heq.symm⟩) (htie' ⟨_, rfl, hlt.ne, heq⟩) hlt
  have hnear := h.abs_le hx
  rw [abs_of_neg (by linarith), abs_sub_comm, le_abs] at hnear
  rcases hnear with hc | hc <;> linarith

theorem nearestTo_unique {v : ℝ} {r r' : F32} (h : nearestTo v r) (h' : nearestTo v r') :
    f32Real r = f32Real r' :=
  le_antisymm (not_lt.mp (h'.not_lt h)) (not_lt.mp (h.not_lt h'))

/-- Rounding to nearest keeps the order. -/
theorem nearestTo_mono {v w : ℝ} {r r' : F32} (h : nearestTo v r) (h' : nearestTo w r') (hvw : v ≤ w) :
    f32Real r ≤ f32Real r' := by
  rcases hvw.eq_or_lt with rfl | hlt
  · exact (nearestTo_unique h h').le
  · by_contra hgt
    have h1 := (abs_sub_le_abs_sub_iff _ _ _).mp (h.abs_le h'.isFinite)
    have h2 := (abs_sub_le_abs_sub_iff _ _ _).mp (h'.abs_le h.isFinite)
    nlinarith [not_le.mp hgt]

theorem nearestTo_neg {v : ℝ} {r : F32} (h : nearestTo v r) : nearestTo (-v) (F32.neg r) := by
  have hflip : ∀ x : F32, |f32Real (F32.neg x) - v| = |f32Real x - -v| := fun x => by
    rw [f32Real_neg, ← abs_neg]
    ring_nf
  have hself : |f32Real (F32.neg r) - -v| = |f32Real r - v| := by
    rw [f32Real_neg, ← abs_neg]
    ring_nf
  obtain ⟨neg, mag, hr, hnear, htie⟩ := h
  refine ⟨!neg, mag, by rw [hr]; rfl, fun x hx => ?_, ?_⟩
  · rw [hself, ← hflip]
    exact hnear _ (by rwa [isFinite_neg])
  · rintro ⟨x, hx, hne, heq⟩
    refine htie ⟨F32.neg x, by rwa [isFinite_neg], fun hc => hne ?_, ?_⟩
    · rw [f32Real_neg, ← hc, f32Real_neg, neg_neg]
    · rw [hflip, heq, hself]

end Sys2Proof.Machine
end

section
/-! The phase of an oscillator (R22, R102): less its whole part, a number of the format is a number of
the format, so the wrap is exact. -/

namespace Sys2Proof.Machine

/-- The units of a magnitude are a significand of 24 bits in some binade. -/
theorem exists_significand (m : ℕ) : ∃ j k, j ≤ 2 ^ 24 ∧ magUnits m = j * 2 ^ k := by
  by_cases h : m < 0x800000
  · exact ⟨m, 0, by omega, by rw [magUnits, if_pos h, pow_zero, mul_one]⟩
  · exact ⟨0x800000 + m % 0x800000, m / 0x800000 - 1, by omega,
      by rw [magUnits, if_neg h, Nat.shiftLeft_eq]⟩

/-- What is left of a magnitude's units beyond the whole numbers is a magnitude's units. -/
theorem exists_magUnits_eq_mod (m : ℕ) : ∃ n, magUnits n = magUnits m % 2 ^ 149 := by
  obtain ⟨j, k, hj, hm⟩ := exists_significand m
  rw [hm]
  by_cases hk : 149 ≤ k
  · exact ⟨0, by rw [Nat.mod_eq_zero_of_dvd ((pow_dvd_pow 2 hk).mul_left j), magUnits_zero]⟩
  · obtain ⟨n, hn⟩ := exists_magUnits_eq ((Nat.mod_le j (2 ^ (149 - k))).trans hj) k
    refine ⟨n, ?_⟩
    rw [hn, ← Nat.mul_mod_mul_right, ← pow_add, Nat.sub_add_cancel (not_le.mp hk).le]

/-- The fraction part of a number of the format that is not below 0 is a number of the format. -/
theorem exists_f32_eq_fract {a : F32} (ha : a.isFinite = true) (h0 : 0 ≤ f32Real a) :
    ∃ b : F32, b.isFinite = true ∧ f32Real b = Int.fract (f32Real a) := by
  obtain ⟨s, m, rfl⟩ := exists_fin_of_isFinite ha
  have hreal : f32Real (.fin s m) = ((magUnits m : ℕ) : ℝ) / ((2 ^ 149 : ℕ) : ℝ) := by
    rw [← abs_of_nonneg h0, f32Real_fin, abs_signed, abs_of_nonneg (magReal_nonneg m), magReal,
      Nat.cast_pow, Nat.cast_ofNat]
  obtain ⟨n, hn⟩ := exists_magUnits_eq_mod m
  have hlt : n < 0x7F800000 := by
    refine (magUnits_le.mp ?_).trans_lt m.isLt
    rw [hn]
    exact Nat.mod_le _ _
  refine ⟨.fin false ⟨n, hlt⟩, rfl, ?_⟩
  rw [hreal, Int.fract_div_natCast_eq_div_natCast_mod, ← hn, f32Real_fin, signed_false, magReal,
    Nat.cast_pow, Nat.cast_ofNat]

/-- The wrap of a phase is exact (R102): its answer is the fraction part. -/
theorem f32Real_sub_floor {a : F32} (ha : a.isFinite = true) (h0 : 0 ≤ f32Real a) :
    (F32.sub a (F32.floor a)).isFinite = true ∧
      f32Real (F32.sub a (F32.floor a)) = Int.fract (f32Real a) := by
  obtain ⟨b, hb, hfract⟩ := exists_f32_eq_fract ha h0
  obtain ⟨hfloor, hval⟩ : (F32.floor a).isFinite = true ∧
      f32Real (F32.floor a) = ((⌊f32Real a⌋ : ℤ) : ℝ) := by
    obtain ⟨s, m, rfl⟩ := exists_fin_of_isFinite ha
    exact f32Real_floor s m
  have hsub := roundedFrom_sub_of_isFinite ha hfloor
  rw [hval, Int.self_sub_floor, ← hfract] at hsub
  rw [← hfract]
  exact roundedFrom_exact_of_isFinite hb hsub

/-- A finite number and 1 are below the range's end together. -/
theorem f32Real_add_one_le {a : F32} (ha : a.isFinite = true) : f32Real a + 1 ≤ overflowBound := by
  obtain ⟨s, m, rfl⟩ := exists_fin_of_isFinite ha
  have hmax : magReal 0x7F7FFFFF + 1 ≤ overflowBound := by
    have h : magUnits 0x7F7FFFFF = (2 ^ 24 - 1) * 2 ^ 253 := by decide
    rw [magReal, h, overflowBound]
    norm_num
  have hle : f32Real (.fin s m) ≤ magReal m := by
    rw [f32Real_fin]
    exact (le_abs_self _).trans_eq (by rw [abs_signed, abs_of_nonneg (magReal_nonneg m)])
  have := magReal_strictMono.monotone (show (m : ℕ) ≤ 0x7F7FFFFF by omega)
  linarith

/-- Settles O37: the advanced phase is finite, and its wrap leaves its fraction part. -/
theorem phaseStaysBelowOneInBinary32 : Obligations.PhaseStaysBelowOneInBinary32 := by
  unfold Obligations.PhaseStaysBelowOneInBinary32
  intro elem ph dt hph0 hph1 hdt0 hdt
  have hph : ph.isFinite = true :=
    isFinite_of_within isFinite_zero isFinite_one ⟨hph0, le_of_lt_f32 hph1⟩
  rw [le_iff_of_isFinite isFinite_zero hph, f32Real_zero] at hph0
  rw [lt_iff_of_isFinite hph isFinite_one, f32Real_one] at hph1
  rw [le_iff_of_isFinite isFinite_zero hdt, f32Real_zero] at hdt0
  have hnext := roundedFrom_add_of_isFinite hph hdt
  have hrange : |f32Real ph + f32Real dt| < overflowBound := by
    rw [abs_of_nonneg (by linarith)]
    linarith [f32Real_add_one_le hdt]
  have hfin := (nearestTo_of_roundedFrom hnext hrange).isFinite
  have h0 : 0 ≤ f32Real (F32.add ph dt) := by
    have := le_of_roundedFrom hnext isFinite_zero (by rw [f32Real_zero]; linarith)
    rwa [le_iff_of_isFinite isFinite_zero hfin, f32Real_zero] at this
  obtain ⟨hwrap, hval⟩ := f32Real_sub_floor hfin h0
  change F32.le .zero (F32.sub (F32.add ph dt) (F32.floor (F32.add ph dt))) = true ∧
    F32.lt (F32.sub (F32.add ph dt) (F32.floor (F32.add ph dt))) .one = true
  rw [le_iff_of_isFinite isFinite_zero hwrap, lt_iff_of_isFinite hwrap isFinite_one, hval,
    f32Real_zero, f32Real_one]
  exact ⟨Int.fract_nonneg _, Int.fract_lt_one _⟩

end Sys2Proof.Machine
end

section
/-! The envelope (R25, R120, R123): an update moves towards a target in the unit interval by a
coefficient in the unit interval, exactly in REAL, and with three roundings in binary32. -/

namespace Sys2Proof.Machine

/-! ## The stages -/

/-- What holds of 1, of 0 and of the sustain level holds of every stage's target (Table 42-1). -/
theorem stageTarget_of {α : Type} [N : NumDomain α] {P : α → Prop} {sustain : α} (h1 : P (N.ofInt 1))
    (h0 : P (N.ofInt 0)) (hs : P sustain) (st : Stage) : P (stageTarget st sustain) := by
  cases st with
  | attack => exact h1
  | decay => exact hs
  | release => exact h0

/-- What holds of the three times holds of every stage's time (Table 42-1). -/
theorem stageTime_of {α : Type} {P : α → Prop} {tA tD tR : α} (hA : P tA) (hD : P tD) (hR : P tR)
    (st : Stage) : P (stageTime st tA tD tR) := by
  cases st with
  | attack => exact hA
  | decay => exact hD
  | release => exact hR

/-! ## REAL -/

theorem decReal_pos {d : Dec} (h : d.pos = true) : 0 < decReal d := by
  simp only [Dec.pos, Dec.wf, Bool.and_eq_true, decide_eq_true_iff] at h
  have hnum : (0 : ℝ) < d.num := by exact_mod_cast h.2
  have hden : (0 : ℝ) < d.den := by exact_mod_cast h.1
  exact div_pos hnum hden

/-- A coefficient of REAL is that of a time not below `INSTANT_TIME` (R120). -/
theorem real_envCoef_eq_some {c : Cfg} {time k : ℝ} (h : envCoef (N := realDomain) c time = some k) :
    decReal c.instantTime ≤ time ∧ k = 1 - Real.exp (-1 / (time * decReal c.fs)) := by
  unfold envCoef at h
  split at h
  · cases h
  · next hlt =>
    cases h
    rw [realDomain_lt] at hlt
    refine ⟨not_lt.mp hlt, ?_⟩
    change ((1 : ℤ) : ℝ) - Real.exp (((-1 : ℤ) : ℝ) / (time * decReal c.fs)) = _
    push_cast
    rfl

/-- A coefficient of REAL lies in [0, 1) (R120). -/
theorem real_envCoef_mem {c : Cfg} {time k : ℝ} (hfs : c.fs.pos = true)
    (hinst : c.instantTime.pos = true) (h : envCoef (N := realDomain) c time = some k) :
    0 ≤ k ∧ k < 1 := by
  obtain ⟨htime, rfl⟩ := real_envCoef_eq_some h
  have hpos : 0 < time * decReal c.fs := mul_pos ((decReal_pos hinst).trans_le htime) (decReal_pos hfs)
  have hexp : Real.exp (-1 / (time * decReal c.fs)) ≤ 1 :=
    Real.exp_le_one_iff.mpr (div_nonpos_of_nonpos_of_nonneg (by norm_num) hpos.le)
  exact ⟨by linarith, by linarith [Real.exp_pos (-1 / (time * decReal c.fs))]⟩

/-- An update of REAL between numbers of the unit interval stays in it: it is their weighted mean. -/
theorem real_approach_mem {coef : Option ℝ} {val target : ℝ} (hk : ∀ k, coef = some k → 0 ≤ k ∧ k < 1)
    (hval : val ∈ Set.Icc (0 : ℝ) 1) (htarget : target ∈ Set.Icc (0 : ℝ) 1) :
    approach (N := realDomain) coef val target ∈ Set.Icc (0 : ℝ) 1 := by
  cases coef with
  | none => exact htarget
  | some k =>
    obtain ⟨hk0, hk1⟩ := hk k rfl
    have hmean : val + k * (target - val) = (1 - k) • val + k • target := by
      simp only [smul_eq_mul]
      ring
    rw [real_approach, hmean]
    exact convex_Icc 0 1 hval htarget (by linarith) hk0 (by ring)

/-- Settles O43: `exp` of a negative number is in (0, 1), and the update is a weighted mean. -/
theorem envelopeStaysInUnitInterval : Obligations.EnvelopeStaysInUnitInterval := by
  unfold Obligations.EnvelopeStaysInUnitInterval
  intro c e sustain tA tD tR hfs hinst hv0 hv1 hs0 hs1 _ _ _
  have htarget : stageTarget (N := realDomain) e.stage sustain ∈ Set.Icc (0 : ℝ) 1 :=
    stageTarget_of (N := realDomain) (P := (· ∈ Set.Icc (0 : ℝ) 1)) (by simp) (by simp) ⟨hs0, hs1⟩ e.stage
  exact ⟨fun k => real_envCoef_mem hfs hinst,
    real_approach_mem (fun k => real_envCoef_mem hfs hinst) ⟨hv0, hv1⟩ htarget⟩

end Sys2Proof.Machine
end

section
/-! The envelope of `CFG_REF` in binary32 (R25, U9): the three roundings of an update never carry the
value out of the unit interval. -/

namespace Sys2Proof.Machine

/-! ## The rounding error in the unit interval -/

/-- Every real number of the unit interval has a number of the format within 2^-25. -/
theorem exists_f32_near {v : ℝ} (h0 : 0 ≤ v) (h1 : v ≤ 1) :
    ∃ a : F32, a.isFinite = true ∧ |f32Real a - v| ≤ 1 / 2 ^ 25 := by
  have hx0 : 0 ≤ v * 2 ^ 24 + 1 / 2 := by positivity
  have hlo := Nat.floor_le hx0
  have hhi := Nat.lt_floor_add_one (v * 2 ^ 24 + 1 / 2)
  generalize ⌊v * 2 ^ 24 + 1 / 2⌋₊ = j at hlo hhi
  have hj : j ≤ 2 ^ 24 := by
    have : (j : ℝ) < ((2 ^ 24 + 1 : ℕ) : ℝ) := by
      push_cast
      linarith
    exact Nat.lt_succ_iff.mp (by exact_mod_cast this)
  obtain ⟨m, hm⟩ := exists_magUnits_eq hj 125
  have hlt : m < 0x7F800000 := by
    rw [← magUnits_lt, hm]
    calc j * 2 ^ 125 ≤ 2 ^ 24 * 2 ^ 125 := Nat.mul_le_mul_right _ hj
      _ < magUnits 0x7F800000 := by decide
  have hreal : magReal m = j / 2 ^ 24 := by
    rw [magReal, hm, Nat.cast_mul, Nat.cast_pow, Nat.cast_ofNat]
    field_simp
  refine ⟨.fin false ⟨m, hlt⟩, rfl, ?_⟩
  rw [f32Real_fin, signed_false]
  change |magReal m - v| ≤ _
  rw [hreal, abs_le]
  constructor <;> linarith

/-- A real number of the unit interval is rounded to a number of it, with an error of at most 2^-25. -/
theorem roundedFrom_unit {v : ℝ} {r : F32} (h : roundedFrom v r) (h0 : 0 ≤ v) (h1 : v ≤ 1) :
    F32.within .zero .one r ∧ |f32Real r - v| ≤ 1 / 2 ^ 25 := by
  have hone := abs_lt_overflowBound_of_isFinite isFinite_one
  rw [f32Real_one, abs_one] at hone
  have hn := nearestTo_of_roundedFrom h (by rw [abs_of_nonneg h0]; linarith)
  obtain ⟨a, ha, hnear⟩ := exists_f32_near h0 h1
  exact ⟨roundedFrom_within h isFinite_zero isFinite_one (by rwa [f32Real_zero]) (by rwa [f32Real_one]),
    (hn.abs_le ha).trans hnear⟩

/-- The number of the format after 1. -/
theorem f32Real_gt_one {a : F32} (ha : a.isFinite = true) (h : 1 < f32Real a) :
    1 + 1 / 2 ^ 23 ≤ f32Real a := by
  obtain ⟨s, m, rfl⟩ := exists_fin_of_isFinite ha
  rw [f32Real_fin] at h ⊢
  cases s with
  | true => linarith [signed_true (magReal m), magReal_nonneg m]
  | false =>
    rw [signed_false, ← magReal_one] at h
    have hnext : magReal (0x3F800000 + 1) = 1 + 1 / 2 ^ 23 := by
      have : magUnits (0x3F800000 + 1) = (2 ^ 23 + 1) * 2 ^ 126 := by decide
      rw [magReal, this]
      norm_num
    rw [signed_false, ← hnext]
    exact magReal_strictMono.monotone (magReal_strictMono.lt_iff_lt.mp h)

/-- Up to half the smallest error beyond 1 a real number is rounded into the unit interval. -/
theorem roundedFrom_unit_of_le {v : ℝ} {r : F32} (h : roundedFrom v r) (h0 : 0 ≤ v)
    (h1 : v ≤ 1 + 1 / 2 ^ 25) : F32.within .zero .one r := by
  by_cases hv : v ≤ 1
  · exact (roundedFrom_unit h h0 hv).1
  · have hn := nearestTo_of_roundedFrom h <| by
      have := f32Real_add_one_le isFinite_one
      rw [f32Real_one] at this
      rw [abs_of_nonneg h0]
      linarith
    have hle : f32Real r ≤ 1 := by
      by_contra hgt
      have hfar := f32Real_gt_one hn.isFinite (not_le.mp hgt)
      have hnear := hn.abs_le isFinite_one
      rw [f32Real_one, abs_of_nonneg (by linarith), abs_of_nonpos (by linarith)] at hnear
      linarith
    exact ⟨le_of_roundedFrom h isFinite_zero (by rwa [f32Real_zero]),
      (le_iff_of_isFinite hn.isFinite isFinite_one).mpr (by rwa [f32Real_one])⟩

theorem within_ofInt_one : F32.within .zero .one (F32.ofInt 1) := ⟨by decide, by decide⟩

theorem within_ofInt_zero : F32.within .zero .one (F32.ofInt 0) := ⟨by decide, by decide⟩

/-! ## One update -/

/-- An update upwards: the distance is rounded with an error of at most 2^-25, and of that the sum is
rounded down to 1 again. -/
theorem approach_up_unit (elem : ElemFn → F32 → F32) {k v t : F32} (hk : F32.within .zero .one k)
    (hv : F32.within .zero .one v) (ht : F32.within .zero .one t) (hvt : f32Real v ≤ f32Real t) :
    F32.within .zero .one (approach (N := f32With elem) (some k) v t) := by
  change F32.within .zero .one (F32.add v (F32.mul k (F32.sub t v)))
  rw [within_zero_one_iff] at hk hv ht
  obtain ⟨hkf, hk0, hk1⟩ := hk
  obtain ⟨hvf, hv0, hv1⟩ := hv
  obtain ⟨htf, ht0, ht1⟩ := ht
  obtain ⟨hd, herr⟩ := roundedFrom_unit (roundedFrom_sub_of_isFinite htf hvf) (by linarith) (by linarith)
  obtain ⟨hdf, hd0, -⟩ := within_zero_one_iff.mp hd
  have hp := roundedFrom_within (roundedFrom_mul_of_isFinite hkf hdf) isFinite_zero hdf
    (by rw [f32Real_zero]; positivity) (mul_le_of_le_one_left hd0 hk1)
  rw [within_iff isFinite_zero hdf, f32Real_zero] at hp
  obtain ⟨hpf, hp0, hpd⟩ := hp
  refine roundedFrom_unit_of_le (roundedFrom_add_of_isFinite hvf hpf) (by linarith) ?_
  linarith [(abs_le.mp herr).2]

/-- An update downwards: the distance is not below the negated value, which is a number of the format. -/
theorem approach_down_unit (elem : ElemFn → F32 → F32) {k v t : F32} (hk : F32.within .zero .one k)
    (hv : F32.within .zero .one v) (ht : F32.within .zero .one t) (hvt : f32Real t ≤ f32Real v) :
    F32.within .zero .one (approach (N := f32With elem) (some k) v t) := by
  change F32.within .zero .one (F32.add v (F32.mul k (F32.sub t v)))
  rw [within_zero_one_iff] at hk hv ht
  obtain ⟨hkf, hk0, hk1⟩ := hk
  obtain ⟨hvf, hv0, hv1⟩ := hv
  obtain ⟨htf, ht0, ht1⟩ := ht
  have hnf : (F32.neg v).isFinite = true := by rwa [isFinite_neg]
  have hd := roundedFrom_within (roundedFrom_sub_of_isFinite htf hvf) hnf isFinite_zero
    (by rw [f32Real_neg]; linarith) (by rw [f32Real_zero]; linarith)
  rw [within_iff hnf isFinite_zero, f32Real_neg, f32Real_zero] at hd
  obtain ⟨hdf, hdv, hd0⟩ := hd
  have hp := roundedFrom_within (roundedFrom_mul_of_isFinite hkf hdf) hdf isFinite_zero
    (by nlinarith) (by rw [f32Real_zero]; exact mul_nonpos_of_nonneg_of_nonpos hk0 hd0)
  rw [within_iff hdf isFinite_zero, f32Real_zero] at hp
  obtain ⟨hpf, hpd, hp0⟩ := hp
  exact roundedFrom_within (roundedFrom_add_of_isFinite hvf hpf) isFinite_zero isFinite_one
    (by rw [f32Real_zero]; linarith) (by rw [f32Real_one]; linarith)

/-- An update by a coefficient of the unit interval, or an instant one, stays in the unit interval. -/
theorem approach_unit (elem : ElemFn → F32 → F32) {coef : Option F32} {v t : F32}
    (hk : ∀ k, coef = some k → F32.within .zero .one k) (hv : F32.within .zero .one v)
    (ht : F32.within .zero .one t) :
    F32.within .zero .one (approach (N := f32With elem) coef v t) := by
  cases coef with
  | none => exact ht
  | some k =>
    rcases le_total (f32Real v) (f32Real t) with hvt | hvt
    · exact approach_up_unit elem (hk k rfl) hv ht hvt
    · exact approach_down_unit elem (hk k rfl) hv ht hvt

/-! ## The coefficient -/

/-- `FS` of `CFG_REF` is exact. -/
theorem f32Real_fs_ref :
    (F32.ofDec Cfg.ref.fs).isFinite = true ∧ f32Real (F32.ofDec Cfg.ref.fs) = 48000 := by
  have h : F32.ofDec Cfg.ref.fs = F32.ofInt 48000 := by decide
  rw [h]
  obtain ⟨hfin, hval⟩ := f32Real_ofInt (n := 48000) (by norm_num)
  exact ⟨hfin, by rw [hval]; norm_num⟩

/-- `INSTANT_TIME` of `CFG_REF` is longer than a sample. -/
theorem f32Real_instantTime_ref : (F32.ofDec Cfg.ref.instantTime).isFinite = true ∧
    1 / 48000 ≤ f32Real (F32.ofDec Cfg.ref.instantTime) := by
  have h : F32.ofDec Cfg.ref.instantTime = .fin false ⟨0x3A83126F, by decide⟩ := by decide
  have hm : magUnits 0x3A83126F = 8589935 * 2 ^ 116 := by decide
  rw [h, f32Real_fin, signed_false]
  refine ⟨rfl, ?_⟩
  change _ ≤ magReal 0x3A83126F
  rw [magReal, hm]
  norm_num

/-- A time that is not instant is at least one sample long in `CFG_REF`, possibly infinitely many. -/
theorem one_le_mul_fs {time : F32} (h0 : F32.le .zero time = true)
    (hlt : F32.lt time (F32.ofDec Cfg.ref.instantTime) = false) :
    F32.le .one (F32.mul time (F32.ofDec Cfg.ref.fs)) = true := by
  obtain ⟨hfs, hfsval⟩ := f32Real_fs_ref
  obtain ⟨hinst, hinstval⟩ := f32Real_instantTime_ref
  cases time with
  | nan s k => simp at h0
  | inf s =>
    cases s with
    | false => decide
    | true => exact absurd h0 (by decide)
  | fin s m =>
    have htime := le_of_lt_eq_false rfl (isNaN_of_isFinite hinst) hlt
    rw [le_iff_of_isFinite hinst rfl] at htime
    refine le_of_roundedFrom (roundedFrom_mul_of_isFinite rfl hfs) isFinite_one ?_
    rw [f32Real_one, hfsval]
    linarith

/-- The exponent of a coefficient lies in [-1, 0] (R120); it is `-0.0` for an infinite time. -/
theorem neg_one_div_within {r : F32} (h : F32.le .one r = true) :
    F32.within (F32.neg .one) .zero (F32.div (F32.neg .one) r) := by
  cases r with
  | nan s k => simp at h
  | inf s =>
    cases s with
    | false => exact ⟨by decide, by decide⟩
    | true => exact absurd h (by decide)
  | fin s m =>
    have hfin : (F32.neg .one).isFinite = true := rfl
    rw [le_iff_of_isFinite isFinite_one rfl, f32Real_one] at h
    have hpos : 0 < f32Real (.fin s m) := by linarith
    refine roundedFrom_within (roundedFrom_div_of_isFinite hfin rfl hpos.ne') hfin isFinite_zero ?_ ?_
    · rw [f32Real_neg, f32Real_one, neg_div, neg_le_neg_iff]
      exact (div_le_one hpos).mpr h
    · rw [f32Real_neg, f32Real_one, f32Real_zero, neg_div, neg_nonpos]
      positivity

/-- On [-1, 0] the `exp` of every provider lies in the unit interval (R12 (b)). -/
theorem exp_unit_of_props {elem : ElemFn → F32 → F32} (h : ElemProps elem ∨ ElemPropsInRange elem)
    {x : F32} (hx : F32.within (F32.neg .one) .zero x) : F32.within .zero .one (elem .exp x) := by
  have hfin := isFinite_of_within rfl isFinite_zero hx
  have hrange : F32.lt .zero (elem .exp x) = true ∧ F32.le (elem .exp x) .one = true := by
    rcases h with h | h
    · exact h.exp_range x ⟨hfin, hx.2⟩
    · have h80 : F32.lt (F32.ofInt (-80)) (F32.neg .one) = true := by decide
      exact h.exp_range x ⟨le_of_lt_f32 (lt_trans_le h80 hx.1), hx.2⟩
  exact ⟨le_of_lt_f32 hrange.1, hrange.2⟩

/-- A coefficient of binary32 is that of a time not below `INSTANT_TIME` (R120). -/
theorem f32_envCoef_eq_some {elem : ElemFn → F32 → F32} {c : Cfg} {time k : F32}
    (h : envCoef (N := f32With elem) c time = some k) :
    F32.lt time (F32.ofDec c.instantTime) = false ∧
      k = F32.sub .one (elem .exp (F32.div (F32.neg .one) (F32.mul time (F32.ofDec c.fs)))) := by
  unfold envCoef at h
  split at h
  · cases h
  · next hlt =>
    cases h
    rw [Bool.not_eq_true] at hlt
    exact ⟨hlt, by rw [← F32.ofInt_neg_one, ← F32.ofInt_one]; rfl⟩

/-- A coefficient of `CFG_REF` in binary32 lies in the unit interval (R120). -/
theorem envCoef_unit {elem : ElemFn → F32 → F32} (h : ElemProps elem ∨ ElemPropsInRange elem)
    {time k : F32} (h0 : F32.le .zero time = true)
    (hk : envCoef (N := f32With elem) Cfg.ref time = some k) : F32.within .zero .one k := by
  obtain ⟨hlt, rfl⟩ := f32_envCoef_eq_some hk
  have hexp := exp_unit_of_props h (neg_one_div_within (one_le_mul_fs h0 hlt))
  obtain ⟨hef, he0, he1⟩ := within_zero_one_iff.mp hexp
  refine (roundedFrom_unit (roundedFrom_sub_of_isFinite isFinite_one hef) ?_ ?_).1 <;>
    rw [f32Real_one] <;> linarith

end Sys2Proof.Machine
end

section
/-! The elementary functions of `CFG_REF` have the properties of R12 in the range the rules use (log 12),
since rounding keeps the order and the bounds that the real functions have. -/

namespace Sys2Proof.Machine

/-- The reference functions answer the real ones rounded once (R11), on every finite operand. -/
theorem reference_exp_rounded {x : F32} (hx : x.isFinite = true) :
    roundedFrom (Real.exp (f32Real x)) (elemApply .reference .exp x) := by
  obtain ⟨s, m, rfl⟩ := exists_fin_of_isFinite hx
  exact (referenceExpAndExp2AreCorrectlyRounded s m).1

theorem reference_exp2_rounded {x : F32} (hx : x.isFinite = true) :
    roundedFrom ((2 : ℝ) ^ f32Real x) (elemApply .reference .exp2 x) := by
  obtain ⟨s, m, rfl⟩ := exists_fin_of_isFinite hx
  exact (referenceExpAndExp2AreCorrectlyRounded s m).2.1

theorem reference_tanh_rounded {x : F32} (hx : x.isFinite = true) :
    roundedFrom (Real.tanh (f32Real x)) (elemApply .reference .tanh x) := by
  obtain ⟨s, m, rfl⟩ := exists_fin_of_isFinite hx
  exact (referenceTanhIsCorrectlyRounded s m).1

theorem reference_sin_rounded {x : F32} (hx : x.isFinite = true) :
    roundedFrom (Real.sin (f32Real x)) (elemApply .reference .sin x) := by
  obtain ⟨s, m, rfl⟩ := exists_fin_of_isFinite hx
  exact (referenceSinAndTanAreCorrectlyRounded s m).1

theorem reference_tan_rounded {x : F32} (hx : x.isFinite = true) :
    roundedFrom (Real.tan (f32Real x)) (elemApply .reference .tan x) := by
  obtain ⟨s, m, rfl⟩ := exists_fin_of_isFinite hx
  exact (referenceSinAndTanAreCorrectlyRounded s m).2.1

/-! ## exp2 and exp -/

/-- The smallest normal number, 2^-126. -/
theorem f32Real_smallest_normal : f32Real (.fin false ⟨0x800000, by decide⟩) = 1 / 2 ^ 126 := by
  have h : magUnits 0x800000 = 2 ^ 23 := by decide
  rw [f32Real_fin, signed_false]
  change magReal 0x800000 = _
  rw [magReal, h]
  norm_num

/-- What is at least 2^-126 is rounded to a positive number. -/
theorem zero_lt_of_roundedFrom_normal {v : ℝ} {r : F32} (h : roundedFrom v r)
    (hv : 1 / 2 ^ 126 ≤ v) : F32.lt .zero r = true :=
  zero_lt_of_roundedFrom h (a := .fin false ⟨0x800000, by decide⟩) rfl
    (by rw [f32Real_smallest_normal]; positivity) (by rwa [f32Real_smallest_normal])

theorem reference_exp2_pos {x : F32} (hx : F32.within (F32.ofInt (-126)) (F32.ofInt 127) x) :
    F32.lt .zero (elemApply .reference .exp2 x) = true := by
  obtain ⟨hlo, hloval⟩ := f32Real_ofInt (n := -126) (by norm_num)
  obtain ⟨hhi, -⟩ := f32Real_ofInt (n := 127) (by norm_num)
  rw [within_iff hlo hhi, hloval] at hx
  obtain ⟨hfin, hge, -⟩ := hx
  refine zero_lt_of_roundedFrom_normal (reference_exp2_rounded hfin) ?_
  calc (1 : ℝ) / 2 ^ 126 = 2 ^ (((-126 : ℤ) : ℝ)) := by rw [Real.rpow_intCast]; norm_num
    _ ≤ 2 ^ f32Real x := Real.rpow_le_rpow_of_exponent_le one_le_two hge

theorem exp_80_le : Real.exp (80 : ℕ) ≤ 2 ^ 126 := by
  have h : Real.exp 1 ≤ 2.7182818286 := Real.exp_one_lt_d9.le
  calc Real.exp (80 : ℕ) = Real.exp 1 ^ 80 := by rw [← Real.exp_nat_mul, mul_one]
    _ ≤ 2.7182818286 ^ 80 := by gcongr
    _ ≤ 2 ^ 126 := by norm_num

theorem reference_exp_range {x : F32} (hx : F32.within (F32.ofInt (-80)) .zero x) :
    F32.lt .zero (elemApply .reference .exp x) = true ∧
      F32.le (elemApply .reference .exp x) .one = true := by
  obtain ⟨hlo, hloval⟩ := f32Real_ofInt (n := -80) (by norm_num)
  rw [within_iff hlo isFinite_zero, hloval, f32Real_zero] at hx
  obtain ⟨hfin, hge, hle⟩ := hx
  have hr := reference_exp_rounded hfin
  refine ⟨zero_lt_of_roundedFrom_normal hr ?_, roundedFrom_le hr isFinite_one ?_⟩
  · calc (1 : ℝ) / 2 ^ 126 ≤ 1 / Real.exp (80 : ℕ) := one_div_le_one_div_of_le (Real.exp_pos _) exp_80_le
      _ = Real.exp (-(80 : ℕ)) := by rw [Real.exp_neg, one_div]
      _ ≤ Real.exp (f32Real x) := Real.exp_le_exp.mpr (by push_cast at hge ⊢; exact hge)
  · rw [f32Real_one]
    exact Real.exp_le_one_iff.mpr hle

/-! ## tan -/

/-- The largest operand of the filter's tangent, `0.49 · PI` in binary32, is below 1.54. -/
theorem f32Real_tan_limit : (F32.mul (F32.ofDec ⟨49, 100⟩) F32.pi).isFinite = true ∧
    f32Real (F32.mul (F32.ofDec ⟨49, 100⟩) F32.pi) ≤ 1.54 := by
  have h : F32.mul (F32.ofDec ⟨49, 100⟩) F32.pi = .fin false ⟨0x3FC50A6B, by decide⟩ := by decide
  have hm : magUnits 0x3FC50A6B = 12913259 * 2 ^ 126 := by decide
  rw [h, f32Real_fin, signed_false]
  refine ⟨rfl, ?_⟩
  change magReal 0x3FC50A6B ≤ _
  rw [magReal, hm]
  norm_num

/-- Up to 1.54 the tangent of a positive number is above the number and at most 100. -/
theorem tan_bounds {x : ℝ} (h0 : 0 < x) (h1 : x ≤ 1.54) : x < Real.tan x ∧ Real.tan x ≤ 100 := by
  have hpi := Real.pi_gt_d2
  have hlt : x < Real.pi / 2 := by linarith
  have hco : Real.pi / 2 - x < Real.tan (Real.pi / 2 - x) := Real.lt_tan (by linarith) (by linarith)
  rw [Real.tan_pi_div_two_sub] at hco
  refine ⟨Real.lt_tan h0 hlt, ?_⟩
  have hinv : (100 : ℝ)⁻¹ ≤ Real.pi / 2 - x := by linarith
  exact (inv_le_inv₀ (by norm_num) (Real.tan_pos_of_pos_of_lt_pi_div_two h0 hlt)).mp
    (hinv.trans hco.le)

theorem reference_tan_pos {x : F32} (h0 : F32.lt .zero x = true)
    (hx : F32.le x (F32.mul (F32.ofDec ⟨49, 100⟩) F32.pi) = true) :
    (elemApply .reference .tan x).isFinite = true ∧ F32.lt .zero (elemApply .reference .tan x) = true := by
  obtain ⟨hc, hcval⟩ := f32Real_tan_limit
  have hfin := isFinite_of_within isFinite_zero hc ⟨le_of_lt_f32 h0, hx⟩
  rw [lt_iff_of_isFinite isFinite_zero hfin, f32Real_zero] at h0
  rw [le_iff_of_isFinite hfin hc] at hx
  obtain ⟨hlo, hhi⟩ := tan_bounds h0 (hx.trans hcval)
  have hr := reference_tan_rounded hfin
  obtain ⟨h100, h100val⟩ := f32Real_ofInt (n := 100) (by norm_num)
  refine ⟨?_, zero_lt_of_roundedFrom hr hfin h0 hlo.le⟩
  exact isFinite_of_within hfin h100
    (roundedFrom_within hr hfin h100 hlo.le (by rw [h100val]; exact_mod_cast hhi))

/-! ## sin and tanh -/

/-- What lies in [-1, 1] is rounded to a number of [-1, 1]. -/
theorem roundedFrom_within_one {v : ℝ} {r : F32} (h : roundedFrom v r) (h1 : -1 ≤ v) (h2 : v ≤ 1) :
    F32.within (F32.neg .one) .one r :=
  roundedFrom_within h rfl isFinite_one (by rwa [f32Real_neg, f32Real_one]) (by rwa [f32Real_one])

theorem reference_tanh_within {x : F32} (hx : x.isFinite = true) :
    F32.within (F32.neg .one) .one (elemApply .reference .tanh x) :=
  roundedFrom_within_one (reference_tanh_rounded hx) (Real.neg_one_lt_tanh _).le (Real.tanh_lt_one _).le

/-- The reference `tanh` is the finite number nearest to the hyperbolic tangent. -/
theorem reference_tanh_nearest {x : F32} (hx : x.isFinite = true) :
    nearestTo (Real.tanh (f32Real x)) (elemApply .reference .tanh x) := by
  refine nearestTo_of_roundedFrom (reference_tanh_rounded hx) ?_
  have h := abs_lt_overflowBound_of_isFinite isFinite_one
  rw [f32Real_one, abs_one] at h
  exact (abs_lt.mpr ⟨Real.neg_one_lt_tanh _, Real.tanh_lt_one _⟩).trans h

theorem reference_tanh_zero (s : Bool) :
    F32.eq (elemApply .reference .tanh (.fin s 0)) .zero = true := by
  have hr := reference_tanh_rounded (x := .fin s 0) rfl
  rw [f32Real_fin_zero, Real.tanh_zero, ← f32Real_zero] at hr
  obtain ⟨hfin, hval⟩ := roundedFrom_exact_of_isFinite isFinite_zero hr
  exact (eq_iff_of_isFinite hfin isFinite_zero).mpr hval

theorem reference_tanh_odd {x : F32} (hx : x.isFinite = true) :
    F32.eq (elemApply .reference .tanh (F32.neg x)) (F32.neg (elemApply .reference .tanh x)) = true := by
  have hneg := reference_tanh_nearest (x := F32.neg x) (by rwa [isFinite_neg])
  have hpos := nearestTo_neg (reference_tanh_nearest hx)
  rw [f32Real_neg, Real.tanh_neg] at hneg
  exact (eq_iff_of_isFinite hneg.isFinite hpos.isFinite).mpr (nearestTo_unique hneg hpos)

theorem tanh_mono : Monotone Real.tanh := fun x y h => by
  have hx := Real.artanh_tanh x
  have hy := Real.artanh_tanh y
  rwa [← Real.artanh_le_artanh_iff ⟨Real.neg_one_lt_tanh x, Real.tanh_lt_one x⟩
    ⟨Real.neg_one_lt_tanh y, Real.tanh_lt_one y⟩, hx, hy]

theorem reference_tanh_mono {x y : F32} (h : F32.le x y = true) (hx : x.isFinite = true)
    (hy : y.isFinite = true) :
    F32.le (elemApply .reference .tanh x) (elemApply .reference .tanh y) = true := by
  have hnx := reference_tanh_nearest hx
  have hny := reference_tanh_nearest hy
  rw [le_iff_of_isFinite hx hy] at h
  rw [le_iff_of_isFinite hnx.isFinite hny.isFinite]
  exact nearestTo_mono hnx hny (tanh_mono h)

/-! ## R12 -/

theorem elemApply_reference_props : ElemPropsInRange (elemApply .reference) where
  exp2_pos _ hx := reference_exp2_pos hx
  exp2_zero s := eq_one_of_roundedFrom <| by
    have h := reference_exp2_rounded (x := .fin s 0) rfl
    rwa [f32Real_fin_zero, Real.rpow_zero] at h
  exp_range _ hx := reference_exp_range hx
  exp_zero s := eq_one_of_roundedFrom <| by
    have h := reference_exp_rounded (x := .fin s 0) rfl
    rwa [f32Real_fin_zero, Real.exp_zero] at h
  tan_pos _ h0 hx := reference_tan_pos h0 hx
  sin_range _ hx :=
    roundedFrom_within_one (reference_sin_rounded hx) (Real.neg_one_le_sin _) (Real.sin_le_one _)
  tanh_range _ hx := reference_tanh_within hx
  tanh_zero := reference_tanh_zero
  tanh_odd _ hx := reference_tanh_odd hx
  tanh_mono _ _ h hx hy := reference_tanh_mono h hx hy

/-- Settles O36: a coefficient and a target in the unit interval keep the value in it, whatever the
roundings; and the correctly rounded functions have the bounds of the real ones. -/
theorem envelopeStaysInUnitIntervalInBinary32 : Obligations.EnvelopeStaysInUnitIntervalInBinary32 := by
  unfold Obligations.EnvelopeStaysInUnitIntervalInBinary32
  refine ⟨fun elem e sustain tA tD tR helem hval hsustain hA hD hR => ?_, elemApply_reference_props,
    elemApply_other_props⟩
  have htime : F32.le .zero (stageTime e.stage tA tD tR) = true :=
    stageTime_of (P := fun t => F32.le .zero t = true) hA hD hR e.stage
  have htarget : F32.within .zero .one (stageTarget (N := f32With elem) e.stage sustain) :=
    stageTarget_of (N := f32With elem) (P := F32.within .zero .one) within_ofInt_one
      within_ofInt_zero hsustain e.stage
  exact approach_unit elem (fun _ => envCoef_unit helem htime) hval htarget

end Sys2Proof.Machine
end

section
/-! The parameter registers as the address space of SETP and of the sanitised read (`20_memory.md`). -/

namespace Sys2Proof.Machine

/-! ## The address map -/

/-- The unmapped addresses (R70). -/
theorem paramAt_eq_none_iff (a : Addr) :
    paramAt a = none ↔ ¬ (a.toNat ≤ 0x08 ∨ (0x10 ≤ a.toNat ∧ a.toNat ≤ 0x14)) := by
  unfold paramAt
  split
  case h_15 => -- the address is none of the fourteen
    simp only [imp_false] at *
    simp only [true_iff]
    omega
  all_goals
    simp only [reduceCtorEq, false_iff, not_not]
    omega

/-- Two addresses that name one register are one address. -/
theorem paramAt_inj {a b : Addr} {r : ParamReg} (ha : paramAt a = some r) (hb : paramAt b = some r) :
    b = a :=
  (addr_of_paramAt b r hb).symm.trans (addr_of_paramAt a r ha)

/-- A read at a register's own address (R64). -/
theorem memRead_addr (p : Params) (r : ParamReg) : memRead p r.addr = some (p.get r) := by
  rw [memRead, paramAt_addr, Option.map_some]

theorem memRead_eq_none_iff {p : Params} {a : Addr} : memRead p a = none ↔ paramAt a = none :=
  Option.map_eq_none_iff

/-- Settles O13: a register reads at its own address, and `paramAt` names no others. -/
theorem addressMap : Obligations.AddressMap := by
  unfold Obligations.AddressMap
  intro p
  exact ⟨memRead_addr p .pCutoff, memRead_addr p .pDrive, memRead_addr p .pSub, memRead_addr p .pFold,
    memRead_addr p .pDecay, memRead_addr p .pAenvDepth, memRead_addr p .pFenvDepth, memRead_addr p .pFx,
    memRead_addr p .pBend, memRead_addr p .dCutoffHz, memRead_addr p .dDriveAmt,
    memRead_addr p .dResonance, memRead_addr p .dDecayS, memRead_addr p .dFenvDepth,
    fun a => memRead_eq_none_iff.trans (paramAt_eq_none_iff a)⟩

/-! ## The write -/

/-- What a read returns after a write to the same address and to another one (R63, R64). -/
theorem memRead_memWrite (p : Params) (a b : Addr) (v : Word) :
    memRead (memWrite p a v) b = if b = a then (memRead p a).map (fun _ => v) else memRead p b := by
  cases ha : paramAt a with
  | none =>
    rw [memWrite_unmapped p a v ha]
    split
    · next hba => rw [hba, memRead_eq_none_iff.mpr ha, Option.map_none]
    · rfl
  | some r =>
    rw [memWrite_mapped p a v r ha]
    split
    · next hba => simp [hba, memRead, ha, Params.get_set]
    · next hba =>
      have hne : ∀ q, paramAt b = some q → q ≠ r := fun q hq hqr => hba (paramAt_inj ha (hqr ▸ hq))
      unfold memRead
      cases hb : paramAt b with
      | none => rfl
      | some q => rw [Option.map_some, Option.map_some, Params.get_set, if_neg (hne q hb)]

/-- Settles O14: SETP is the write of the register space, and no other field is named. -/
theorem setpWritesOneRegister : Obligations.SetpWritesOneRegister := by
  unfold Obligations.SetpWritesOneRegister
  intro s a v
  exact ⟨memWrite s.params a v, rfl, fun b => memRead_memWrite s.params a b v,
    fun h => memWrite_unmapped s.params a v (memRead_eq_none_iff.mp h)⟩

/-! ## The sanitised read -/

/-- In binary32 the low end of a range is the number of Table 20-1. -/
theorem lo_eq_tableRange (c : Cfg) (r : ParamReg) :
    r.lo (N := f32Domain c.elem) c = (tableRange c r).1 := by
  cases r with
  | pBend => exact F32.ofInt_neg_one
  | dCutoffHz => rfl
  | _ => exact F32.ofInt_zero

/-- In binary32 the high end of a range is the number of Table 20-1, in each mode of the filter
envelope. -/
theorem hi_eq_tableRange (c : Cfg) (r : ParamReg) :
    r.hi (N := f32Domain c.elem) c = (tableRange c r).2 := by
  cases r with
  | dCutoffHz | dDecayS => rfl
  | dFenvDepth =>
    unfold ParamReg.hi tableRange
    cases c.fenvMode with
    | addHz => rfl
    | sweep => exact congrArg some F32.ofInt_one
  | _ => exact congrArg some F32.ofInt_one

/-- The clamp of R14, its two low branches as one. -/
theorem san_eq_ite (elem : ElemFn → F32 → F32) (x lo : F32) (hi : Option F32) :
    san (N := f32With elem) x lo hi =
      if x.isNaN = true ∨ F32.lt x lo = true then lo
      else match hi with
        | some h => if F32.lt h x = true then h else x
        | none => x := by
  split
  · next h => exact h.elim (san_of_isNaN elem) (san_of_lt elem)
  · next h =>
    obtain ⟨hn, hlo⟩ := not_or.mp h
    have hn := eq_false_of_ne_true hn
    have hlo := eq_false_of_ne_true hlo
    cases hi with
    | none => exact san_of_mem elem hn hlo nofun
    | some top =>
      cases htop : F32.lt top x with
      | true => exact (san_of_gt elem hn hlo htop).trans (if_pos htop).symm
      | false =>
        exact (san_of_mem elem hn hlo fun _ he => Option.some.inj he ▸ htop).trans
          (if_neg (ne_true_of_eq_false htop)).symm

/-- Settles O16: the clamp of R14 at the ends of Table 20-1. -/
theorem sanitisedRead : Obligations.SanitisedRead := by
  unfold Obligations.SanitisedRead
  intro c p r x lo
  rw [rd, lo_eq_tableRange, hi_eq_tableRange]
  exact san_eq_ite _ _ _ _

end Sys2Proof.Machine
end

section
/-! The four raw controls that no operation reads (R66): two states that differ in them alone stay such
a pair under every step, and look alike to a driver. -/

namespace Sys2Proof.Machine

/-! ## Registers that agree where they are read -/

/-- The registers that some operation reads are equal (R66). -/
def Params.ReadAlike (p q : Params) : Prop := ∀ r : ParamReg, r.unread = false → q.get r = p.get r

theorem Params.ReadAlike.refl (p : Params) : p.ReadAlike p := fun _ _ => rfl

/-- A write keeps the agreement, also one to an unread register. -/
theorem Params.ReadAlike.write {p q : Params} (h : p.ReadAlike q) (a : Addr) (v : Word) :
    (memWrite p a v).ReadAlike (memWrite q a v) := by
  intro r hr
  cases ha : paramAt a with
  | none => rw [memWrite_unmapped q a v ha, memWrite_unmapped p a v ha, h r hr]
  | some k =>
    rw [memWrite_mapped q a v k ha, memWrite_mapped p a v k ha, Params.get_set, Params.get_set, h r hr]

/-- The sanitised read (R65) of a register that is read. -/
theorem Params.ReadAlike.rd_eq {p q : Params} (h : p.ReadAlike q) (c : Cfg) {r : ParamReg}
    (hr : r.unread = false) : rd c q r = rd c p r := by
  rw [rd, rd, h r hr]

/-- A TICK's patch holds no unread register. -/
theorem Params.ReadAlike.readPatch_eq {p q : Params} (h : p.ReadAlike q) (c : Cfg) :
    readPatch c q = readPatch c p := by
  simp only [readPatch, Patch.mk.injEq]
  have hrd {r : ParamReg} (hr : r.unread = false) : rd c q r = rd c p r := h.rd_eq c hr
  exact ⟨hrd rfl, hrd rfl, hrd rfl, hrd rfl, hrd rfl, hrd rfl, hrd rfl, hrd rfl, hrd rfl, hrd rfl⟩

/-! ## Runs side by side -/

/-- The two outcomes are next states that differ in unread registers alone. -/
def OutcomesAlike (o o' : Host.Outcome State Fault Refusal) : Prop :=
  ∃ t q, o = .next t ∧ o' = .next { t with params := q } ∧ t.params.ReadAlike q

theorem tickSample_of_readAlike {s : State} {q : Params} (h : s.params.ReadAlike q) :
    tickSample { s with params := q } = tickSample s := by
  simp only [tickSample, h.readPatch_eq s.cfg]

/-- Every command takes such a pair of states to such a pair: SETP writes both, a TICK samples alike, and
the others look at no parameter. -/
theorem exec_alike (i : Instr) {s : State} {q : Params} (h : s.params.ReadAlike q) :
    OutcomesAlike (exec i s) (exec i { s with params := q }) := by
  cases i with
  | nop => exact ⟨_, q, rfl, rfl, h⟩
  | noteOn note velocity => exact ⟨_, q, rfl, rfl, h⟩
  | noteOff note =>
    cases hn : slotHolding s.alloc.slots note with
    | none => exact ⟨_, q, execNoteOff_unheld hn, execNoteOff_unheld hn, h⟩
    | some k => exact ⟨_, q, execNoteOff_held hn, execNoteOff_held hn, h⟩
  | setp addr value => exact ⟨_, memWrite q addr value, rfl, rfl, h.write addr value⟩
  | tick =>
    refine ⟨_, q, rfl, ?_, h⟩
    simp only [exec, execTick, tickSample_of_readAlike h]
    rfl
  | init => exact ⟨_, q, rfl, rfl, h⟩

/-- A step under `rst` (R260, log 3). -/
theorem step_of_rst {s : State} (h : s.rst = true) : step s = .next s.underReset := if_pos h

/-- The first step after `rst` (R260, log 3). -/
theorem step_of_not_cmdReady {s : State} (hrst : s.rst = false) (h : s.cmdReady = false) :
    step s = .next s.leaveReset := by
  simp [step, hrst, h]

/-- A step with no word on the port (R276). -/
theorem step_of_no_command {s : State} (hs : s.ready) (hp : s.pending = []) :
    step s = .next s.idle := by
  obtain ⟨hrst, hready⟩ := hs
  simp [step, hrst, hready, hp]

/-- Every step takes such a pair to such a pair; a reset makes the two equal. -/
theorem step_alike {s : State} {q : Params} (h : s.params.ReadAlike q) :
    OutcomesAlike (step s) (step { s with params := q }) := by
  by_cases hrst : s.rst = true
  · exact ⟨_, Params.reset, step_of_rst hrst, step_of_rst hrst, .refl _⟩
  have hrst : s.rst = false := eq_false_of_ne_true hrst
  by_cases hready : s.cmdReady = true
  · have hs : s.ready := ⟨hrst, hready⟩
    by_cases hp : s.pending = []
    · exact ⟨_, q, step_of_no_command hs hp, step_of_no_command hs hp, h⟩
    · obtain ⟨w, rest, hp⟩ := List.exists_cons_of_ne_nil hp
      obtain ⟨t, q', ht, ht', halike⟩ := exec_alike (commandOf w) (s := s.accept rest) h
      exact ⟨t, q', (step_eq_exec hs hp).trans ht,
        (step_eq_exec (s := { s with params := q }) hs hp).trans ht', halike⟩
  · have hready : s.cmdReady = false := eq_false_of_ne_true hready
    exact ⟨_, Params.reset, step_of_not_cmdReady hrst hready, step_of_not_cmdReady hrst hready, .refl _⟩

/-- Settles O15: step by step the two runs differ in unread registers alone, which no port shows. -/
theorem rawControlsAreInaudible : Obligations.RawControlsAreInaudible := by
  unfold Obligations.RawControlsAreInaudible
  intro s q h ws
  induction ws generalizing s q with
  | nil => rfl
  | cons w ws ih =>
    obtain ⟨t, q', ht, ht', halike⟩ := step_alike (s := { s with pending := w :: ws }) h
    have hobserved : State.observed { t with params := q' } = t.observed := rfl
    simp only [runProgram, ht, ht', hobserved, ih t q' halike]

end Sys2Proof.Machine
end

section
/-! The encoding of the commands (`30_encoding.md`): the fields of a command word, what the decoder and
the encoder make of them, and what a step does with a word the decoder rejects. -/

namespace Sys2Proof.Machine

open Sys2Proof.Laws

/-! ## The fields of a word -/

/-- The field `fl = cmd[55:48]` (R80). -/
def flField (w : CmdWord) : BitVec 8 := w.extractLsb' 48 8

/-- The field `b = cmd[39:32]` (R80). -/
def bField (w : CmdWord) : BitVec 8 := w.extractLsb' 32 8

/-- A word is its five fields (R80). -/
theorem cmdWord_fields (w : CmdWord) :
    cmdWord (opField w) (flField w) (addrField w) (bField w) (dataField w) = w := by
  have h48 : opField w ++ flField w = w.extractLsb' 48 16 :=
    BitVec.extractLsb'_append_extractLsb'_eq_extractLsb' rfl
  have h40 : w.extractLsb' 48 16 ++ addrField w = w.extractLsb' 40 24 :=
    BitVec.extractLsb'_append_extractLsb'_eq_extractLsb' rfl
  have h32 : w.extractLsb' 40 24 ++ bField w = w.extractLsb' 32 32 :=
    BitVec.extractLsb'_append_extractLsb'_eq_extractLsb' rfl
  rw [cmdWord, h48, h40, h32]
  exact BitVec.extractLsb'_append_extractLsb'

/-- A mask given by its five fields masks field by field. -/
theorem and_cmdWord (w : CmdWord) (op fl a b : BitVec 8) (d : Word) :
    w &&& cmdWord op fl a b d =
      cmdWord (opField w &&& op) (flField w &&& fl) (addrField w &&& a) (bField w &&& b)
        (dataField w &&& d) := by
  conv_lhs => rw [← cmdWord_fields w]
  simp only [cmdWord, ← BitVec.and_append]

section CmdWord
variable (op fl a b : BitVec 8) (d : Word)

@[simp] theorem hvField_cmdWord : hvField (cmdWord op fl a b d) = fl.getLsbD 0 := by
  rw [hvField, cmdWord, BitVec.getLsbD_append, BitVec.getLsbD_append, BitVec.getLsbD_append,
    BitVec.getLsbD_append]
  rfl

@[simp] theorem addrField_cmdWord : addrField (cmdWord op fl a b d) = a := by
  rw [addrField, cmdWord, BitVec.extractLsb'_append_eq_of_le (by norm_num),
    BitVec.extractLsb'_append_eq_of_le (by norm_num), BitVec.extractLsb'_append_eq_of_add_le (by norm_num)]
  exact BitVec.extractLsb'_eq_self

@[simp] theorem noteField_cmdWord : noteField (cmdWord op fl a b d) = a.setWidth 7 := by
  rw [noteField, cmdWord, BitVec.extractLsb'_append_eq_of_le (by norm_num),
    BitVec.extractLsb'_append_eq_of_le (by norm_num), BitVec.extractLsb'_append_eq_of_add_le (by norm_num)]
  exact (BitVec.setWidth_eq_extractLsb' (by norm_num)).symm

@[simp] theorem velocityField_cmdWord : velocityField (cmdWord op fl a b d) = b.setWidth 7 := by
  rw [velocityField, cmdWord, BitVec.extractLsb'_append_eq_of_le (by norm_num),
    BitVec.extractLsb'_append_eq_of_add_le (by norm_num)]
  exact (BitVec.setWidth_eq_extractLsb' (by norm_num)).symm

@[simp] theorem dataField_cmdWord : dataField (cmdWord op fl a b d) = d := by
  rw [dataField, cmdWord, BitVec.extractLsb'_append_eq_of_add_le (by norm_num)]
  exact BitVec.extractLsb'_eq_self

end CmdWord

theorem toNat_opField (w : CmdWord) : (opField w).toNat = w.toNat / 2 ^ 56 := by
  have hw := w.isLt
  rw [opField, BitVec.extractLsb'_toNat, Nat.shiftRight_eq_div_pow]
  omega

theorem toNat_noteField (w : CmdWord) : (noteField w).toNat = w.toNat / 2 ^ 40 % 2 ^ 7 := by
  rw [noteField, BitVec.extractLsb'_toNat, Nat.shiftRight_eq_div_pow]

theorem toNat_velocityField (w : CmdWord) : (velocityField w).toNat = w.toNat / 2 ^ 32 % 2 ^ 7 := by
  rw [velocityField, BitVec.extractLsb'_toNat, Nat.shiftRight_eq_div_pow]

theorem toNat_addrField (w : CmdWord) : (addrField w).toNat = w.toNat / 2 ^ 40 % 2 ^ 8 := by
  rw [addrField, BitVec.extractLsb'_toNat, Nat.shiftRight_eq_div_pow]

theorem toNat_dataField (w : CmdWord) : (dataField w).toNat = w.toNat % 2 ^ 32 := by
  rw [dataField, BitVec.extractLsb'_toNat, Nat.shiftRight_zero]

theorem hvField_eq (w : CmdWord) : hvField w = decide (w.toNat / 2 ^ 48 % 2 = 1) := by
  rw [hvField, BitVec.getLsbD, Nat.testBit_eq_decide_div_mod_eq]

/-- The words a driver may send are those with an opcode of Table 30-2 (R87). -/
theorem wf_iff_opField (w : CmdWord) : w.wf = true ↔ (opField w).toNat < 6 := by
  rw [CmdWord.wf, decide_eq_true_iff, toNat_opField]
  omega

/-! ## The decoder -/

/-- The velocity operand of a NOTEON, if it carries one (R83). -/
def velocityOperand (w : CmdWord) : Option Velocity :=
  if hvField w then some (velocityField w) else none

/-- An instruction's operands are the fields of the word that its format names (R82 to R84). -/
def OperandsOf (w : CmdWord) : Instr → Prop
  | .noteOn n v => n = noteField w ∧ v = velocityOperand w
  | .noteOff n => n = noteField w
  | .setp a x => a = addrField w ∧ x = dataField w
  | .nop | .tick | .init => True

theorem tableOpcode_lt (i : Instr) : (tableOpcode i).toNat < 6 := by
  cases i <;> norm_num [tableOpcode]

/-- `op` selects the command and the format's fields are its operands (R82 to R85). -/
theorem decode_eq_ok_iff {w : CmdWord} {i : Instr} :
    decode w = .ok i ↔ opField w = tableOpcode i ∧ OperandsOf w i := by
  constructor
  · intro h
    unfold decode at h
    split at h <;> cases h
    all_goals exact ⟨BitVec.eq_of_toNat_eq ‹_›, by simp [OperandsOf, velocityOperand]⟩
  · rintro ⟨hop, hargs⟩
    unfold decode
    rw [hop]
    cases i with
    | noteOn n v =>
      obtain ⟨rfl, rfl⟩ := hargs
      rfl
    | noteOff n =>
      obtain rfl := hargs
      rfl
    | setp a x =>
      obtain ⟨rfl, rfl⟩ := hargs
      rfl
    | nop | tick | init => rfl

/-- The decoder rejects the opcodes 0x06 to 0xFF, by their name (R87). -/
theorem decode_eq_error_iff {w : CmdWord} {r : DecodeReject} :
    decode w = .error r ↔ 6 ≤ (opField w).toNat ∧ r = .reservedOpcode (opField w) := by
  unfold decode
  split
  case h_7 => -- the opcode is none of the six
    simp only [imp_false] at *
    rw [Except.error.injEq, eq_comm, iff_and_self]
    omega
  all_goals
    simp only [reduceCtorEq, false_iff, not_and]
    omega

/-- A word decodes to a command or has a reserved opcode. -/
theorem decode_cases (w : CmdWord) :
    (∃ i, decode w = .ok i) ∨ decode w = .error (.reservedOpcode (opField w)) := by
  cases hd : decode w with
  | ok i => exact .inl ⟨i, rfl⟩
  | error r => exact .inr (by rw [(decode_eq_error_iff.mp hd).2])

/-! ## The encoder -/

theorem opField_encode (i : Instr) : opField (encode i) = tableOpcode i :=
  match i with
  | .nop => OpcodeByte.nop
  | .noteOn n v => OpcodeByte.noteOn n v
  | .noteOff n => OpcodeByte.noteOff n
  | .setp a v => OpcodeByte.setp a v
  | .tick => OpcodeByte.tick
  | .init => OpcodeByte.init

/-- The encoder writes each operand into its field. -/
theorem operandsOf_encode (i : Instr) : OperandsOf (encode i) i := by
  cases i with
  | noteOn n v =>
    cases v with
    | none => simp [OperandsOf, encode, velocityOperand]
    | some u => simp [OperandsOf, encode, velocityOperand]
  | noteOff n => simp [OperandsOf, encode]
  | setp a x => simp [OperandsOf, encode]
  | nop | tick | init => trivial

theorem decode_encode (i : Instr) : decode (encode i) = .ok i :=
  decode_eq_ok_iff.mpr ⟨opField_encode i, operandsOf_encode i⟩

theorem encode_injective : Function.Injective encode := fun i j h =>
  Except.ok.inj ((decode_encode i).symm.trans ((congrArg decode h).trans (decode_encode j)))

theorem tableWord_toNat (w : CmdWord) : tableWord 64 w.toNat = w := by
  rw [tableWord, Nat.mod_eq_of_lt w.isLt, BitVec.ofNat_toNat, BitVec.setWidth_eq]

/-- Settles O9: the encoder writes the opcode and each operand where the decoder reads it. -/
theorem decodeOfEncode : Obligations.DecodeOfEncode := by
  unfold Obligations.DecodeOfEncode
  intro i _
  refine ⟨decode_encode i, ?_, ?_⟩
  · rw [decodeTableWord, tableWord_toNat, decode_encode]
  · rw [wf_iff_opField, opField_encode]
    exact tableOpcode_lt i

/-! ## The opcode mask and the operands -/

/-- The word under the mask is a `match` value when its opcode is the value's (Table 30-2). -/
theorem opBits_eq_iff (w : CmdWord) (op : BitVec 8) : opBits w = op ++ 0#56 ↔ opField w = op := by
  rw [opBits_eq, BitVec.append_left_inj]

/-- Settles O10: the mask leaves the field `op`, by which alone the decoder chooses. -/
theorem opcodeMaskSelectsCommand : Obligations.OpcodeMaskSelectsCommand := by
  unfold Obligations.OpcodeMaskSelectsCommand
  intro w
  simp only [decode_eq_ok_iff, decode_eq_error_iff, ← toNat_opField]
  refine ⟨(opBits_eq_iff w 0x00#8).trans ?_, (opBits_eq_iff w 0x01#8).trans ?_,
    (opBits_eq_iff w 0x02#8).trans ?_, (opBits_eq_iff w 0x03#8).trans ?_,
    (opBits_eq_iff w 0x04#8).trans ?_, (opBits_eq_iff w 0x05#8).trans ?_, ?_⟩
  all_goals simp [tableOpcode, OperandsOf]

/-- Settles O11: the operands of a decoded command are `OperandsOf` its word. -/
theorem operandsAreBitFields : Obligations.OperandsAreBitFields := by
  unfold Obligations.OperandsAreBitFields
  intro w
  simp only [decode_eq_ok_iff]
  refine ⟨?_, ?_, ?_⟩
  · rintro n v ⟨-, rfl, rfl⟩
    refine ⟨toNat_noteField w, fun h1 => ⟨velocityField w, ?_, toNat_velocityField w⟩, fun h0 => ?_⟩
    · rw [velocityOperand, hvField_eq, h1]
      rfl
    · rw [velocityOperand, hvField_eq, h0]
      rfl
  · rintro n ⟨-, rfl⟩
    exact toNat_noteField w
  · rintro a x ⟨-, rfl, rfl⟩
    exact ⟨toNat_addrField w, toNat_dataField w⟩

/-! ## The bits a command uses -/

/-- Seven bits at a place of a word, in a field of eight, are the eight bits there without the top one
(R82, R83). -/
theorem setWidth_extractLsb'_seven (w : CmdWord) (k : ℕ) :
    (w.extractLsb' k 7).setWidth 8 = w.extractLsb' k 8 &&& 0x7F#8 := by
  have hmask : w.toNat >>> k % 2 ^ 8 &&& 2 ^ 7 - 1 = w.toNat >>> k % 2 ^ 8 % 2 ^ 7 :=
    Nat.and_two_pow_sub_one_eq_mod _ 7
  apply BitVec.eq_of_toNat_eq
  rw [BitVec.toNat_setWidth, BitVec.toNat_and, BitVec.extractLsb'_toNat, BitVec.extractLsb'_toNat]
  change _ = w.toNat >>> k % 2 ^ 8 &&& 2 ^ 7 - 1
  rw [hmask]
  omega

theorem setWidth_noteField (w : CmdWord) : (noteField w).setWidth 8 = addrField w &&& 0x7F#8 :=
  setWidth_extractLsb'_seven w 40

theorem setWidth_velocityField (w : CmdWord) : (velocityField w).setWidth 8 = bField w &&& 0x7F#8 :=
  setWidth_extractLsb'_seven w 32

/-- `HV` is the lowest bit of `fl` (R81). -/
theorem flField_and_one (w : CmdWord) : flField w &&& 1#8 = if hvField w then 1#8 else 0#8 := by
  have hbit : hvField w = (flField w).getLsbD 0 := by simp [flField, hvField]
  rw [hbit]
  generalize flField w = fl
  revert fl
  decide

/-- The bits an instruction's word uses, by its five fields (Table 30-1). -/
def usedMask : Instr → CmdWord
  | .noteOn _ none => cmdWord 0xFF#8 1#8 0x7F#8 0#8 0#32
  | .noteOn _ (some _) => cmdWord 0xFF#8 1#8 0x7F#8 0x7F#8 0#32
  | .noteOff _ => cmdWord 0xFF#8 0#8 0x7F#8 0#8 0#32
  | .setp _ _ => cmdWord 0xFF#8 0#8 (.allOnes 8) 0#8 (.allOnes 32)
  | .nop | .tick | .init => cmdWord 0xFF#8 0#8 0#8 0#8 0#32

theorem usedBits_of_decode {w : CmdWord} {i : Instr} (h : decode w = .ok i) :
    usedBits w = usedMask i := by
  obtain ⟨hop, hargs⟩ := decode_eq_ok_iff.mp h
  unfold usedBits
  rw [hop]
  cases i with
  | noteOn n v =>
    obtain ⟨-, rfl⟩ := hargs
    unfold velocityOperand
    by_cases hv : hvField w = true
    · simp only [hv, if_true]
      rfl
    · simp only [hv]
      rfl
  | nop | noteOff _ | setp _ _ | tick | init => rfl

/-- The encoding of a decoded word is the word with its unused bits cleared (R81). -/
theorem encode_eq_and_usedBits {w : CmdWord} {i : Instr} (h : decode w = .ok i) :
    encode i = w &&& usedBits w := by
  rw [usedBits_of_decode h]
  obtain ⟨hop, hargs⟩ := decode_eq_ok_iff.mp h
  cases i with
  | noteOn n v =>
    obtain ⟨rfl, rfl⟩ := hargs
    unfold velocityOperand
    by_cases hv : hvField w = true
    · simp [encode, usedMask, and_cmdWord, hop, tableOpcode, hv, flField_and_one, setWidth_noteField,
        setWidth_velocityField]
    · simp [encode, usedMask, and_cmdWord, hop, tableOpcode, hv, flField_and_one, setWidth_noteField]
  | noteOff n =>
    obtain rfl := hargs
    simp [encode, usedMask, and_cmdWord, hop, tableOpcode, setWidth_noteField]
  | setp a x =>
    obtain ⟨rfl, rfl⟩ := hargs
    simp only [encode, usedMask, and_cmdWord, hop, tableOpcode, BitVec.and_allOnes, BitVec.and_zero]
    rfl
  | nop | tick | init => simp [encode, usedMask, and_cmdWord, hop, tableOpcode]

/-- Every command uses the whole field `op`, and so does a reserved word. -/
theorem opField_usedBits (w : CmdWord) : opField (usedBits w) = BitVec.allOnes 8 := by
  unfold usedBits
  split
  · split <;> rfl
  all_goals rfl

/-- A NOTEON uses the bit `HV`. -/
theorem hvField_usedBits {w : CmdWord} (h : opField w = 0x01#8) : hvField (usedBits w) = true := by
  unfold usedBits
  rw [h]
  change hvField (if hvField w then _ else _) = true
  split <;> rfl

/-- Which bits a word uses is said by its opcode and, for a NOTEON, by `HV` (Table 30-1). -/
theorem usedBits_congr {w w' : CmdWord} (hop : opField w = opField w')
    (hhv : opField w = 0x01#8 → hvField w = hvField w') : usedBits w = usedBits w' := by
  unfold usedBits
  rw [← hop]
  split
  · rw [hhv (BitVec.eq_of_toNat_eq ‹_›)]
  all_goals rfl

section Alike
variable {w w' : CmdWord}

theorem opField_eq_of_usedBits (h : w &&& usedBits w = w' &&& usedBits w) : opField w = opField w' := by
  have hmask : ∀ x : CmdWord, opField (x &&& usedBits w) = opField x := fun x => by
    rw [opField, BitVec.extractLsb'_and, ← opField, ← opField, opField_usedBits, BitVec.and_allOnes]
  rw [← hmask w, h, hmask w']

/-- Words that agree on the bits the one uses use the same bits. -/
theorem usedBits_eq_of_usedBits (h : w &&& usedBits w = w' &&& usedBits w) :
    usedBits w = usedBits w' := by
  refine usedBits_congr (opField_eq_of_usedBits h) fun hop => ?_
  have hmask : ∀ x : CmdWord, hvField (x &&& usedBits w) = hvField x := fun x => by
    rw [hvField, BitVec.getLsbD_and, ← hvField, ← hvField, hvField_usedBits hop, Bool.and_true]
  rw [← hmask w, h, hmask w']

/-- The bits a command does not use do not change what the word decodes to (R88): the two words have one
encoding between them. -/
theorem decode_eq_of_usedBits (h : w &&& usedBits w = w' &&& usedBits w) : decode w = decode w' := by
  have hop := opField_eq_of_usedBits h
  rcases decode_cases w with ⟨i, hi⟩ | hr
  · rcases decode_cases w' with ⟨i', hi'⟩ | hr'
    · have henc : encode i = encode i' := by
        rw [encode_eq_and_usedBits hi, encode_eq_and_usedBits hi', ← usedBits_eq_of_usedBits h, h]
      rw [hi, hi', encode_injective henc]
    · have hlt := tableOpcode_lt i
      rw [← (decode_eq_ok_iff.mp hi).1, hop] at hlt
      exact absurd (decode_eq_error_iff.mp hr').1 hlt.not_ge
  · rw [hr, hop]
    exact (decode_eq_error_iff.mpr ⟨hop ▸ (decode_eq_error_iff.mp hr).1, rfl⟩).symm

theorem commandOf_congr (h : decode w = decode w') : commandOf w = commandOf w' := by
  rw [commandOf, h, commandOf]

end Alike

/-- Settles O12: words that agree on their used bits have one encoding, so they decode alike, and the
step reads a word through the decoder alone. -/
theorem ignoredBitsDoNotMatter : Obligations.IgnoredBitsDoNotMatter := by
  unfold Obligations.IgnoredBitsDoNotMatter
  refine ⟨fun w i h => encode_eq_and_usedBits h, fun w w' h => ?_⟩
  have hd := decode_eq_of_usedBits h
  refine ⟨hd, fun s rest hs => ?_⟩
  rw [step_eq_exec (s := { s with pending := w :: rest }) hs rfl,
    step_eq_exec (s := { s with pending := w' :: rest }) hs rfl, commandOf_congr hd]
  rfl

/-! ## Reserved opcodes and the examples -/

/-- Settles O4: a reserved word and the word of NOP stand for one command, which is NOP. -/
theorem reservedOpcodeActsAsNop : Obligations.ReservedOpcodeActsAsNop := by
  unfold Obligations.ReservedOpcodeActsAsNop
  intro s w rest hs hp hop
  rw [← toNat_opField] at hop
  have hw : commandOf w = .nop := commandOf_of_error (decode_eq_error_iff.mpr ⟨hop, rfl⟩)
  have h0 : commandOf 0x0000000000000000#64 = .nop := commandOf_of_ok (decode_encode .nop)
  rw [step_eq_exec hs hp, hw,
    step_eq_exec (s := { s with pending := 0x0000000000000000#64 :: rest }) hs rfl, h0]
  exact ⟨rfl, rfl⟩

/-- Settles O8: eight of the words are encodings, which decode to what they encode; the ninth is one of
them with rubbish in the bits it does not use. -/
theorem encodingExamples : Obligations.EncodingExamples := by
  unfold Obligations.EncodingExamples
  have hignored : decode 0x0180BC0012345678#64 = .ok (.noteOn 60 none) :=
    (decode_eq_of_usedBits (by decide)).trans (decode_encode (.noteOn 60 none))
  exact ⟨decode_encode .nop, by decide, decode_encode (.noteOn 60 none), by decide,
    decode_encode (.noteOn 60 (some 100)), by decide, decode_encode (.noteOff 60), by decide,
    decode_encode (.setp 0x10#8 0x447A0000#32), by decide, by decide,
    decode_encode (.setp 0x08#8 0xBF800000#32), by decide, by decide,
    decode_encode .tick, by decide, decode_encode .init, by decide, hignored⟩

end Sys2Proof.Machine
end

section
/-! The oscillator in REAL (R102, R103): within an increment of a wrap the corrected sawtooth is a
parabola in the scaled distance to the wrap, and elsewhere it is the line from -1 to 1. -/

namespace Sys2Proof.Machine

/-! ## The phases -/

/-- The advanced phase of REAL is a fraction part (R102). -/
theorem real_advancePhase (ph dt : ℝ) : advancePhase (N := realDomain) ph dt = Int.fract (ph + dt) := rfl

theorem real_advancePhase_mem (ph dt : ℝ) : advancePhase (N := realDomain) ph dt ∈ Set.Ico (0 : ℝ) 1 := by
  rw [real_advancePhase]
  exact ⟨Int.fract_nonneg _, Int.fract_lt_one _⟩

/-! ## The sawtooth, branch by branch -/

section Branches
variable {ph dt : ℝ}

/-- The second test of the correction (R102). -/
theorem real_beforeWrap_iff : realDomain.lt (realDomain.ofInt 1 - dt) ph = true ↔ 1 - dt < ph := by
  rw [realDomain_lt, realDomain_ofInt, Int.cast_one]

/-- Just after a wrap, at the scaled distance `ph / dt` from it. -/
theorem real_sawAt_after_wrap (h0 : 0 < dt) (h : ph < dt) :
    sawAt (N := realDomain) ph dt = ph / dt * (ph / dt - 2 * (1 - dt)) := by
  unfold sawAt blepCorrection
  rw [if_pos ((realDomain_lt _ _).mpr h)]
  simp only [realDomain_ofInt, Int.cast_ofNat, Int.cast_one]
  have hph : ph / dt * dt = ph := div_mul_cancel₀ ph h0.ne'
  linear_combination -2 * hph

/-- Just before a wrap, at the scaled distance `(1 - ph) / dt` from it. -/
theorem real_sawAt_before_wrap (h0 : 0 < dt) (hge : dt ≤ ph) (h : 1 - dt < ph) :
    sawAt (N := realDomain) ph dt = -((1 - ph) / dt * ((1 - ph) / dt - 2 * (1 - dt))) := by
  unfold sawAt blepCorrection
  rw [if_neg (mt (realDomain_lt _ _).mp hge.not_gt), if_pos (real_beforeWrap_iff.mpr h)]
  simp only [realDomain_ofInt, Int.cast_ofNat, Int.cast_one]
  have hneg : (ph - 1) / dt = -((1 - ph) / dt) := by rw [← neg_div, neg_sub]
  have hph : (1 - ph) / dt * dt = 1 - ph := div_mul_cancel₀ (1 - ph) h0.ne'
  rw [hneg]
  linear_combination 2 * hph

/-- Away from the wraps there is no correction. -/
theorem real_sawAt_between (hge : dt ≤ ph) (hle : ph ≤ 1 - dt) :
    sawAt (N := realDomain) ph dt = 2 * ph - 1 := by
  unfold sawAt blepCorrection
  rw [if_neg (mt (realDomain_lt _ _).mp hge.not_gt), if_neg (mt real_beforeWrap_iff.mp hle.not_gt)]
  simp only [realDomain_ofInt, Int.cast_ofNat, Int.cast_one, Int.cast_zero, sub_zero]

end Branches

/-! ## The bounds -/

/-- The parabola at a wrap, over the unit interval: its factors have opposite signs, and it is at least
`x ^ 2 - 2 * x = (x - 1) ^ 2 - 1`. -/
theorem abs_wrapParabola_le_one {x dt : ℝ} (hx : x ∈ Set.Icc (0 : ℝ) 1) (h0 : 0 < dt) (h1 : dt < 1 / 2) :
    |x * (x - 2 * (1 - dt))| ≤ 1 := by
  obtain ⟨hx0, hx1⟩ := hx
  have hupper : x * (x - 2 * (1 - dt)) ≤ 0 := mul_nonpos_of_nonneg_of_nonpos hx0 (by linarith)
  have hlower : -1 ≤ x * (x - 2 * (1 - dt)) :=
    calc -1 ≤ (x - 1) ^ 2 - 1 := by linarith [sq_nonneg (x - 1)]
      _ = x * (x - 2) := by ring
      _ ≤ x * (x - 2 * (1 - dt)) := mul_le_mul_of_nonneg_left (by linarith) hx0
  exact abs_le.mpr ⟨hlower, by linarith⟩

/-- R103, at every phase: the three branches of the correction. -/
theorem real_abs_sawAt_le_one {ph dt : ℝ} (hph : ph ∈ Set.Ico (0 : ℝ) 1) (h0 : 0 < dt) (h1 : dt < 1 / 2) :
    |sawAt (N := realDomain) ph dt| ≤ 1 := by
  obtain ⟨hph0, hph1⟩ := hph
  rcases lt_or_ge ph dt with hafter | hge
  · rw [real_sawAt_after_wrap h0 hafter]
    exact abs_wrapParabola_le_one (unitInterval.div_mem hph0 h0.le hafter.le) h0 h1
  rcases lt_or_ge (1 - dt) ph with hbefore | hle
  · rw [real_sawAt_before_wrap h0 hge hbefore, abs_neg]
    exact abs_wrapParabola_le_one (unitInterval.div_mem (by linarith) h0.le (by linarith)) h0 h1
  · rw [real_sawAt_between hge hle]
    exact abs_le.mpr ⟨by linarith, by linarith⟩

theorem real_abs_subAt_le_one (ph : ℝ) : |subAt (N := realDomain) ph| ≤ 1 := by
  unfold subAt
  rw [realDomain_sin]
  exact Real.abs_sin_le_one _

/-- Settles O41: an advanced phase is a fraction part, and at every such phase the sawtooth is bounded
branch by branch, the sub-oscillator as a sine. -/
theorem oscillatorIsBounded : Obligations.OscillatorIsBounded := by
  unfold Obligations.OscillatorIsBounded
  intro v dt h0 h1
  have hsaw := real_advancePhase_mem v.phSaw dt
  have hsub := real_advancePhase_mem v.phSub (dt / realDomain.ofInt 2)
  exact ⟨real_abs_sawAt_le_one hsaw h0 h1, real_abs_subAt_le_one _, hsaw.1, hsaw.2, hsub.1, hsub.2⟩

end Sys2Proof.Machine
end

section
/-! The triangle wrap of the wavefolder in REAL (R110): a period and a phase of every operand. -/

namespace Sys2Proof.Machine

/-- The wrap at the phase `p` of the period `n` (R110). -/
theorem real_triangleWrap_of_phase {g p : ℝ} (n : ℤ) (hp : p ∈ Set.Ico (0 : ℝ) 4) (h : g + 1 = 4 * n + p) :
    triangleWrap (N := realDomain) g = |p - 2| - 1 := by
  have hfloor : ⌊(g + 1) / 4⌋ = n :=
    Int.floor_eq_iff.mpr ⟨by linarith [hp.1], by linarith [hp.2]⟩
  simp only [triangleWrap, realDomain_ofInt, realDomain_floor, realDomain_abs, Int.cast_one,
    Int.cast_ofNat, hfloor]
  rw [h, add_sub_cancel_left]

/-- Every operand has a period and a phase. -/
theorem exists_wrapPhase (g : ℝ) : ∃ (n : ℤ) (p : ℝ), p ∈ Set.Ico (0 : ℝ) 4 ∧ g + 1 = 4 * n + p := by
  have hlo := Int.floor_le ((g + 1) / 4)
  have hhi := Int.lt_floor_add_one ((g + 1) / 4)
  exact ⟨⌊(g + 1) / 4⌋, g + 1 - 4 * ⌊(g + 1) / 4⌋, ⟨by linarith, by linarith⟩, by ring⟩

theorem real_abs_triangleWrap_le_one (g : ℝ) : |triangleWrap (N := realDomain) g| ≤ 1 := by
  obtain ⟨n, p, ⟨h0, h4⟩, h⟩ := exists_wrapPhase g
  have hdist : |p - 2| ≤ 2 := abs_le.mpr ⟨by linarith, by linarith⟩
  rw [real_triangleWrap_of_phase n ⟨h0, h4⟩ h, abs_le]
  exact ⟨by linarith [abs_nonneg (p - 2)], by linarith⟩

/-- R110, corner case (a). -/
theorem real_triangleWrap_of_abs_le_one {g : ℝ} (h : |g| ≤ 1) :
    triangleWrap (N := realDomain) g = -g := by
  obtain ⟨hlo, hhi⟩ := abs_le.mp h
  rw [real_triangleWrap_of_phase (p := g + 1) 0 ⟨by linarith, by linarith⟩ (by push_cast; ring),
    abs_of_nonpos (by linarith)]
  ring

/-- Half a period on, the phase is in the other half of this period or of the next one. -/
theorem real_triangleWrap_add_two (g : ℝ) :
    triangleWrap (N := realDomain) (g + 2) = -triangleWrap (N := realDomain) g := by
  obtain ⟨n, p, ⟨h0, h4⟩, h⟩ := exists_wrapPhase g
  rw [real_triangleWrap_of_phase n ⟨h0, h4⟩ h]
  rcases lt_or_ge p 2 with hp | hp
  · rw [real_triangleWrap_of_phase (p := p + 2) n ⟨by linarith, by linarith⟩ (by linarith),
      abs_of_nonneg (by linarith), abs_of_neg (by linarith)]
    ring
  · rw [real_triangleWrap_of_phase (p := p - 2) (n + 1) ⟨by linarith, by linarith⟩
        (by push_cast; linarith),
      abs_of_nonpos (by linarith), abs_of_nonneg (by linarith)]
    ring

theorem real_triangleWrap_add_four (g : ℝ) :
    triangleWrap (N := realDomain) (g + 4) = triangleWrap (N := realDomain) g := by
  rw [show g + 4 = g + 2 + 2 by ring, real_triangleWrap_add_two, real_triangleWrap_add_two, neg_neg]

/-- `FOLD` of REAL is the wrap of the clamped and amplified operand (R110). -/
theorem real_fold (x a : ℝ) : fold (N := realDomain) Cfg.ref x a =
    triangleWrap (N := realDomain) (max (-1000000) (min 1000000 x) * (1 + 5 * a)) := by
  unfold fold
  rw [realDomain_isNaN, if_neg Bool.false_ne_true]
  simp only [realDomain_ofInt, realDomain_ofDec]
  rw [real_san _ _ _ (by norm_num [Cfg.ref])]
  norm_num [Cfg.ref]

/-- Settles O42: moving by half a period swaps the halves of the triangle, by a whole one does so twice;
the clamp leaves 0 alone, and no gain moves it. -/
theorem foldIsATriangle : Obligations.FoldIsATriangle := by
  unfold Obligations.FoldIsATriangle
  refine ⟨fun g => real_triangleWrap_of_abs_le_one, real_triangleWrap_add_two,
    real_triangleWrap_add_four, fun a => ?_⟩
  have hclamp : max (-1000000) (min 1000000 (0 : ℝ)) = 0 := by norm_num
  rw [real_fold, hclamp, zero_mul, real_triangleWrap_of_abs_le_one (by norm_num), neg_zero]

end Sys2Proof.Machine
end

section
/-! Rounding to a bound (R10): a small integer in magnitude, or what is next to a bound of the format. -/

namespace Sys2Proof.Machine

/-- A small natural number converts exactly (R11). -/
theorem f32Real_ofInt_natCast {n : ℕ} (hn : n ≤ 2 ^ 24) :
    (F32.ofInt n).isFinite = true ∧ f32Real (F32.ofInt n) = n := by
  obtain ⟨hfin, hval⟩ := f32Real_ofInt (n := n) (by rw [Nat.abs_cast]; exact_mod_cast hn)
  exact ⟨hfin, by rw [hval, Int.cast_natCast]⟩

/-- What is bounded by a small integer is rounded to a number with the same bound. -/
theorem roundedFrom_abs_le_int {v : ℝ} {r : F32} (h : roundedFrom v r) (n : ℕ) (hn : n ≤ 2 ^ 24)
    (hv : |v| ≤ n) : r.isFinite = true ∧ |f32Real r| ≤ n := by
  obtain ⟨hfin, hval⟩ := f32Real_ofInt_natCast hn
  have hneg : (F32.neg (F32.ofInt n)).isFinite = true := by rwa [isFinite_neg]
  obtain ⟨hlo, hhi⟩ := abs_le.mp hv
  have hwithin := roundedFrom_within h hneg hfin (by rwa [f32Real_neg, hval]) (by rwa [hval])
  rw [within_iff hneg hfin, f32Real_neg, hval] at hwithin
  obtain ⟨hr, hrange⟩ := hwithin
  exact ⟨hr, abs_le.mpr hrange⟩

/-- What is bounded by a small integer lies in the format's range. -/
theorem nearestTo_of_abs_le_int {v : ℝ} {r : F32} (h : roundedFrom v r) (n : ℕ) (hn : n ≤ 2 ^ 24)
    (hv : |v| ≤ n) : nearestTo v r := by
  obtain ⟨hfin, hval⟩ := f32Real_ofInt_natCast hn
  have hrange := abs_lt_overflowBound_of_isFinite hfin
  rw [hval, Nat.abs_cast] at hrange
  exact nearestTo_of_roundedFrom h (hv.trans_lt hrange)

/-- What is next to a range of the format is rounded to a number next to it. -/
theorem nearestTo_near_range {v δ : ℝ} {r lo hi : F32} (h : nearestTo v r) (hlo : lo.isFinite = true)
    (hhi : hi.isFinite = true) (hδ : 0 ≤ δ) (h1 : f32Real lo - δ ≤ v) (h2 : v ≤ f32Real hi + δ) :
    f32Real lo - 2 * δ ≤ f32Real r ∧ f32Real r ≤ f32Real hi + 2 * δ := by
  have hbelow := (abs_le.mp (h.abs_le hlo)).1
  have habove := (abs_le.mp (h.abs_le hhi)).2
  constructor
  · rcases abs_cases (f32Real lo - v) with ⟨hc, -⟩ | ⟨hc, -⟩ <;> linarith
  · rcases abs_cases (f32Real hi - v) with ⟨hc, -⟩ | ⟨hc, -⟩ <;> linarith

/-- A small integer is rounded to itself. -/
theorem roundedFrom_int_exact {n : ℤ} {r : F32} (hn : |n| ≤ 2 ^ 24) (h : roundedFrom (n : ℝ) r) :
    r.isFinite = true ∧ f32Real r = n := by
  obtain ⟨s, m, hm⟩ := exists_f32_eq_int hn
  rw [← hm] at h ⊢
  exact roundedFrom_exact h

/-- A real number is its magnitude with a sign. -/
theorem exists_signed_abs (v : ℝ) : ∃ s, v = signed s |v| := by
  rcases abs_choice v with hc | hc
  · exact ⟨false, hc.symm⟩
  · exact ⟨true, by rw [signed_true, hc, neg_neg]⟩

/-- What is nearer to a magnitude than to the next one is not rounded beyond it. -/
theorem nearestTo_abs_le_of_lt_mid {v : ℝ} {r : F32} (h : nearestTo v r) (m : F32Mag)
    (hv : |v| < midReal (m + 1)) : |f32Real r| ≤ magReal m := by
  by_contra hgt
  rw [not_le] at hgt
  have hnext : magReal (m + 1) ≤ |f32Real r| := by
    obtain ⟨s, n, rfl⟩ := exists_fin_of_isFinite h.isFinite
    rw [f32Real_fin, abs_signed, abs_of_nonneg (magReal_nonneg n)] at hgt ⊢
    exact magReal_strictMono.monotone (magReal_strictMono.lt_iff_lt.mp hgt)
  have hstep := magReal_strictMono (Nat.lt_succ_self m)
  rw [midReal_eq, Nat.add_sub_cancel] at hv
  have hfar : |f32Real r| - |v| ≤ |f32Real r - v| := abs_sub_abs_le_abs_sub _ _
  obtain ⟨s, hs⟩ := exists_signed_abs v
  have hnear := h.abs_le (x := .fin s m) rfl
  have hdist : |f32Real (.fin s m) - v| = |(magReal m - |v|)| := by
    rw [f32Real_fin]
    nth_rw 1 [hs]
    rw [signed_sub, abs_signed]
  rw [hdist, le_abs] at hnear
  rcases hnear with hc | hc <;> linarith

/-- Up to 2^-24 beyond 2 in magnitude a real number is rounded to at most 2. -/
theorem nearestTo_abs_le_two {v : ℝ} {r : F32} (h : nearestTo v r) (hv : |v| ≤ 2 + 1 / 2 ^ 24) :
    |f32Real r| ≤ 2 := by
  have htwo : magReal 0x40000000 = 2 := by
    have : magUnits 0x40000000 = 2 ^ 150 := by decide
    rw [magReal, this]
    norm_num
  have hnext : magReal (0x40000000 + 1) = 2 + 1 / 2 ^ 22 := by
    have : magUnits (0x40000000 + 1) = (2 ^ 23 + 1) * 2 ^ 127 := by decide
    rw [magReal, this]
    norm_num
  refine (nearestTo_abs_le_of_lt_mid h ⟨0x40000000, by decide⟩ ?_).trans_eq htwo
  rw [midReal_eq, Nat.add_sub_cancel]
  change |v| < (magReal 0x40000000 + magReal (0x40000000 + 1)) / 2
  rw [htwo, hnext]
  linarith

end Sys2Proof.Machine
end

section
/-! The wavefolder in binary32 (R110, R111): the clamp and the gain keep the wrap's operand where its
roundings stay in the range. -/

namespace Sys2Proof.Machine

/-! ## The wrap in binary32 -/

/-- A quarter of a number of the format is a number of the format, or next to 0. -/
theorem exists_f32_eq_quarter {a : F32} (ha : a.isFinite = true) :
    (∃ b : F32, b.isFinite = true ∧ f32Real b = f32Real a / 4) ∨ |f32Real a| ≤ 1 / 2 ^ 100 := by
  obtain ⟨s, m, rfl⟩ := exists_fin_of_isFinite ha
  obtain ⟨j, k, hj, hm⟩ := exists_significand m
  by_cases hk : 2 ≤ k
  · obtain ⟨i, rfl⟩ := Nat.exists_eq_add_of_le' hk
    obtain ⟨n, hn⟩ := exists_magUnits_eq hj i
    have hquarter : magUnits m = magUnits n * 4 := by
      rw [hm, hn, pow_add]
      ring
    have hlt : n < 0x7F800000 := (magUnits_le.mp (by omega)).trans_lt m.isLt
    refine .inl ⟨.fin s ⟨n, hlt⟩, rfl, ?_⟩
    have hreal : magReal m = magReal n * 4 := by
      rw [magReal, magReal, hquarter, Nat.cast_mul, Nat.cast_ofNat, mul_div_right_comm]
    rw [f32Real_fin, f32Real_fin, hreal, signed_eq_mul, signed_eq_mul]
    ring
  · right
    have hsmall : magUnits m ≤ 2 ^ 49 :=
      calc magUnits m = j * 2 ^ k := hm
        _ ≤ 2 ^ 24 * 2 ^ 1 := Nat.mul_le_mul hj (Nat.pow_le_pow_right two_pos (by omega))
        _ ≤ 2 ^ 49 := by norm_num
    have hcast : (magUnits m : ℝ) ≤ 2 ^ 49 := by exact_mod_cast hsmall
    rw [f32Real_fin, abs_signed, abs_of_nonneg (magReal_nonneg m), magReal,
      div_le_iff₀ (by positivity)]
    exact hcast.trans_eq (by norm_num)

/-- So the rounding of a quarter is exact, or both it and the quarter are next to 0. -/
theorem roundedFrom_quarter_error {a r : F32} (ha : a.isFinite = true)
    (h : roundedFrom (f32Real a / 4) r) : r.isFinite = true ∧ |f32Real r - f32Real a / 4| ≤ 1 / 2 ^ 100 := by
  have hrange := abs_lt_overflowBound_of_isFinite ha
  have hn : nearestTo (f32Real a / 4) r := nearestTo_of_roundedFrom h <| by
    rw [abs_div, abs_of_pos (four_pos (α := ℝ))]
    linarith [abs_nonneg (f32Real a)]
  refine ⟨hn.isFinite, ?_⟩
  rcases exists_f32_eq_quarter ha with ⟨b, hb, hval⟩ | hsmall
  · exact (hn.abs_le hb).trans (by rw [hval, sub_self, abs_zero]; positivity)
  · refine (hn.abs_le isFinite_zero).trans ?_
    rw [f32Real_zero, zero_sub, abs_neg, abs_div, abs_of_pos (four_pos (α := ℝ))]
    linarith [abs_nonneg (f32Real a)]

theorem f32Real_floor_of_isFinite {a : F32} (ha : a.isFinite = true) :
    (F32.floor a).isFinite = true ∧ f32Real (F32.floor a) = ((⌊f32Real a⌋ : ℤ) : ℝ) := by
  obtain ⟨s, m, rfl⟩ := exists_fin_of_isFinite ha
  exact f32Real_floor s m

theorem f32Real_abs_of_isFinite {a : F32} (ha : a.isFinite = true) :
    (F32.abs a).isFinite = true ∧ f32Real (F32.abs a) = |f32Real a| := by
  obtain ⟨s, m, rfl⟩ := exists_fin_of_isFinite ha
  exact ⟨rfl, f32Real_abs s m⟩

/-- The multiple of 4 that the wrap subtracts is exact, and as near below `t` as the quarter is. -/
theorem wrapPeriod_near {t : F32} (ht : t.isFinite = true) (hbound : |f32Real t| ≤ 2 ^ 23 + 1) :
    let p := F32.mul (F32.ofInt 4) (F32.floor (F32.div t (F32.ofInt 4)))
    p.isFinite = true ∧ -(1 / 2 ^ 98) ≤ f32Real t - f32Real p ∧
      f32Real t - f32Real p ≤ 4 + 1 / 2 ^ 98 := by
  intro p
  obtain ⟨hfour, hfourval⟩ := f32Real_ofInt (n := 4) (by norm_num)
  push_cast at hfourval
  have hdiv := roundedFrom_div_of_isFinite ht hfour (by rw [hfourval]; exact four_ne_zero)
  rw [hfourval] at hdiv
  obtain ⟨hq, herr⟩ := roundedFrom_quarter_error ht hdiv
  obtain ⟨hfloor, hfloorval⟩ := f32Real_floor_of_isFinite hq
  have hmul := roundedFrom_mul_of_isFinite hfour hfloor
  rw [hfourval, hfloorval] at hmul
  have hlo := Int.floor_le (f32Real (F32.div t (F32.ofInt 4)))
  have hhi := Int.lt_floor_add_one (f32Real (F32.div t (F32.ofInt 4)))
  generalize ⌊f32Real (F32.div t (F32.ofInt 4))⌋ = k at hmul hlo hhi
  rw [abs_le] at herr hbound
  have hk : |4 * k| ≤ 2 ^ 24 := by
    have : |((4 * k : ℤ) : ℝ)| ≤ 2 ^ 24 := by
      push_cast
      exact abs_le.mpr ⟨by linarith, by linarith⟩
    exact_mod_cast this
  obtain ⟨hp, hval⟩ := roundedFrom_int_exact (r := p) hk (by push_cast; exact hmul)
  push_cast at hval
  refine ⟨hp, ?_, ?_⟩ <;> rw [hval] <;> linarith

/-- The wrapped number of binary32 lies in [0, 4] (R110, corner case (d)), but for what an inexact
quarter leaves below 0 or above 4. -/
theorem wrap_near {t p : F32} (ht : t.isFinite = true) (hp : p.isFinite = true)
    (hlo : -(1 / 2 ^ 98) ≤ f32Real t - f32Real p) (hhi : f32Real t - f32Real p ≤ 4 + 1 / 2 ^ 98) :
    (F32.sub t p).isFinite = true ∧ |f32Real (F32.sub t p) - 2| ≤ 2 + 1 / 2 ^ 97 := by
  obtain ⟨hfour, hfourval⟩ := f32Real_ofInt (n := 4) (by norm_num)
  push_cast at hfourval
  have hw := nearestTo_of_abs_le_int (roundedFrom_sub_of_isFinite ht hp) 5 (by norm_num)
    (abs_le.mpr ⟨by push_cast; linarith, by push_cast; linarith⟩)
  obtain ⟨h0, h4⟩ := nearestTo_near_range (δ := 1 / 2 ^ 98) hw isFinite_zero hfour (by positivity)
    (by rw [f32Real_zero]; linarith) (by rw [hfourval]; linarith)
  rw [f32Real_zero] at h0
  rw [hfourval] at h4
  exact ⟨hw.isFinite, abs_le.mpr ⟨by linarith, by linarith⟩⟩

/-- The last two operations of the wrap: the distance from 2 is rounded to at most 2 (R111). -/
theorem abs_sub_two_sub_one_within {w : F32} (hw : w.isFinite = true)
    (hnear : |f32Real w - 2| ≤ 2 + 1 / 2 ^ 24) :
    F32.within (F32.neg .one) .one (F32.sub (F32.abs (F32.sub w (F32.ofInt 2))) (F32.ofInt 1)) := by
  obtain ⟨htwo, htwoval⟩ := f32Real_ofInt (n := 2) (by norm_num)
  push_cast at htwoval
  have hsub := roundedFrom_sub_of_isFinite hw htwo
  rw [htwoval] at hsub
  have hn := nearestTo_of_abs_le_int hsub 3 (by norm_num) (by push_cast; linarith)
  have hle := nearestTo_abs_le_two hn hnear
  obtain ⟨habs, habsval⟩ := f32Real_abs_of_isFinite hn.isFinite
  have h0 := abs_nonneg (f32Real (F32.sub w (F32.ofInt 2)))
  rw [F32.ofInt_one]
  refine roundedFrom_within_one (roundedFrom_sub_of_isFinite habs isFinite_one) ?_ ?_ <;>
    rw [habsval, f32Real_one] <;> linarith

/-- The wrap of binary32 answers in [-1, 1] for every operand up to 2^23 in magnitude (R111). -/
theorem triangleWrap_within (elem : ElemFn → F32 → F32) {g : F32} (hg : g.isFinite = true)
    (hbound : |f32Real g| ≤ 2 ^ 23) :
    F32.within (F32.neg .one) .one (triangleWrap (N := f32With elem) g) := by
  have hadd := roundedFrom_add_of_isFinite hg isFinite_one
  obtain ⟨ht, htbound⟩ := roundedFrom_abs_le_int hadd (2 ^ 23 + 1) (by norm_num) <| by
    push_cast
    exact (abs_add_le _ _).trans (by rw [f32Real_one, abs_one]; linarith)
  rw [← F32.ofInt_one] at ht htbound
  obtain ⟨hp, hlo, hhi⟩ := wrapPeriod_near ht (by exact_mod_cast htbound)
  obtain ⟨hw, hnear⟩ := wrap_near ht hp hlo hhi
  exact abs_sub_two_sub_one_within hw (hnear.trans (by norm_num))

/-! ## The clamp and the gain in binary32 -/

/-- `FOLD_IN_MAX` of `CFG_REF` is exact. -/
theorem f32Real_foldInMax_ref : (F32.ofDec Cfg.ref.foldInMax).isFinite = true ∧
    f32Real (F32.ofDec Cfg.ref.foldInMax) = 1000000 := by
  have h : F32.ofDec Cfg.ref.foldInMax = F32.ofInt 1000000 := by decide
  obtain ⟨hfin, hval⟩ := f32Real_ofInt (n := 1000000) (by norm_num)
  exact h ▸ ⟨hfin, by rw [hval]; norm_num⟩

/-- `FOLD_K` of `CFG_REF` is exact. -/
theorem f32Real_foldK_ref : (F32.ofDec Cfg.ref.foldK).isFinite = true ∧
    f32Real (F32.ofDec Cfg.ref.foldK) = 5 := by
  have h : F32.ofDec Cfg.ref.foldK = F32.ofInt 5 := by decide
  obtain ⟨hfin, hval⟩ := f32Real_ofInt (n := 5) (by norm_num)
  exact h ▸ ⟨hfin, by rw [hval]; norm_num⟩

/-- The clamp to a number and its negation bounds the magnitude of every operand (R14). -/
theorem san_neg_abs_le (elem : ElemFn → F32 → F32) (x : F32) {top : F32} (htop : top.isFinite = true)
    (h0 : 0 ≤ f32Real top) : (san (N := f32With elem) x (F32.neg top) (some top)).isFinite = true ∧
      |f32Real (san (N := f32With elem) x (F32.neg top) (some top))| ≤ f32Real top := by
  have hneg : (F32.neg top).isFinite = true := by rwa [isFinite_neg]
  have hclamp : ClampAnswer (F32.neg top) (some top) x
      (san (N := f32With elem) x (F32.neg top) (some top)) := by
    refine san_clampAnswer elem hneg ?_
    rintro _ ⟨⟩
    exact ⟨htop, (le_iff_of_isFinite hneg htop).mpr (by rw [f32Real_neg]; linarith)⟩
  obtain ⟨hfin, hlo, hhi⟩ := (within_iff hneg htop).mp ⟨hclamp.low, hclamp.high _ rfl⟩
  rw [f32Real_neg] at hlo
  exact ⟨hfin, abs_le.mpr ⟨hlo, hhi⟩⟩

/-- The gain of `CFG_REF` is at most 6 for a fold amount in the unit interval (R110). -/
theorem foldGain_abs_le {a : F32} (ha : F32.within .zero .one a) :
    let gain := F32.add (F32.ofInt 1) (F32.mul (F32.ofDec Cfg.ref.foldK) a)
    gain.isFinite = true ∧ |f32Real gain| ≤ 6 := by
  intro gain
  obtain ⟨hk, hkval⟩ := f32Real_foldK_ref
  obtain ⟨hone, honeval⟩ := f32Real_ofInt (n := 1) (by norm_num)
  push_cast at honeval
  obtain ⟨hfin, h0, h1⟩ := within_zero_one_iff.mp ha
  obtain ⟨hmul, hmulle⟩ := roundedFrom_abs_le_int (roundedFrom_mul_of_isFinite hk hfin) 5 (by norm_num)
    (by rw [hkval, abs_of_nonneg (by positivity)]; push_cast; linarith)
  refine roundedFrom_abs_le_int (roundedFrom_add_of_isFinite hone hmul) 6 (by norm_num) ?_
  refine (abs_add_le _ _).trans ?_
  rw [honeval, abs_one]
  push_cast at hmulle ⊢
  linarith

/-- `FOLD` of binary32 (R110): 0.0 for a NaN, otherwise the wrap of the clamped and amplified operand. -/
theorem f32_fold (elem : ElemFn → F32 → F32) (c : Cfg) (x a : F32) :
    fold (N := f32With elem) c x a = if x.isNaN = true then F32.ofInt 0 else
      triangleWrap (N := f32With elem)
        (F32.mul (san (N := f32With elem) x (F32.neg (F32.ofDec c.foldInMax)) (some (F32.ofDec c.foldInMax)))
          (F32.add (F32.ofInt 1) (F32.mul (F32.ofDec c.foldK) a))) := rfl

theorem f32_fold_within (elem : ElemFn → F32 → F32) (x : F32) {a : F32} (ha : F32.within .zero .one a) :
    F32.within (F32.neg .one) .one (fold (N := f32With elem) Cfg.ref x a) := by
  rw [f32_fold]
  split
  · exact ⟨by decide, by decide⟩
  · obtain ⟨htop, htopval⟩ := f32Real_foldInMax_ref
    obtain ⟨hy, hyle⟩ := san_neg_abs_le elem x htop (by rw [htopval]; norm_num)
    rw [htopval] at hyle
    obtain ⟨hgain, hgainle⟩ := foldGain_abs_le ha
    obtain ⟨hg, hgle⟩ := roundedFrom_abs_le_int (roundedFrom_mul_of_isFinite hy hgain) (1000000 * 6)
      (by norm_num) <| by
        rw [abs_mul, Nat.cast_mul]
        exact mul_le_mul (by exact_mod_cast hyle) (by exact_mod_cast hgainle) (abs_nonneg _) (by positivity)
    exact triangleWrap_within elem hg (hgle.trans (by norm_num))

/-- Settles O38: in REAL every wrap is bounded; in binary32 the clamp and the gain keep the wrap's
operand where its roundings cannot leave the range. -/
theorem foldStaysInRange : Obligations.FoldStaysInRange := by
  unfold Obligations.FoldStaysInRange
  refine ⟨fun x a _ _ => ?_, fun elem x a => f32_fold_within elem x⟩
  rw [real_fold]
  exact real_abs_triangleWrap_le_one _

end Sys2Proof.Machine
end

section
/-! The stage machine of the envelope row by row (R121 to R124), and the closed forms of its attack and
its release in REAL (R126): an update multiplies the distance to the target by `e^(-1/(time·FS))`. -/

namespace Sys2Proof.Machine

/-! ## The rows of Table 42-1 -/

section Rows
variable {α : Type} [N : NumDomain α] (c : Cfg) (v sustain tA tD tR : α)

/-- ATTACK: toward 1, and to DECAY at the threshold (R123). -/
theorem envStep_attack : envStep c ⟨.attack, v⟩ sustain tA tD tR =
    let w := approach (envCoef c tA) v (N.ofInt 1)
    ⟨stageAfter c .attack w, w⟩ := rfl

/-- DECAY: toward the sustain level, for ever (R123). -/
theorem envStep_decay : envStep c ⟨.decay, v⟩ sustain tA tD tR =
    ⟨.decay, approach (envCoef c tD) v sustain⟩ := rfl

/-- RELEASE: toward 0, for ever (R123). -/
theorem envStep_release : envStep c ⟨.release, v⟩ sustain tA tD tR =
    ⟨.release, approach (envCoef c tR) v (N.ofInt 0)⟩ := rfl

end Rows

/-! ## Binary32 -/

/-- The update of binary32 (R123): an instant stage assigns, a coefficient rounds three times. -/
theorem f32_approach (elem : ElemFn → F32 → F32) (coef : Option F32) (val target : F32) :
    approach (N := f32With elem) coef val target =
      match coef with
      | none => target
      | some k => F32.add val (F32.mul k (F32.sub target val)) := by
  cases coef with
  | none => rfl
  | some k => rfl

/-- Settles O35: the rows of the stage table, with the update and the targets of binary32. -/
theorem envelopeStageTable : Obligations.EnvelopeStageTable := by
  unfold Obligations.EnvelopeStageTable
  rintro elem c ⟨stage, v⟩ sustain tA tD tR
  have hone : (f32With elem).ofInt 1 = .one := F32.ofInt_one
  have hzero : (f32With elem).ofInt 0 = .zero := F32.ofInt_zero
  refine ⟨rfl, rfl, ?attack, ?decay, ?release⟩
  case attack =>
    rintro ⟨⟩
    rw [envStep_attack (N := f32With elem), hone]
    exact ⟨f32_approach .., rfl⟩
  case decay =>
    rintro ⟨⟩
    rw [envStep_decay (N := f32With elem)]
    exact ⟨f32_approach .., rfl⟩
  case release =>
    rintro ⟨⟩
    rw [envStep_release (N := f32With elem), hzero]
    exact ⟨f32_approach .., rfl⟩

/-! ## REAL: the update and its iterates -/

/-- A stage that is not instant has the coefficient of its time (R120). -/
theorem real_envCoef_of_le {c : Cfg} {time : ℝ} (h : decReal c.instantTime ≤ time) :
    envCoef (N := realDomain) c time = some (1 - Real.exp (-1 / (time * decReal c.fs))) := by
  unfold envCoef
  split
  · next hlt => exact absurd ((realDomain_lt _ _).mp hlt) h.not_gt
  · rw [realDomain_ofInt, realDomain_ofInt, realDomain_exp, Int.cast_one, Int.cast_neg, Int.cast_one]
    rfl

/-- One update of a stage that is not instant: the distance to the target shrinks by a fixed factor. -/
theorem real_approach_envCoef {c : Cfg} {time : ℝ} (h : decReal c.instantTime ≤ time) (val target : ℝ) :
    approach (N := realDomain) (envCoef (N := realDomain) c time) val target =
      target - (target - val) * Real.exp (-1 / (time * decReal c.fs)) := by
  rw [real_envCoef_of_le h, real_approach]
  ring

theorem exp_neg_div_mul_exp (n : ℕ) (T : ℝ) :
    Real.exp (-(n : ℝ) / T) * Real.exp (-1 / T) = Real.exp (-((n + 1 : ℕ) : ℝ) / T) := by
  rw [← Real.exp_add, ← add_div]
  push_cast
  rw [neg_add]

/-- The attack of REAL stays in ATTACK below the threshold (R123). -/
theorem real_stageAfter_attack_of_lt {c : Cfg} {v : ℝ} (h : v < decReal c.attackThresh) :
    stageAfter (N := realDomain) c .attack v = .attack :=
  if_neg (mt (realDomain_le _ _).mp h.not_ge)

/-- The attack of REAL ends at the threshold (R123). -/
theorem real_stageAfter_attack_of_le {c : Cfg} {v : ℝ} (h : decReal c.attackThresh ≤ v) :
    stageAfter (N := realDomain) c .attack v = .decay :=
  if_pos ((realDomain_le _ _).mpr h)

/-- The closed form of the attack from 0, with a time constant of `T` steps (R126). -/
noncomputable def attackCurve (T : ℝ) (n : ℕ) : ℝ := 1 - Real.exp (-(n : ℝ) / T)

section Iterates
variable {c : Cfg} {sustain tA tD tR : ℝ}

/-- One step of the attack moves along its closed form, and the new value decides the stage. -/
theorem real_envStep_attack (h : decReal c.instantTime ≤ tA) (n : ℕ) :
    envStep (N := realDomain) c ⟨.attack, attackCurve (tA * decReal c.fs) n⟩ sustain tA tD tR =
      ⟨stageAfter (N := realDomain) c .attack (attackCurve (tA * decReal c.fs) (n + 1)),
        attackCurve (tA * decReal c.fs) (n + 1)⟩ := by
  have hval : approach (N := realDomain) (envCoef (N := realDomain) c tA)
      (attackCurve (tA * decReal c.fs) n) 1 = attackCurve (tA * decReal c.fs) (n + 1) := by
    rw [real_approach_envCoef h, attackCurve, sub_sub_cancel, exp_neg_div_mul_exp, attackCurve]
  rw [envStep_attack (N := realDomain), realDomain_ofInt, Int.cast_one, hval]

/-- The attack from 0 stays in ATTACK while its closed form is below the threshold (R126). -/
theorem real_attack_iterate (h : decReal c.instantTime ≤ tA) (n : ℕ)
    (hbelow : ∀ k ≤ n, attackCurve (tA * decReal c.fs) k < decReal c.attackThresh) :
    (fun e => envStep (N := realDomain) c e sustain tA tD tR)^[n] ⟨.attack, 0⟩ =
      ⟨.attack, attackCurve (tA * decReal c.fs) n⟩ := by
  induction n with
  | zero => simp [attackCurve]
  | succ n ih =>
    rw [Function.iterate_succ_apply', ih fun k hk => hbelow k (hk.trans n.le_succ), real_envStep_attack h,
      real_stageAfter_attack_of_lt (hbelow (n + 1) le_rfl)]

/-- The release from any value (R126). -/
theorem real_release_iterate (h : decReal c.instantTime ≤ tR) (v : ℝ) (n : ℕ) :
    (fun e => envStep (N := realDomain) c e sustain tA tD tR)^[n] ⟨.release, v⟩ =
      ⟨.release, v * Real.exp (-(n : ℝ) / (tR * decReal c.fs))⟩ := by
  induction n with
  | zero => simp
  | succ n ih =>
    rw [Function.iterate_succ_apply', ih, envStep_release (N := realDomain), realDomain_ofInt, Int.cast_zero,
      real_approach_envCoef h, ← exp_neg_div_mul_exp]
    congr 1
    ring

end Iterates

/-! ## When the closed forms cross a level -/

/-- The first step at which `e^(-n/T)` is at most `1/b` is the ceiling of `T·ln b` (R126). -/
theorem exp_neg_div_le_one_div_iff {T b : ℝ} (hT : 0 < T) (hb : 0 < b) (n : ℕ) :
    Real.exp (-(n : ℝ) / T) ≤ 1 / b ↔ ⌈T * Real.log b⌉₊ ≤ n := by
  rw [← Real.le_log_iff_exp_le (one_div_pos.mpr hb), one_div, Real.log_inv, neg_div, neg_le_neg_iff,
    le_div_iff₀' hT, Nat.ceil_le]

/-- The bounds that both step counts of R126 need. -/
theorem log_ten_bounds : 44209 / 19200 < Real.log 10 ∧ Real.log 10 < 44210 / 19200 := by
  rw [Real.log_ten_eq]
  constructor <;>
    linarith [Real.log_two_gt_d9, Real.log_two_lt_d9, Real.log_five_gt_d9, Real.log_five_lt_d9]

theorem attack_ceil : ⌈480 * Real.log 1000⌉₊ = 3316 := by
  obtain ⟨hlo, hhi⟩ := log_ten_bounds
  have hlog : Real.log 1000 = 3 * Real.log 10 := by
    rw [show (1000 : ℝ) = 10 ^ 3 by norm_num, Real.log_pow, Nat.cast_ofNat]
  rw [Nat.ceil_eq_iff (by norm_num), hlog]
  constructor <;> norm_num <;> linarith

theorem release_ceil : ⌈4800 * Real.log 10000⌉₊ = 44210 := by
  obtain ⟨hlo, hhi⟩ := log_ten_bounds
  have hlog : Real.log 10000 = 4 * Real.log 10 := by
    rw [show (10000 : ℝ) = 10 ^ 4 by norm_num, Real.log_pow, Nat.cast_ofNat]
  rw [Nat.ceil_eq_iff (by norm_num), hlog]
  constructor <;> norm_num <;> linarith

/-! ## The attack and the release of `CFG_REF` -/

theorem attackTime_ref : decReal Cfg.ref.instantTime ≤ decReal Cfg.ref.tAttack ∧
    decReal Cfg.ref.tAttack * decReal Cfg.ref.fs = 480 := by
  norm_num [decReal, Cfg.ref]

theorem releaseTime_ref : decReal Cfg.ref.instantTime ≤ decReal Cfg.ref.tRelease ∧
    decReal Cfg.ref.tRelease * decReal Cfg.ref.fs = 4800 := by
  norm_num [decReal, Cfg.ref]

/-- The closed form of the attack reaches the threshold at step 3316. -/
theorem attackThresh_le_iff (n : ℕ) :
    decReal Cfg.ref.attackThresh ≤ attackCurve 480 n ↔ 3316 ≤ n := by
  have hthresh : decReal Cfg.ref.attackThresh = 1 - 1 / 1000 := by norm_num [decReal, Cfg.ref]
  rw [hthresh, attackCurve, sub_le_sub_iff_left, exp_neg_div_le_one_div_iff (by norm_num) (by norm_num), attack_ceil]

/-- The attack of `CFG_REF` before step 3316. -/
theorem attack_ref_iterate {sustain tD tR : ℝ} {n : ℕ} (hn : n < 3316) :
    (fun e => envStep (N := realDomain) Cfg.ref e sustain (decReal Cfg.ref.tAttack) tD tR)^[n]
      ⟨.attack, 0⟩ = ⟨.attack, attackCurve 480 n⟩ := by
  obtain ⟨htime, hT⟩ := attackTime_ref
  rw [real_attack_iterate htime n, hT]
  intro k hk
  rw [hT, ← not_le, attackThresh_le_iff]
  omega

/-- The attack of `CFG_REF` at step 3316. -/
theorem attack_ref_iterate_last {sustain tD tR : ℝ} :
    (fun e => envStep (N := realDomain) Cfg.ref e sustain (decReal Cfg.ref.tAttack) tD tR)^[3316]
      ⟨.attack, 0⟩ = ⟨.decay, attackCurve 480 3316⟩ := by
  obtain ⟨htime, hT⟩ := attackTime_ref
  rw [Function.iterate_succ_apply', attack_ref_iterate (by norm_num), ← hT, real_envStep_attack htime, hT,
    real_stageAfter_attack_of_le ((attackThresh_le_iff 3316).mpr le_rfl)]

/-- Settles O44: below step 3316 the closed form is below the threshold, and that step reaches it. -/
theorem attackTakes3316Steps : Obligations.AttackTakes3316Steps := by
  unfold Obligations.AttackTakes3316Steps
  intro sustain tD tR n hn
  obtain hlt | rfl := hn.lt_or_eq
  · rw [attack_ref_iterate hlt]
    exact ⟨rfl, iff_of_true rfl hlt, fun h => absurd h hlt.ne⟩
  · rw [attack_ref_iterate_last]
    have hthresh : decReal Cfg.ref.attackThresh = 999 / 1000 := by norm_num [decReal, Cfg.ref]
    have hreach := (attackThresh_le_iff 3316).mpr le_rfl
    exact ⟨rfl, iff_of_false Stage.noConfusion (lt_irrefl _), fun _ => ⟨rfl, hthresh ▸ hreach⟩⟩

/-- Settles O45: the closed form of the release, and the monotonicity of `exp`. -/
theorem releaseFallsMonotonically : Obligations.ReleaseFallsMonotonically := by
  unfold Obligations.ReleaseFallsMonotonically
  intro sustain tA tD n value
  obtain ⟨htime, hT⟩ := releaseTime_ref
  have hvalue : ∀ k, value k = Real.exp (-(k : ℝ) / 4800) := by
    intro k
    simp only [value]
    rw [real_release_iterate htime 1 k, hT, one_mul]
  refine ⟨hvalue n, ?_, ?_, ?_⟩
  · rw [hvalue]
    exact Real.exp_pos _
  · rw [hvalue, hvalue, Real.exp_lt_exp]
    push_cast
    linarith
  · rw [hvalue, exp_neg_div_le_one_div_iff (by norm_num) (by norm_num), release_ceil]

end Sys2Proof.Machine
end

section
/-! The filter's saturator (R135): in REAL its level, its two kinds and their shape, and in binary32 the
level and the clamp of `CFG_REF`, whose three roundings keep the level in the unit interval. -/

namespace Sys2Proof.Machine

/-! ## The level in REAL -/

theorem decReal_nonneg {d : Dec} (h : d.nonneg = true) : 0 ≤ decReal d := by
  simp only [Dec.nonneg, Bool.and_eq_true, decide_eq_true_iff] at h
  have hnum : (0 : ℝ) ≤ d.num := by exact_mod_cast h.2
  exact div_nonneg hnum (Nat.cast_nonneg _)

theorem real_satLevel (c : Cfg) (d : ℝ) :
    satLevel (N := realDomain) c d = 1 / (1 + decReal c.driveK * d) := by
  simp only [satLevel, realDomain_ofInt, Int.cast_one]
  rfl

theorem real_satLevel_mem {c : Cfg} {d : ℝ} (hk : c.driveK.nonneg = true) (h0 : 0 ≤ d) :
    satLevel (N := realDomain) c d ∈ Set.Ioc (0 : ℝ) 1 := by
  have hgain : 1 ≤ 1 + decReal c.driveK * d :=
    le_add_of_nonneg_right (mul_nonneg (decReal_nonneg hk) h0)
  rw [real_satLevel]
  exact ⟨one_div_pos.mpr (zero_lt_one.trans_le hgain), div_le_one_of_le₀ hgain (zero_le_one.trans hgain)⟩

/-! ## The two kinds in REAL -/

/-- The kind CLAMP of REAL, for a level not below 0. -/
theorem real_fltSat_clamp {c : Cfg} (hkind : c.satKind = .clamp) (x : ℝ) {d : ℝ}
    (hl : 0 ≤ satLevel (N := realDomain) c d) :
    fltSat (N := realDomain) c x d =
      max (-satLevel (N := realDomain) c d) (min (satLevel (N := realDomain) c d) x) := by
  simp only [fltSat, hkind]
  exact real_san _ _ _ (neg_le_self hl)

/-- The kind TANH of REAL. -/
theorem real_fltSat_tanh {c : Cfg} (hkind : c.satKind = .tanh) (x d : ℝ) :
    fltSat (N := realDomain) c x d =
      satLevel (N := realDomain) c d * Real.tanh (x / satLevel (N := realDomain) c d) := by
  simp only [fltSat, hkind]
  rfl

theorem abs_clamp_le {l : ℝ} (hl : 0 ≤ l) (x : ℝ) : |max (-l) (min l x)| ≤ l :=
  abs_le.mpr ⟨le_max_left _ _, max_le (neg_le_self hl) (min_le_left _ _)⟩

theorem clamp_neg {l : ℝ} (hl : 0 ≤ l) (x : ℝ) : max (-l) (min l (-x)) = -max (-l) (min l x) := by
  calc max (-l) (min l (-x)) = min l (max (-l) (-x)) := by
        rw [max_min_distrib_left, max_eq_right (neg_le_self hl)]
    _ = -max (-l) (min l x) := by rw [max_neg_neg, ← min_neg_neg, neg_neg]

theorem clamp_of_abs_le {l x : ℝ} (h : |x| ≤ l) : max (-l) (min l x) = x := by
  obtain ⟨hlo, hhi⟩ := abs_le.mp h
  rw [min_eq_right hhi, max_eq_right hlo]

section Saturator
variable {c : Cfg} {d : ℝ}

theorem real_abs_fltSat_le (hl : 0 < satLevel (N := realDomain) c d) (x : ℝ) :
    |fltSat (N := realDomain) c x d| ≤ satLevel (N := realDomain) c d := by
  cases hkind : c.satKind with
  | clamp =>
    rw [real_fltSat_clamp hkind x hl.le]
    exact abs_clamp_le hl.le x
  | tanh =>
    rw [real_fltSat_tanh hkind, abs_mul, abs_of_pos hl]
    exact mul_le_of_le_one_right hl.le (Real.abs_tanh_lt_one _).le

theorem real_fltSat_neg (hl : 0 < satLevel (N := realDomain) c d) (x : ℝ) :
    fltSat (N := realDomain) c (-x) d = -fltSat (N := realDomain) c x d := by
  cases hkind : c.satKind with
  | clamp =>
    rw [real_fltSat_clamp hkind _ hl.le, real_fltSat_clamp hkind _ hl.le, clamp_neg hl.le]
  | tanh =>
    rw [real_fltSat_tanh hkind, real_fltSat_tanh hkind, neg_div, Real.tanh_neg, mul_neg]

theorem real_fltSat_mono (hl : 0 < satLevel (N := realDomain) c d) {x y : ℝ} (h : x ≤ y) :
    fltSat (N := realDomain) c x d ≤ fltSat (N := realDomain) c y d := by
  cases hkind : c.satKind with
  | clamp =>
    rw [real_fltSat_clamp hkind _ hl.le, real_fltSat_clamp hkind _ hl.le]
    exact max_le_max_left _ (min_le_min_left _ h)
  | tanh =>
    rw [real_fltSat_tanh hkind, real_fltSat_tanh hkind]
    exact mul_le_mul_of_nonneg_left (tanh_mono (div_le_div_of_nonneg_right h hl.le)) hl.le

/-- The clamp passes what its level bounds. -/
theorem real_fltSat_of_abs_le (hl : 0 < satLevel (N := realDomain) c d) (hkind : c.satKind = .clamp)
    {x : ℝ} (hx : |x| ≤ satLevel (N := realDomain) c d) : fltSat (N := realDomain) c x d = x := by
  rw [real_fltSat_clamp hkind x hl.le, clamp_of_abs_le hx]

end Saturator

/-! ## CFG_REF in binary32 -/

/-- `DRIVE_K` of `CFG_REF` is exact. -/
theorem f32Real_driveK_ref : (F32.ofDec Cfg.ref.driveK).isFinite = true ∧
    f32Real (F32.ofDec Cfg.ref.driveK) = 4 := by
  have h : F32.ofDec Cfg.ref.driveK = F32.ofInt 4 := by decide
  obtain ⟨hfin, hval⟩ := f32Real_ofInt (n := 4) (by norm_num)
  exact h ▸ ⟨hfin, by rw [hval]; norm_num⟩

/-- The saturator's gain `1 + DRIVE_K · d` is at least 1, and finite. -/
theorem f32_satGain {d : F32} (hd : F32.within .zero .one d) :
    let gain := F32.add .one (F32.mul (F32.ofDec Cfg.ref.driveK) d)
    gain.isFinite = true ∧ 1 ≤ f32Real gain := by
  intro gain
  obtain ⟨hk, hkval⟩ := f32Real_driveK_ref
  obtain ⟨hfin, h0, h1⟩ := within_zero_one_iff.mp hd
  obtain ⟨hfour, hfourval⟩ := f32Real_ofInt (n := 4) (by norm_num)
  obtain ⟨hfive, hfiveval⟩ := f32Real_ofInt (n := 5) (by norm_num)
  push_cast at hfourval hfiveval
  have hmul := roundedFrom_mul_of_isFinite hk hfin
  rw [hkval] at hmul
  obtain ⟨hprod, hprod0, hprod4⟩ := (within_iff isFinite_zero hfour).mp
    (roundedFrom_within hmul isFinite_zero hfour (by rw [f32Real_zero]; linarith) (by rw [hfourval]; linarith))
  rw [f32Real_zero] at hprod0
  rw [hfourval] at hprod4
  have hadd := roundedFrom_add_of_isFinite isFinite_one hprod
  rw [f32Real_one] at hadd
  obtain ⟨hgain, hgain1, -⟩ := (within_iff isFinite_one hfive).mp
    (roundedFrom_within hadd isFinite_one hfive (by rw [f32Real_one]; linarith) (by rw [hfiveval]; linarith))
  exact ⟨hgain, by rwa [f32Real_one] at hgain1⟩

/-- The level of `CFG_REF` is a number of the unit interval. -/
theorem f32_satLevel_within (elem : ElemFn → F32 → F32) {d : F32} (hd : F32.within .zero .one d) :
    F32.within .zero .one (satLevel (N := f32With elem) Cfg.ref d) := by
  have hdef : satLevel (N := f32With elem) Cfg.ref d =
      F32.div (F32.ofInt 1) (F32.add (F32.ofInt 1) (F32.mul (F32.ofDec Cfg.ref.driveK) d)) := rfl
  rw [hdef, F32.ofInt_one]
  obtain ⟨hgain, hgain1⟩ := f32_satGain hd
  have hdiv := roundedFrom_div_of_isFinite isFinite_one hgain (zero_lt_one.trans_le hgain1).ne'
  rw [f32Real_one] at hdiv
  refine roundedFrom_within hdiv isFinite_zero isFinite_one ?_ ?_
  · rw [f32Real_zero]
    exact one_div_nonneg.mpr (zero_le_one.trans hgain1)
  · rw [f32Real_one]
    exact div_le_one_of_le₀ hgain1 (zero_le_one.trans hgain1)

/-- The saturator of `CFG_REF` clamps to its level (R135). -/
theorem f32_fltSat_ref (elem : ElemFn → F32 → F32) (x d : F32) :
    fltSat (N := f32With elem) Cfg.ref x d =
      san (N := f32With elem) x (F32.neg (satLevel (N := f32With elem) Cfg.ref d))
        (some (satLevel (N := f32With elem) Cfg.ref d)) := rfl

/-- The saturator of `CFG_REF` is bounded by 1 on every input, a NaN and the infinities included. -/
theorem f32_abs_fltSat_le_one (elem : ElemFn → F32 → F32) (x : F32) {d : F32}
    (hd : F32.within .zero .one d) :
    F32.le (F32.abs (fltSat (N := f32With elem) Cfg.ref x d)) .one = true := by
  obtain ⟨hlevel, h0, h1⟩ := within_zero_one_iff.mp (f32_satLevel_within elem hd)
  obtain ⟨hsat, hbound⟩ := san_neg_abs_le elem x hlevel h0
  rw [← f32_fltSat_ref] at hsat hbound
  obtain ⟨habs, habsval⟩ := f32Real_abs_of_isFinite hsat
  rw [le_iff_of_isFinite habs isFinite_one, habsval, f32Real_one]
  exact hbound.trans h1

/-- Settles O46: in REAL each kind is bounded, odd and non-decreasing as its clamp or its `tanh` is; in
binary32 the level's roundings stay in the unit interval, and the clamp is bounded by the level. -/
theorem saturatorIsBounded : Obligations.SaturatorIsBounded := by
  unfold Obligations.SaturatorIsBounded
  refine ⟨fun c d x y hk h0 _ => ?_, fun elem x d => f32_abs_fltSat_le_one elem x⟩
  obtain ⟨hpos, hle⟩ := real_satLevel_mem hk h0
  exact ⟨hpos, hle, real_abs_fltSat_le hpos x, real_fltSat_neg hpos x, real_fltSat_mono hpos,
    fun hkind => real_fltSat_of_abs_le hpos hkind⟩

end Sys2Proof.Machine
end

section
/-! The flush of the filter's states in binary32 (R138), and the filter of `CFG_REF` in REAL: its
coefficient and its solved input (R136), its fixed point (R140), and the bounds that its two one-pole
stages keep (R139, R157). -/

namespace Sys2Proof.Machine

/-! ## The flush -/

theorem flushEps_ref : F32.ofDec Cfg.ref.flushEps = .fin false ⟨0x1E3CE508, by decide⟩ := by decide

/-- A stored state of `CFG_REF` that is finite and not +0.0 is not below `FLUSH_EPS`'s pattern. -/
theorem le_mag_of_flushedState {s : F32} (h : flushedState Cfg.ref s) :
    s = .zero ∨ ∀ neg mag, s = .fin neg mag → 0x1E3CE508 ≤ mag.val := by
  refine h.imp_right ?_
  rintro hlt neg mag rfl
  rw [flushEps_ref, F32.abs, F32.lt_fin, decide_eq_false_iff_not, not_lt] at hlt
  exact magUnits_le.mp (Int.ofNat_le.mp hlt)

/-- Settles O39: each stored state is the answer of a flush. -/
theorem filterStatesAreFlushed : Obligations.FilterStatesAreFlushed := by
  unfold Obligations.FilterStatesAreFlushed
  intro elem
  constructor
  · intro c s
    rw [← F32.ofInt_zero]
    rfl
  · intro v x cutoff res drive w
    simp only [List.forall_mem_cons, List.not_mem_nil, false_imp_iff, implies_true, and_true]
    exact ⟨le_mag_of_flushedState (flushedState_fltFlush ..),
      le_mag_of_flushedState (flushedState_fltFlush ..),
      le_mag_of_flushedState (flushedState_fltFlush ..)⟩

/-- The flush of REAL leaves 0 and what is not below `FLUSH_EPS` of `CFG_REF` alone. -/
theorem real_fltFlush_of_le {y : ℝ} (h : y = 0 ∨ 1 / 10 ^ 20 ≤ |y|) :
    fltFlush (N := realDomain) Cfg.ref y = y := by
  simp only [fltFlush, realDomain_lt, realDomain_abs, realDomain_ofDec, realDomain_ofInt]
  split
  · next hlt =>
    refine (h.resolve_right (not_le.mpr (hlt.trans_le ?_))).symm ▸ Int.cast_zero
    norm_num [Cfg.ref]
  · rfl

/-! ## The coefficient and the solved input -/

/-- The angle `PI · fc / FS` of `CFG_REF`, for the clamped cutoff. -/
noncomputable def fltAngle (cutoff : ℝ) : ℝ := Real.pi * max 5 (min 23520 cutoff) / 48000

theorem real_fltCoef (cutoff : ℝ) : fltCoef (N := realDomain) Cfg.ref cutoff =
    Real.tan (fltAngle cutoff) / (1 + Real.tan (fltAngle cutoff)) := by
  have hmin : realDomain.ofDec Cfg.ref.minFreq = 5 := by norm_num [Cfg.ref]
  have hmax : fmax (N := realDomain) Cfg.ref = 23520 := by
    simp only [fmax, realDomain_ofDec]
    norm_num [Cfg.ref]
  have hfs : realDomain.ofDec Cfg.ref.fs = 48000 := by norm_num [Cfg.ref]
  have hsan := real_san cutoff 5 23520 (by norm_num)
  simp only [fltCoef, hmin, hmax, hfs, hsan, realDomain_pi, realDomain_tan, realDomain_ofInt, Int.cast_one,
    fltAngle]

theorem fltAngle_pos (cutoff : ℝ) : 0 < fltAngle cutoff := by
  have hfc : 0 < max 5 (min 23520 cutoff) := lt_max_of_lt_left (by norm_num)
  have := Real.pi_pos
  unfold fltAngle
  positivity

/-- An upper bound of the clamped cutoff bounds the angle. -/
theorem fltAngle_le {cutoff top : ℝ} (h : max 5 (min 23520 cutoff) ≤ top) :
    fltAngle cutoff ≤ top / 48000 * Real.pi := by
  have := mul_le_mul_of_nonneg_left h Real.pi_pos.le
  unfold fltAngle
  linarith

theorem fltAngle_le_max (cutoff : ℝ) : fltAngle cutoff ≤ 49 / 100 * Real.pi :=
  (fltAngle_le (max_le (by norm_num) (min_le_left _ _))).trans_eq (by norm_num)

theorem fltAngle_le_quarter {cutoff : ℝ} (h : cutoff ≤ 12000) : fltAngle cutoff ≤ Real.pi / 4 :=
  (fltAngle_le (max_le (by norm_num) (min_le_of_right_le h))).trans_eq (by ring)

/-- The tangent grows on [0, pi/2). -/
theorem tan_le_tan_of_le {x y : ℝ} (h0 : 0 < x) (hxy : x ≤ y) (hy : y < Real.pi / 2) :
    Real.tan x ≤ Real.tan y :=
  Real.strictMonoOn_tan.monotoneOn ⟨by linarith, by linarith⟩ ⟨by linarith, hy⟩ hxy

theorem tan_fltAngle_pos (cutoff : ℝ) : 0 < Real.tan (fltAngle cutoff) :=
  Real.tan_pos_of_pos_of_lt_pi_div_two (fltAngle_pos cutoff)
    (by linarith [fltAngle_le_max cutoff, Real.pi_pos])

theorem tan_fltAngle_le_max (cutoff : ℝ) : Real.tan (fltAngle cutoff) ≤ Real.tan (49 / 100 * Real.pi) :=
  tan_le_tan_of_le (fltAngle_pos cutoff) (fltAngle_le_max cutoff) (by linarith [Real.pi_pos])

theorem tan_fltAngle_le_one {cutoff : ℝ} (h : cutoff ≤ 12000) : Real.tan (fltAngle cutoff) ≤ 1 := by
  rw [← Real.tan_pi_div_four]
  exact tan_le_tan_of_le (fltAngle_pos cutoff) (fltAngle_le_quarter h) (by linarith [Real.pi_pos])

theorem one_le_tan_max : 1 ≤ Real.tan (49 / 100 * Real.pi) := by
  have := Real.pi_pos
  rw [← Real.tan_pi_div_four]
  exact tan_le_tan_of_le (by positivity) (by linarith) (by linarith)

/-- R136, corner case (a): the coefficient lies in (0, 1). -/
theorem real_fltCoef_mem (cutoff : ℝ) : fltCoef (N := realDomain) Cfg.ref cutoff ∈ Set.Ioo (0 : ℝ) 1 := by
  have ht := tan_fltAngle_pos cutoff
  rw [real_fltCoef]
  exact ⟨by positivity, (div_lt_one (by positivity)).mpr (lt_one_add _)⟩

/-- A bound of the tangent bounds the coefficient. -/
theorem real_fltCoef_le {cutoff q : ℝ} (h : Real.tan (fltAngle cutoff) ≤ q) :
    fltCoef (N := realDomain) Cfg.ref cutoff ≤
      q * (1 - fltCoef (N := realDomain) Cfg.ref cutoff) := by
  have ht := tan_fltAngle_pos cutoff
  have hden : 1 + Real.tan (fltAngle cutoff) ≠ 0 := by positivity
  rw [real_fltCoef, one_sub_div hden, add_sub_cancel_right, mul_one_div]
  exact div_le_div_of_nonneg_right h (by positivity)

/-- The solved input of `CFG_REF` (R136), with the clamped resonance and drive. -/
theorem real_fltInput (g x s3 res drive : ℝ) : fltInput (N := realDomain) Cfg.ref g x s3 res drive =
    (x - 7 / 2 * max 0 (min 1 res) * fltSat (N := realDomain) Cfg.ref s3 (max 0 (min 1 drive))) /
      (1 + 7 / 2 * max 0 (min 1 res) * (g * g)) := by
  have hk : realDomain.ofDec Cfg.ref.kMax = 7 / 2 := by norm_num [Cfg.ref]
  simp only [fltInput, hk, realDomain_ofInt, Int.cast_zero, Int.cast_one, real_san _ _ _ zero_le_one]

/-- The feedback adds at most `K_MAX`, scaled by the clamped resonance, to the filter's input. -/
theorem real_abs_fltInput_le (g x s3 res drive : ℝ) :
    |fltInput (N := realDomain) Cfg.ref g x s3 res drive| ≤ |x| + 7 / 2 * max 0 (min 1 res) := by
  have hres : 0 ≤ max 0 (min 1 res) := le_max_left _ _
  obtain ⟨hlpos, hlle⟩ := real_satLevel_mem (c := Cfg.ref) (by decide) (le_max_left 0 (min 1 drive))
  have hsat := (real_abs_fltSat_le hlpos s3).trans hlle
  have hden : 1 ≤ 1 + 7 / 2 * max 0 (min 1 res) * (g * g) :=
    le_add_of_nonneg_right (mul_nonneg (by positivity) (mul_self_nonneg g))
  rw [real_fltInput, abs_div, abs_of_pos (zero_lt_one.trans_le hden)]
  refine (div_le_self (abs_nonneg _) hden).trans ((abs_sub _ _).trans (add_le_add_right ?_ _))
  rw [abs_mul, abs_of_nonneg (by positivity)]
  exact mul_le_of_le_one_right (by positivity) hsat

/-! ## The fixed point -/

/-- In the linear range of the saturator the input `y (1 + k (1 + g²))` is solved to `y`. -/
theorem real_fltInput_fixed {g y res drive : ℝ} (hr0 : 0 ≤ res) (hr1 : res ≤ 1) (hd0 : 0 ≤ drive)
    (hd1 : drive ≤ 1) (hy : |y| ≤ satLevel (N := realDomain) Cfg.ref drive) :
    fltInput (N := realDomain) Cfg.ref g (y * (1 + 7 / 2 * res * (1 + g * g))) y res drive = y := by
  have hl := (real_satLevel_mem (c := Cfg.ref) (by decide) hd0).1
  have hden : 1 + 7 / 2 * res * (g * g) ≠ 0 :=
    (add_pos_of_pos_of_nonneg one_pos (mul_nonneg (by positivity) (mul_self_nonneg g))).ne'
  rw [real_fltInput, min_eq_right hr1, max_eq_right hr0, min_eq_right hd1, max_eq_right hd0,
    real_fltSat_of_abs_le hl rfl hy, div_eq_iff hden]
  ring

/-- A one-pole stage of REAL whose state is its input answers it and keeps it. -/
theorem real_onePole_fixed (g y : ℝ) : onePole (N := realDomain) g y y = (y, y) := by
  have hlp : (y - y) * g + y = y := by ring
  have hst : (y - y) * g + y + (y - y) * g = y := by ring
  exact Prod.ext hlp hst

/-- Settles O48: the solved input is `y`, so each stage stays at `y`, and the flush leaves `y` alone. -/
theorem filterFixedPoint : Obligations.FilterFixedPoint := by
  unfold Obligations.FilterFixedPoint
  intro v y cutoff res drive hr0 hr1 hd0 hd1 hy hflush h1 h2 h3 g
  obtain ⟨phSaw, phSub, note, vel, gate, aenv, fenv, s1, s2, s3⟩ := v
  dsimp only at h1 h2 h3
  subst h1 h2 h3
  simp only [fltStep, g, real_fltInput_fixed hr0 hr1 hd0 hd1 hy, real_onePole_fixed, real_fltFlush_of_le hflush]

/-! ## The bounds of the one-pole stages -/

/-- `q` bounds a one-pole stage's state, and `r` its output, for an input bounded by 1. -/
structure StageBounds (g q r : ℝ) : Prop where
  coef_nonneg : 0 ≤ g
  coef_le_one : g ≤ 1
  one_le : 1 ≤ q
  coef_le : g ≤ q * (1 - g)
  output_le : g + (1 - g) * q ≤ r

/-- The output of a stage is a weighted mean of its input and its state. -/
theorem StageBounds.output {g q r b u s : ℝ} (h : StageBounds g q r) (hu : |u| ≤ b) (hs : |s| ≤ q * b) :
    |(onePole (N := realDomain) g u s).1| ≤ r * b := by
  have heq : (onePole (N := realDomain) g u s).1 = g * u + (1 - g) * s := by
    change (u - s) * g + s = _
    ring
  have hg1 : 0 ≤ 1 - g := sub_nonneg.mpr h.coef_le_one
  calc |(onePole (N := realDomain) g u s).1| ≤ g * |u| + (1 - g) * |s| := by
        rw [heq]
        refine (abs_add_le _ _).trans_eq ?_
        rw [abs_mul, abs_mul, abs_of_nonneg h.coef_nonneg, abs_of_nonneg hg1]
    _ ≤ g * b + (1 - g) * (q * b) := add_le_add (mul_le_mul_of_nonneg_left hu h.coef_nonneg)
        (mul_le_mul_of_nonneg_left hs hg1)
    _ = (g + (1 - g) * q) * b := by ring
    _ ≤ r * b := mul_le_mul_of_nonneg_right h.output_le ((abs_nonneg u).trans hu)

/-- The next state of a stage is `2 g u + (1 - 2 g) s`, which keeps the state's bound: for a
coefficient up to 1/2 as a weighted mean, above it by `g ≤ q (1 - g)`. -/
theorem StageBounds.state {g q r b u s : ℝ} (h : StageBounds g q r) (hu : |u| ≤ b) (hs : |s| ≤ q * b) :
    |(onePole (N := realDomain) g u s).2| ≤ q * b := by
  have heq : (onePole (N := realDomain) g u s).2 = 2 * g * u + (1 - 2 * g) * s := by
    change (u - s) * g + s + (u - s) * g = _
    ring
  have hb : 0 ≤ b := (abs_nonneg u).trans hu
  have hg := h.coef_nonneg
  have hweights : 2 * g + |1 - 2 * g| * q ≤ q := by
    rcases abs_cases (1 - 2 * g) with ⟨habs, -⟩ | ⟨habs, -⟩
    · rw [habs]
      linarith [mul_le_mul_of_nonneg_left h.one_le hg]
    · rw [habs]
      linarith [h.coef_le]
  calc |(onePole (N := realDomain) g u s).2| ≤ 2 * g * |u| + |1 - 2 * g| * |s| := by
        rw [heq]
        refine (abs_add_le _ _).trans_eq ?_
        rw [abs_mul (2 * g), abs_mul (1 - 2 * g), abs_of_nonneg (by positivity)]
    _ ≤ 2 * g * b + |1 - 2 * g| * (q * b) := add_le_add (mul_le_mul_of_nonneg_left hu (by positivity))
        (mul_le_mul_of_nonneg_left hs (abs_nonneg _))
    _ = (2 * g + |1 - 2 * g| * q) * b := by ring
    _ ≤ q * b := mul_le_mul_of_nonneg_right hweights hb

/-- Up to a quarter of the sample rate a stage keeps the bound of its input. -/
theorem stageBounds_low {cutoff : ℝ} (h : cutoff ≤ 12000) :
    StageBounds (fltCoef (N := realDomain) Cfg.ref cutoff) 1 1 where
  coef_nonneg := (real_fltCoef_mem cutoff).1.le
  coef_le_one := (real_fltCoef_mem cutoff).2.le
  one_le := le_rfl
  coef_le := real_fltCoef_le (tan_fltAngle_le_one h)
  output_le := by linarith

/-- At a coefficient that is held, the bounds of R157. -/
theorem stageBounds_held {g : ℝ} (h : g ∈ Set.Ioo (0 : ℝ) 1) :
    StageBounds g (max 1 (g / (1 - g))) (max 1 (2 * g)) where
  coef_nonneg := h.1.le
  coef_le_one := h.2.le
  one_le := le_max_left _ _
  coef_le := (div_le_iff₀ (sub_pos.mpr h.2)).mp (le_max_right _ _)
  output_le := by
    have hg1 : 0 < 1 - g := sub_pos.mpr h.2
    rw [mul_max_of_nonneg _ _ hg1.le, mul_div_cancel₀ _ hg1.ne', ← max_add_add_left]
    exact max_le_max (by linarith) (by linarith)

/-- At a coefficient that changes within the clamped range, the bounds of R157. -/
theorem stageBounds_changing (cutoff : ℝ) :
    StageBounds (fltCoef (N := realDomain) Cfg.ref cutoff) (Real.tan (49 / 100 * Real.pi))
      (Real.tan (49 / 100 * Real.pi)) where
  coef_nonneg := (real_fltCoef_mem cutoff).1.le
  coef_le_one := (real_fltCoef_mem cutoff).2.le
  one_le := one_le_tan_max
  coef_le := real_fltCoef_le (tan_fltAngle_le_max cutoff)
  output_le := by
    have := mul_le_mul_of_nonneg_left one_le_tan_max (real_fltCoef_mem cutoff).1.le
    linarith

/-! ## The bounds of the filter -/

/-- The output and the three states after a step are bounded: the output by `out`, the states by `b1`,
`b2` and `out`. -/
def FilterWithin (w : ℝ × Voice ℝ) (out b1 b2 : ℝ) : Prop :=
  |w.1| ≤ out ∧ |w.2.s1| ≤ b1 ∧ |w.2.s2| ≤ b2 ∧ |w.2.s3| ≤ out

/-- A step of the filter, for a solved input bounded by `b`: the second stage's input is the first
one's output, and no flush grows a state. -/
theorem StageBounds.filterWithin {q r b x cutoff res drive : ℝ} {v : Voice ℝ}
    (h : StageBounds (fltCoef (N := realDomain) Cfg.ref cutoff) q r)
    (hu : |fltInput (N := realDomain) Cfg.ref (fltCoef (N := realDomain) Cfg.ref cutoff) x v.s3 res drive|
      ≤ b)
    (h1 : |v.s1| ≤ q * b) (h2 : |v.s2| ≤ q * (r * b)) :
    FilterWithin (fltStep (N := realDomain) Cfg.ref v x cutoff res drive)
      (r * (r * b)) (q * b) (q * (r * b)) := by
  have hlp1 := h.output hu h1
  have hlp2 := h.output hlp1 h2
  exact ⟨hlp2, (real_flush_abs_le _ _).trans (h.state hu h1), (real_flush_abs_le _ _).trans (h.state hlp1 h2),
    (real_flush_abs_le _ _).trans hlp2⟩

/-- An input in [-1, 1] is solved to at most 4.5, and without resonance to at most 1. -/
theorem real_abs_fltInput_le_bound {g x s3 res drive bound : ℝ} (hx : |x| ≤ 1)
    (hb : bound = 9 / 2 ∨ (bound = 1 ∧ res ≤ 0)) :
    |fltInput (N := realDomain) Cfg.ref g x s3 res drive| ≤ bound := by
  have hu := real_abs_fltInput_le g x s3 res drive
  rcases hb with rfl | ⟨rfl, hres⟩
  · have : max 0 (min 1 res) ≤ 1 := max_le zero_le_one (min_le_left _ _)
    linarith
  · have : max 0 (min 1 res) = 0 := max_eq_left (min_le_of_right_le hres)
    rw [this] at hu
    linarith

/-- Two stages at a held coefficient gain less than 4. -/
theorem heldGain_lt_four {g bound : ℝ} (hg : g ∈ Set.Ioo (0 : ℝ) 1) (hb : 0 < bound) :
    max 1 (2 * g) * (max 1 (2 * g) * bound) < 4 * bound := by
  have hr1 : 1 ≤ max 1 (2 * g) := le_max_left _ _
  have hr2 : max 1 (2 * g) < 2 := max_lt (by norm_num) (by linarith [hg.2])
  rw [← mul_assoc]
  exact mul_lt_mul_of_pos_right (by nlinarith) hb

/-- Settles O47: the solved input is bounded, and the two stages keep the bounds that hold at a low, a
held and a changing coefficient. -/
theorem filterIsBounded : Obligations.FilterIsBounded := by
  unfold Obligations.FilterIsBounded
  refine ⟨?_, ?_, ?_⟩
  · intro cutoff x s3 res drive g
    have hres : max 0 (min 1 res) ≤ 1 := max_le zero_le_one (min_le_left _ _)
    have hu := real_abs_fltInput_le g x s3 res drive
    exact ⟨(real_fltCoef_mem cutoff).1, (real_fltCoef_mem cutoff).2, hu.trans (by linarith)⟩
  · intro v x cutoff res drive bound hcut hx h1 h2 hb
    have hlow := (stageBounds_low hcut).filterWithin (v := v)
      (real_abs_fltInput_le_bound (drive := drive) hx hb) (by rwa [one_mul]) (by rwa [one_mul, one_mul])
    simp only [one_mul] at hlow
    exact hlow
  · intro v x cutoff res drive bound hx hb g q r Q w
    have hu := real_abs_fltInput_le_bound (g := g) (s3 := v.s3) (drive := drive) hx hb
    have hpos : 0 < bound := by
      rcases hb with rfl | ⟨rfl, -⟩ <;> norm_num
    exact ⟨heldGain_lt_four (real_fltCoef_mem cutoff) hpos,
      (stageBounds_held (real_fltCoef_mem cutoff)).filterWithin hu,
      (stageBounds_changing cutoff).filterWithin hu⟩

end Sys2Proof.Machine
end

section
/-! NOTEOFF of a held note (R202, R171, R152), and the inactive voice under a TICK (R156). -/

namespace Sys2Proof.Machine

/-! ## NOTEOFF of a held note -/

/-- With the notes apart (R36 (a)), the search for a note finds the slot that holds it. -/
theorem slotHolding_of_notesApart {a : Alloc} (h : a.notesApart) {i : ℕ} {x : Slot}
    (hx : a.slots[i]? = some x) (hvalid : x.valid = true) : slotHolding a.slots x.note = some i := by
  cases hfound : slotHolding a.slots x.note with
  | none => exact absurd rfl (slotHolding_none.mp hfound x (List.mem_of_getElem? hx) hvalid)
  | some j =>
    obtain ⟨y, hy, hyvalid, hynote⟩ := slotHolding_some hfound
    have hsymm : ∀ x y : Slot, ¬(x.valid = true ∧ y.valid = true ∧ x.note = y.note) →
        ¬(y.valid = true ∧ x.valid = true ∧ y.note = x.note) :=
      fun x y hxy ⟨hv, hv', hn⟩ => hxy ⟨hv', hv, hn.symm⟩
    by_contra hji
    exact (pairwise_iff_getElem?_ne hsymm).mp h j i y x (fun he => hji (congrArg some he)) hy hx
      ⟨hyvalid, hvalid, hynote⟩

/-- A list changed where it has the entry `x`. -/
theorem modify_eq_set_of_getElem? {β : Type} {l : List β} {i : ℕ} {x : β} (h : l[i]? = some x)
    (f : β → β) : l.modify i f = l.set i (f x) := by
  rw [List.modify_eq_set_getElem?, h]
  rfl

/-- The response to a NOTEOFF that found its note (R44): bit 15 and the slot. -/
theorem noteOffResponse_some {i : ℕ} (h : i < 128) :
    noteOffResponse (some i) = BitVec.ofNat 16 (0x8000 + i) := by
  apply BitVec.eq_of_toNat_eq
  simp only [noteOffResponse, respWord, BitVec.toNat_append, BitVec.toNat_ofNat, BitVec.toNat_ofBool]
  rw [Nat.mod_eq_of_lt (by omega : i < 2 ^ 8), Nat.mod_eq_of_lt (by omega : 0x8000 + i < 2 ^ 16),
    ← Nat.shiftLeft_add_eq_or_of_lt (by omega : i < 2 ^ 8)]
  rfl

/-- Settles O22: the search finds the slot, and the changes of the slot and of its voice are written
where the two stand. -/
theorem noteOffReleasesHeldNote : Obligations.NoteOffReleasesHeldNote := by
  unfold Obligations.NoteOffReleasesHeldNote
  rintro s note i x v hapart hx hvalid rfl hv hi
  have hfound := slotHolding_of_notesApart hapart hx hvalid
  calc exec (.noteOff x.note) s
    _ = execNoteOff x.note s := rfl
    _ = _ := execNoteOff_held hfound
    _ = _ := by
      simp only [allocNoteOff, hfound, State.modifyVoice, State.raiseResponse, noteOffResponse_some hi,
        modify_eq_set_of_getElem? hx, modify_eq_set_of_getElem? hv]
      rfl

/-! ## The inactive voice -/

/-- What a TICK leaves of the voices (R204): each is processed on its own. -/
theorem tickSample_voices (s : State) : (tickSample s).2.1 = s.voices.map fun v =>
    (voiceProcess (N := f32Domain s.cfg.elem) s.cfg (readPatch s.cfg s.params) v).2 := by
  rw [tickSample, processVoices_eq (N := f32Domain s.cfg.elem)]

/-- Settles O28: an inactive voice is skipped, and a TICK processes each voice on its own. -/
theorem inactiveVoiceIsFrozen : Obligations.InactiveVoiceIsFrozen := by
  unfold Obligations.InactiveVoiceIsFrozen
  intro s i v hv hinactive
  have hskip := voiceProcess_inactive (N := f32Domain s.cfg.elem) s.cfg (readPatch s.cfg s.params) v hinactive
  refine ⟨(congrArg Prod.fst hskip).trans F32.ofInt_zero, _, rfl, ?_⟩
  rw [State.raiseSample_voices, tickSample_voices, List.getElem?_map, hv, Option.map_some, hskip]

end Sys2Proof.Machine
end

section
/-! VOICE.PROCESS by its seven steps (R153): in binary32 the formulas of the model are those of the spec's
pseudocode, operation for operation, and in REAL the frequency and the cutoff are those of R154. -/

namespace Sys2Proof.Machine

/-! ## Active and inactive voices -/

section Activity
variable {α : Type} [N : NumDomain α] {c : Cfg} {v : Voice α}

theorem isActive_iff :
    isActive c v = true ↔ v.gate = true ∨ N.lt (N.ofDec c.activeEps) v.aenv.val = true :=
  Bool.or_eq_true_iff

theorem isActive_eq_false_iff :
    isActive c v = false ↔ v.gate = false ∧ N.lt (N.ofDec c.activeEps) v.aenv.val = false :=
  Bool.or_eq_false_iff

/-- An active voice goes through the seven steps (R153). -/
theorem voiceProcess_active (p : Patch α) (h : isActive c v = true) :
    voiceProcess c p v = voiceSample c p v := if_pos h

end Activity

/-! ## The frequency in REAL -/

theorem real_noteOffset (note : Note) (ref : ℤ) :
    noteOffset (N := realDomain) note ref = (note.toNat : ℝ) - ref := by
  simp only [noteOffset, realDomain_ofInt, Int.cast_sub, Int.cast_natCast]

theorem real_noteFreq (note : Note) :
    noteFreq (N := realDomain) note = 440 * (2 : ℝ) ^ (((note.toNat : ℝ) - 69) / 12) := by
  simp only [noteFreq, real_noteOffset, realDomain_ofInt, realDomain_exp2, Int.cast_ofNat]

theorem real_bendFactor (c : Cfg) (pb : ℝ) :
    bendFactor (N := realDomain) c pb = (2 : ℝ) ^ (pb * decReal c.bendRange / 12) := by
  simp only [bendFactor, realDomain_ofInt, realDomain_ofDec, realDomain_exp2, Int.cast_ofNat, decReal]

/-! ## The cutoff in REAL -/

/-- The velocity's factor of the base cutoff (R154): 1 without `VEL_EN`. -/
noncomputable def velocityFactor (c : Cfg) (vel : ℝ) : ℝ :=
  if c.velEn = true then 1 - decReal c.velCutAmt * (1 - vel) else 1

/-- The base cutoff of REAL (R154): key tracking and the velocity's factor. -/
theorem real_baseCutoff (c : Cfg) (cutoffHz : ℝ) (note : Note) (vel : ℝ) :
    baseCutoff (N := realDomain) c cutoffHz note vel =
      cutoffHz * (2 : ℝ) ^ (decReal c.keytrack * ((note.toNat : ℝ) - 60) / 12) * velocityFactor c vel := by
  simp only [baseCutoff, velocityFactor, real_noteOffset, realDomain_ofInt, realDomain_ofDec,
    realDomain_exp2, Int.cast_ofNat, Int.cast_one, decReal]
  split
  · rfl
  · rw [mul_one]

/-- The filter envelope in Hz (R154, `ADD_HZ`). -/
theorem real_modulatedCutoff_addHz {c : Cfg} (h : c.fenvMode = .addHz) (base depth env : ℝ) :
    modulatedCutoff (N := realDomain) c base depth (env * env) = base + depth * env ^ 2 := by
  simp only [modulatedCutoff, h, sq]

/-- The filter envelope as a share of the room below the ceiling (R154, `SWEEP`). -/
theorem real_modulatedCutoff_sweep {c : Cfg} (h : c.fenvMode = .sweep) (base depth env : ℝ) :
    modulatedCutoff (N := realDomain) c base depth (env * env) =
      base + max (decReal c.fenvCeilHz - base) 0 * depth * env ^ 2 := by
  simp only [modulatedCutoff, h, real_maxNum, realDomain_ofInt, realDomain_ofDec, Int.cast_zero, decReal, sq]

/-- A full sweep from below ends at the ceiling (R154). -/
theorem real_modulatedCutoff_fullSweep {c : Cfg} (h : c.fenvMode = .sweep) {base : ℝ}
    (hle : base ≤ decReal c.fenvCeilHz) :
    modulatedCutoff (N := realDomain) c base 1 (1 * 1) = decReal c.fenvCeilHz := by
  rw [real_modulatedCutoff_sweep h, max_eq_left (sub_nonneg.mpr hle)]
  ring

/-- The filter's coefficient (R136) clamps the cutoff to the range of the configuration (R14). -/
theorem real_fltCoef_of_le {c : Cfg} (h : decReal c.minFreq ≤ decReal c.fs * decReal c.nyqFrac)
    (cutoff : ℝ) :
    let g := Real.tan (Real.pi *
      max (decReal c.minFreq) (min (decReal c.fs * decReal c.nyqFrac) cutoff) / decReal c.fs)
    fltCoef (N := realDomain) c cutoff = g / (1 + g) := by
  have hsan := real_san cutoff _ _ h
  simp only [decReal] at hsan ⊢
  simp only [fltCoef, fmax, realDomain_ofDec, realDomain_pi, realDomain_tan, realDomain_ofInt, Int.cast_one,
    hsan]

/-! ## The seven steps -/

/-- Settles O60. The clauses on binary32 and on the patch hold by definition: the model's formulas, read
over binary32, are the spelled operations, for either kind of each switch. What is left is which
voices are active, and the formulas in REAL. -/
theorem voiceProcessFollowsItsSevenSteps : Obligations.VoiceProcessFollowsItsSevenSteps := by
  unfold Obligations.VoiceProcessFollowsItsSevenSteps
  refine ⟨?frequency, ?oscillator, ?folder, ?coefficient, ?filter, ?voice, ?patch, ?real⟩
  case frequency => exact fun _ _ _ _ => ⟨rfl, rfl⟩
  case oscillator => exact fun _ _ _ => rfl
  case folder => exact f32_fold
  case coefficient => exact fun _ _ _ => rfl
  case filter => exact fun _ _ _ _ _ _ _ => rfl
  case voice =>
    intro elem c p v
    constructor
    · intro hinactive
      exact voiceProcess_inactive (N := f32With elem) c p v
        ((isActive_eq_false_iff (N := f32With elem)).mpr hinactive)
    · intro hactive
      exact voiceProcess_active (N := f32With elem) p ((isActive_iff (N := f32With elem)).mpr hactive)
  case patch => exact fun _ _ => rfl
  case real =>
    intro c note pb cutoffHz vel depth env n kv B fc top
    have hfc : fc = modulatedCutoff (N := realDomain) c B depth (env * env) :=
      congrArg (modulatedCutoff (N := realDomain) c · depth (env * env))
        (real_baseCutoff c cutoffHz note vel)
    refine ⟨real_noteFreq note, real_bendFactor c pb, ?addHz, ?sweep, ?fullSweep,
      fun h => real_fltCoef_of_le h fc⟩
    case addHz => exact fun h => hfc.trans (real_modulatedCutoff_addHz h B depth env)
    case sweep => exact fun h => hfc.trans (real_modulatedCutoff_sweep h B depth env)
    case fullSweep =>
      rintro h rfl rfl hle
      exact hfc.trans (real_modulatedCutoff_fullSweep h hle)

end Sys2Proof.Machine
end

section
/-! The allocator: what a NOTEON answers (R170), a pool that is filled note by note and then one note more
(R176), and the age counter over a program (R173). -/

namespace Sys2Proof.Machine

/-! ## The choice of a slot -/

/-- Settles O19: `chooseSlot` answers by the priorities of R170, and the slot and the counter are written
as `allocNoteOn` says. -/
theorem allocNoteOnByPriority : Obligations.AllocNoteOnByPriority := by
  unfold Obligations.AllocNoteOnByPriority
  intro a note hne
  have hchosen := chooseSlot_chosenBy hne note
  exact ⟨_, _, hchosen, chosenBy_lt hchosen, rfl⟩

theorem chooseSlot_held {slots : List Slot} {note : Note} {i : ℕ} (h : slotHolding slots note = some i) :
    chooseSlot slots note = (i, .held) := by
  simp [chooseSlot, h]

theorem chooseSlot_free {slots : List Slot} {note : Note} {i : ℕ} (h : slotHolding slots note = none)
    (hfree : lowestFree slots = some i) : chooseSlot slots note = (i, .free) := by
  simp [chooseSlot, h, hfree]

theorem chooseSlot_steal {slots : List Slot} {note : Note} (h : slotHolding slots note = none)
    (hfull : lowestFree slots = none) : chooseSlot slots note = (oldestSlot slots, .steal) := by
  simp [chooseSlot, h, hfull]

/-- A slot that takes the note it already holds (R170 (a)) leaves which slots hold which notes as it was. -/
theorem holders_set_self {slots : List Slot} {i : ℕ} {x : Slot} (hx : slots[i]? = some x)
    (hvalid : x.valid = true) (age j : ℕ) :
    ((slots.set i ⟨true, x.note, age⟩)[j]?).map (fun y : Slot => (y.valid, y.note)) =
      (slots[j]?).map (fun y : Slot => (y.valid, y.note)) := by
  by_cases hji : i = j
  · subst hji
    simp [List.getElem?_set_self (List.getElem?_eq_some_iff.mp hx).1, hx, hvalid]
  · rw [List.getElem?_set_ne hji]

/-! ## Filling a pool -/

/-- The slots of the notes `held`, triggered one after the other from reset: in that order, with the ages
1, 2, and so on. -/
def triggered (held : List Note) : List Slot := held.mapIdx fun i note => ⟨true, note, i + 1⟩

theorem triggered_concat (held : List Note) (note : Note) :
    triggered (held ++ [note]) = triggered held ++ [⟨true, note, held.length + 1⟩] := List.mapIdx_concat

theorem length_triggered (held : List Note) : (triggered held).length = held.length := List.length_mapIdx

theorem mem_triggered {held : List Note} {x : Slot} (hx : x ∈ triggered held) :
    x.valid = true ∧ x.note ∈ held := by
  obtain ⟨i, hi, rfl⟩ := List.mem_mapIdx.mp hx
  exact ⟨rfl, List.getElem_mem hi⟩

theorem age_triggered {held : List Note} {i : ℕ} {x : Slot} (hx : (triggered held)[i]? = some x) :
    x.age = i + 1 := by
  rw [triggered, List.getElem?_mapIdx, Option.map_eq_some_iff] at hx
  obtain ⟨note, -, rfl⟩ := hx
  rfl

theorem lowestFree_triggered (held : List Note) : lowestFree (triggered held) = none :=
  lowestFree_none.mpr fun _ hx => (mem_triggered hx).1

/-- The oldest of the triggered slots is the first: the ages grow with the index. -/
theorem oldestSlot_triggered {held : List Note} (hne : held ≠ []) : oldestSlot (triggered held) = 0 := by
  have hlength : 0 < (triggered held).length := by
    rw [length_triggered]
    exact List.length_pos_iff.mpr hne
  obtain ⟨x, hx, hmin⟩ := oldestSlot_spec _ (List.length_pos_iff.mp hlength)
  have hfirst := List.getElem?_eq_getElem hlength
  have hle := (hmin 0 _ hfirst).1
  rw [age_triggered hx, age_triggered hfirst] at hle
  omega

/-- The allocator after a NOTEON for each of `held`, from reset, on a pool with `free` slots left (R176):
the notes stand in the order of their triggers, with the ages 1, 2, and so on. -/
def filledPool (held : List Note) (free : ℕ) : Alloc :=
  ⟨triggered held ++ List.replicate free Slot.reset, held.length⟩

theorem filledPool_nil (c : Cfg) : filledPool [] c.nVoices = Alloc.resetOf c := rfl

theorem filledPool_zero (held : List Note) : filledPool held 0 = ⟨triggered held, held.length⟩ := by
  rw [filledPool, List.replicate_zero, List.append_nil]

/-- No slot of the pool holds a note that is not in `held`. -/
theorem slotHolding_filledPool {held : List Note} {note : Note} (hnew : note ∉ held) (free : ℕ) :
    slotHolding (filledPool held free).slots note = none := by
  rw [slotHolding_none]
  rintro x hx hvalid rfl
  rcases List.mem_append.mp hx with hx | hx
  · exact hnew (mem_triggered hx).2
  · rw [List.eq_of_mem_replicate hx] at hvalid
    cases hvalid

/-- The lowest free slot comes right after those of the held notes. -/
theorem lowestFree_filledPool_succ (held : List Note) (free : ℕ) :
    lowestFree (filledPool held (free + 1)).slots = some held.length := by
  have hfull := lowestFree_triggered held
  rw [lowestFree] at hfull ⊢
  rw [filledPool, List.findIdx?_append, hfull, length_triggered, List.replicate_succ]
  simp [List.findIdx?_cons, Slot.reset]

/-- A new note takes the first free slot (R170 (b)). -/
theorem allocNoteOn_filledPool_succ {held : List Note} {note : Note} (hnew : note ∉ held) (free : ℕ) :
    allocNoteOn (filledPool held (free + 1)) note =
      ((held.length, .free), filledPool (held ++ [note]) free) := by
  rw [allocNoteOn, chooseSlot_free (slotHolding_filledPool hnew (free + 1))
    (lowestFree_filledPool_succ held free)]
  simp [filledPool, triggered_concat, List.replicate_succ, ← length_triggered held]

/-- A new note on a full pool steals the slot that was triggered first (R170 (c)). -/
theorem allocNoteOn_filledPool_zero {held : List Note} {note : Note} (hnew : note ∉ held)
    (hne : held ≠ []) : (allocNoteOn (filledPool held 0) note).1 = (0, .steal) := by
  have hnone := slotHolding_filledPool hnew 0
  rw [filledPool_zero] at hnone ⊢
  calc chooseSlot (triggered held) note
    _ = (oldestSlot (triggered held), .steal) := chooseSlot_steal hnone (lowestFree_triggered held)
    _ = (0, .steal) := by rw [oldestSlot_triggered hne]

/-- New notes, as many as there are free slots and one more, take the free slots in turn and then steal
the slot that was triggered first. -/
theorem allocAnswers_filledPool (held notes : List Note) (last : Note)
    (hapart : (held ++ (notes ++ [last])).Nodup) (hne : held ++ notes ≠ []) :
    allocAnswers (filledPool held notes.length) (notes ++ [last]) =
      (List.range' held.length notes.length).map (fun i => (i, NoteOnKind.free)) ++
        [(0, NoteOnKind.steal)] := by
  induction notes generalizing held with
  | nil =>
    have hnew : last ∉ held := fun hmem =>
      List.disjoint_of_nodup_append hapart hmem List.mem_cons_self
    rw [List.append_nil] at hne
    simp [allocAnswers, allocNoteOn_filledPool_zero hnew hne]
  | cons note notes ih =>
    have hnew : note ∉ held := fun hmem =>
      List.disjoint_of_nodup_append hapart hmem List.mem_cons_self
    have hrest := ih (held ++ [note]) (by simpa using hapart) (by simp)
    rw [List.length_append, List.length_singleton] at hrest
    simp only [List.cons_append, List.length_cons, allocAnswers, allocNoteOn_filledPool_succ hnew, hrest,
      List.range'_succ, List.map_cons]

/-- Settles O21: the search finds the slot of a held note, which keeps its note; and N distinct notes fill
the pool in the order of their triggers, so that the next one finds the first slot the oldest. -/
theorem oneNoteTooManyStealsFirstSlot : Obligations.OneNoteTooManyStealsFirstSlot := by
  unfold Obligations.OneNoteTooManyStealsFirstSlot
  constructor
  · rintro a note i x hapart hx hvalid rfl
    have hchoice := chooseSlot_held (slotHolding_of_notesApart hapart hx hvalid)
    exact ⟨_, by rw [allocNoteOn, hchoice], holders_set_self hx hvalid (a.ctr + 1)⟩
  · intro c notes hpool hapart hlength
    have hnotes : notes ≠ [] := List.ne_nil_of_length_eq_add_one hlength
    obtain ⟨fill, last, rfl⟩ := (List.eq_nil_or_concat' notes).resolve_left hnotes
    have hfill : fill.length = c.nVoices := by simpa using hlength
    have hne : fill ≠ [] := List.length_pos_iff.mp (hfill ▸ hpool)
    rw [← filledPool_nil, ← hfill, List.range_eq_range']
    exact allocAnswers_filledPool [] fill last hapart hne

/-! ## The age counter -/

theorem allocNoteOff_ctr (a : Alloc) (note : Note) : (allocNoteOff a note).2.ctr = a.ctr := by
  unfold allocNoteOff
  split <;> rfl

/-- Every command but INIT leaves the counter alone or, if it is a NOTEON, adds 1 to it (R173). -/
theorem nextAlloc_ctr_commandOf (c : Cfg) (a : Alloc) {w : CmdWord}
    (hinit : opBits w ≠ 0x0500000000000000#64) :
    (nextAlloc c a (commandOf w)).ctr =
      a.ctr + if opBits w = 0x0100000000000000#64 then 1 else 0 := by
  obtain ⟨-, hnoteOn, -, -, -, hisInit, -⟩ := opcodeMaskSelectsCommand w
  simp only [hnoteOn]
  rcases decode_cases w with ⟨i, hi⟩ | herror
  · rw [commandOf_of_ok hi]
    cases i with
    | noteOn n v => simp [hi, nextAlloc, allocNoteOn]
    | noteOff n => simp [hi, nextAlloc, allocNoteOff_ctr]
    | init => exact absurd (hisInit.mpr hi) hinit
    | nop | setp _ _ | tick => simp [hi, nextAlloc]
  · rw [commandOf_of_error herror]
    simp [herror, nextAlloc]

/-- A program ends where the rest of it ends from the state its first command leaves. -/
theorem runProgram_cons_final {s : State} (hs : s.ready) (w : CmdWord) (ws : List CmdWord) :
    ∃ t, t.ready ∧ t.alloc = nextAlloc s.cfg s.alloc (commandOf w) ∧
      (runProgram s (w :: ws)).1 = (runProgram t ws).1 := by
  have hstep := step_eq_exec (s := { s with pending := w :: ws }) (rest := ws) hs rfl
  obtain ⟨t, ht, heff⟩ :=
    exec_controlEffect (commandOf w) (State.accept { s with pending := w :: ws } ws) rfl rfl
  exact ⟨t, heff.ready hs, heff.alloc, by simp [runProgram, hstep, ht]⟩

/-- Settles O26, by induction on the program. -/
theorem ageCounterCountsNoteOns : Obligations.AgeCounterCountsNoteOns := by
  unfold Obligations.AgeCounterCountsNoteOns
  intro s ws hs hinit
  induction ws generalizing s with
  | nil => rfl
  | cons w ws ih =>
    obtain ⟨hw, hws⟩ := List.forall_mem_cons.mp hinit
    obtain ⟨t, hready, halloc, hrun⟩ := runProgram_cons_final hs w ws
    rw [hrun, ih t hready hws, halloc, nextAlloc_ctr_commandOf s.cfg s.alloc hw, List.countP_cons]
    simp only [beq_iff_eq]
    omega

end Sys2Proof.Machine
end

section
/-! The effects chain: in REAL the shape of the saturating stage of topology B (R186) and of the crossfade
of topology A (R188), and in binary32 the chain's three branches (R185), each in rounded operations. -/

namespace Sys2Proof.Machine

/-! ## Topology B in REAL -/

/-- `FX.B` of REAL, its clamp written with `max` and `min` (R186). -/
theorem real_fxB (c : Cfg) (x amt : ℝ) : fxB (N := realDomain) c x amt =
    x + amt * (max (-1) (min 1 (x * (1 + decReal c.fxK * amt))) - x) := by
  have hclamp := real_san (x * (1 + decReal c.fxK * amt)) (-1) 1 (by norm_num)
  simp only [fxB, realDomain_ofInt, realDomain_ofDec, Int.cast_neg, Int.cast_one]
  exact congrArg (fun wet => x + amt * (wet - x)) hclamp

theorem real_fxB_neg (c : Cfg) (x amt : ℝ) :
    fxB (N := realDomain) c (-x) amt = -fxB (N := realDomain) c x amt := by
  rw [real_fxB, real_fxB, neg_mul, clamp_neg zero_le_one]
  ring

/-- The stage mixes the operand and its clamp in the shares `1 - amt` and `amt`, neither of them negative,
and the gain before the clamp is not negative either. -/
theorem real_fxB_mono {c : Cfg} {amt x y : ℝ} (hk : c.fxK.nonneg = true) (h0 : 0 ≤ amt) (h1 : amt ≤ 1)
    (hxy : x ≤ y) : fxB (N := realDomain) c x amt ≤ fxB (N := realDomain) c y amt := by
  have hgain : 0 ≤ 1 + decReal c.fxK * amt := add_nonneg zero_le_one (mul_nonneg (decReal_nonneg hk) h0)
  have hwet : max (-1) (min 1 (x * (1 + decReal c.fxK * amt))) ≤
      max (-1) (min 1 (y * (1 + decReal c.fxK * amt))) :=
    max_le_max_left _ (min_le_min_left _ (mul_le_mul_of_nonneg_right hxy hgain))
  have hdryShare := mul_le_mul_of_nonneg_left hxy (sub_nonneg.mpr h1)
  have hwetShare := mul_le_mul_of_nonneg_left hwet h0
  rw [real_fxB, real_fxB]
  linarith

theorem real_fxB_zero_left (c : Cfg) (amt : ℝ) : fxB (N := realDomain) c 0 amt = 0 := by
  rw [real_fxB, zero_mul, clamp_of_abs_le (by norm_num), sub_zero, mul_zero, add_zero]

theorem real_fxB_zero_right (c : Cfg) (x : ℝ) : fxB (N := realDomain) c x 0 = x := by
  rw [real_fxB, zero_mul, add_zero]

/-- At full amount only the clamp is left. -/
theorem real_abs_fxB_one_le (c : Cfg) (x : ℝ) : |fxB (N := realDomain) c x 1| ≤ 1 := by
  rw [real_fxB, one_mul, add_sub_cancel]
  exact abs_clamp_le zero_le_one _

/-! ## The crossfade of topology A in REAL -/

/-- The lower half: from the dry signal to the modulation stage. -/
theorem real_crossfade_of_le_half (x m b : ℝ) {amt : ℝ} (h : amt ≤ 1 / 2) :
    crossfade (N := realDomain) x m b amt = (1 - 2 * amt) * x + 2 * amt * m := by
  have hle : realDomain.le amt (realDomain.ofDec ⟨1, 2⟩) = true := by simpa using h
  calc crossfade (N := realDomain) x m b amt = x + ((2 : ℤ) : ℝ) * amt * (m - x) := if_pos hle
    _ = (1 - 2 * amt) * x + 2 * amt * m := by push_cast; ring

/-- The upper half: from the modulation stage to the ambience stage. At the midpoint the rule takes the
lower half, and both halves answer the modulation stage. -/
theorem real_crossfade_of_half_le (x m b : ℝ) {amt : ℝ} (h : 1 / 2 ≤ amt) :
    crossfade (N := realDomain) x m b amt = (2 - 2 * amt) * m + (2 * amt - 1) * b := by
  rcases h.eq_or_lt with rfl | hlt
  · rw [real_crossfade_of_le_half x m b le_rfl]
    ring
  · have hle : ¬ realDomain.le amt (realDomain.ofDec ⟨1, 2⟩) = true := by simpa using hlt
    calc crossfade (N := realDomain) x m b amt
        = m + (((2 : ℤ) : ℝ) * amt - ((1 : ℤ) : ℝ)) * (b - m) := if_neg hle
      _ = (2 - 2 * amt) * m + (2 * amt - 1) * b := by push_cast; ring

/-- Settles O49: the stage of topology B through its clamp, the ends and the midpoint of the crossfade
through the half they lie on. -/
theorem effectsStagesShape : Obligations.EffectsStagesShape := by
  unfold Obligations.EffectsStagesShape
  refine ⟨fun c x y amt hk h0 h1 => ?saturate, fun x m b amt => ?fade⟩
  case saturate =>
    refine ⟨real_fxB_neg c x amt, real_fxB_mono hk h0 h1, real_fxB_zero_left c amt,
      real_fxB_zero_right c x, ?_, real_fxB c x amt⟩
    rintro rfl
    exact real_abs_fxB_one_le c x
  case fade =>
    refine ⟨?dry, ?middle, ?ambience, real_crossfade_of_le_half x m b, real_crossfade_of_half_le x m b⟩
    case dry =>
      rw [real_crossfade_of_le_half x m b (by norm_num)]
      ring
    case middle =>
      rw [real_crossfade_of_le_half x m b le_rfl]
      ring
    case ambience =>
      rw [real_crossfade_of_half_le x m b (by norm_num)]
      ring

/-! ## The chain in binary32 -/

/-- `FX.B` of binary32 (R186): three rounded operations before the clamp and three after it. -/
theorem f32_fxB (elem : ElemFn → F32 → F32) (c : Cfg) (x amt : F32) :
    fxB (N := f32With elem) c x amt =
      F32.add x (F32.mul amt (F32.sub
        (san (N := f32With elem) (F32.mul x (F32.add (F32.ofInt 1) (F32.mul (F32.ofDec c.fxK) amt)))
          (F32.ofInt (-1)) (some (F32.ofInt 1))) x)) := rfl

/-- The crossfade of binary32 (R188), one rounded operation after the other on either half. -/
theorem f32_crossfade (elem : ElemFn → F32 → F32) (x m b amt : F32) :
    crossfade (N := f32With elem) x m b amt =
      if F32.le amt (F32.ofDec ⟨1, 2⟩) = true then
        F32.add x (F32.mul (F32.mul (F32.ofInt 2) amt) (F32.sub m x))
      else F32.add m (F32.mul (F32.sub (F32.mul (F32.ofInt 2) amt) (F32.ofInt 1)) (F32.sub b m)) := rfl

/-! ## The three branches of the chain -/

section Process
variable {α σ τ : Type} [N : NumDomain α] {c : Cfg} {modStep : σ → α → σ × α} {ambStep : τ → α → τ × α}
  {amt : α}

theorem fxProcess_bypass (h : N.lt amt (N.ofDec c.fxBypassEps) = true) (x : α) (st : σ × τ) :
    fxProcess c modStep ambStep x amt st = (x, st) := if_pos h

theorem fxProcess_of_b (h : N.lt amt (N.ofDec c.fxBypassEps) = false) (hb : c.fxTopology = .b) (x : α)
    (st : σ × τ) : fxProcess c modStep ambStep x amt st = (fxB c x amt, st) := by
  unfold fxProcess
  rw [if_neg (ne_true_of_eq_false h), hb]

theorem fxProcess_of_a (h : N.lt amt (N.ofDec c.fxBypassEps) = false) (ha : c.fxTopology = .a) (x : α)
    (st : σ × τ) : fxProcess c modStep ambStep x amt st = fxA modStep ambStep x amt st := by
  unfold fxProcess
  rw [if_neg (ne_true_of_eq_false h), ha]

end Process

section Run
variable {c : Cfg} {amt : F32}

/-- The bypass returns the operand itself and touches no buffer (R185). -/
theorem fxRun_bypass (h : F32.lt amt (F32.ofDec c.fxBypassEps) = true) (x : F32) (st : FxState) :
    fxRun c x amt st = (x, st) := by
  unfold fxRun
  rw [fxProcess_bypass (N := f32Domain c.elem) h]

/-- Topology B from the threshold on: its stage, and no buffer touched. -/
theorem fxRun_of_b (h : F32.lt amt (F32.ofDec c.fxBypassEps) = false) (hb : c.fxTopology = .b) (x : F32)
    (st : FxState) : fxRun c x amt st = (fxB (N := f32Domain c.elem) c x amt, st) := by
  unfold fxRun
  rw [fxProcess_of_b (N := f32Domain c.elem) h hb]

/-- Topology A from the threshold on: both stages stepped, the ambience stage on the modulation stage's
output (R188). -/
theorem fxRun_of_a (h : F32.lt amt (F32.ofDec c.fxBypassEps) = false) (ha : c.fxTopology = .a) (x : F32)
    (st : FxState) :
    let m := stageStep .modulation c.modFx st.mod x
    let b := stageStep .ambience c.ambFx st.amb m.2
    fxRun c x amt st = (crossfade (N := f32Domain c.elem) x m.2 b.2 amt, ⟨m.1, b.1⟩) := by
  unfold fxRun
  rw [fxProcess_of_a (N := f32Domain c.elem) h ha]
  rfl

end Run

/-- Settles O40: the three branches of the chain, their arithmetic in binary32, and what is fixed of the
free stages. -/
theorem effectsChainContract : Obligations.EffectsChainContract := by
  unfold Obligations.EffectsChainContract
  refine ⟨fun c x amt st => ⟨fun hlow => fxRun_bypass hlow x st, fun hhigh hb => ?saturate,
    fun hhigh ha => ?stages⟩, fun kind p buffer x => ?free⟩
  case saturate => rw [fxRun_of_b hhigh hb, f32_fxB]
  case stages => rw [fxRun_of_a hhigh ha, f32_crossfade]
  case free => exact ⟨stageStep_length kind p buffer x, stageStep_finite kind p buffer x⟩

end Sys2Proof.Machine
end

section
/-! Reset (R260, R261), the idle block (R276), and that every command and every step completes (R230). -/

namespace Sys2Proof.Machine

/-- Settles O6: no command faults, and each kind of step answers a next state. -/
theorem everyCommandCompletes : Obligations.EveryCommandCompletes := by
  unfold Obligations.EveryCommandCompletes
  have hexec : ∀ (i : Instr) (s : State), ∃ t, exec i s = .next t := fun i s => by
    obtain ⟨t, ht, -⟩ := exec_samePort i s
    exact ⟨t, ht⟩
  refine ⟨hexec, fun s => ?_⟩
  cases hrst : s.rst with
  | true => exact ⟨_, step_of_rst hrst⟩
  | false =>
    cases hready : s.cmdReady with
    | false => exact ⟨_, step_of_not_cmdReady hrst hready⟩
    | true =>
      cases hp : s.pending with
      | nil => exact ⟨_, step_of_no_command ⟨hrst, hready⟩ hp⟩
      | cons w rest =>
        rw [step_eq_exec ⟨hrst, hready⟩ hp]
        exact hexec _ _

/-- Settles O1: the fields of the reset state are those of Table 70-1 by definition, once the topology
of the chain is known. -/
theorem resetState : Obligations.ResetState := by
  unfold Obligations.ResetState
  refine ⟨rfl, fun s hrst => ⟨_, step_of_rst hrst, State.underReset_cmdReady s⟩, fun c => ?_⟩
  exact ⟨rfl, rfl, fxResetOf_of_a, rfl, rfl, rfl, rfl, rfl, rfl⟩

/-- Settles O2: the two steps of a reset. -/
theorem resetInputForcesResetState : Obligations.ResetInputForcesResetState := by
  unfold Obligations.ResetInputForcesResetState
  refine fun s => ⟨fun hrst => ?_, fun hrst hready => step_of_not_cmdReady hrst hready⟩
  rw [step_of_rst hrst, State.underReset, hrst]

/-- Settles O5: the step without a word on the port. -/
theorem idleBlockHoldsState : Obligations.IdleBlockHoldsState := by
  unfold Obligations.IdleBlockHoldsState
  exact fun s hs hp => step_of_no_command hs hp

end Sys2Proof.Machine
end

section
/-! NOP, NOTEON, NOTEOFF of a note that no slot holds, and INIT (R200 to R202, R206). -/

namespace Sys2Proof.Machine

/-- Settles O18: NOP answers the state it runs on. -/
theorem nopChangesNothing : Obligations.NopChangesNothing := by
  unfold Obligations.NopChangesNothing
  exact fun s => rfl

/-- Settles O25: INIT writes the reset values of the voices, the allocator and the chain. -/
theorem initResetsVoicesAndAllocator : Obligations.InitResetsVoicesAndAllocator := by
  unfold Obligations.InitResetsVoicesAndAllocator
  exact fun s => rfl

/-! ## NOTEON -/

/-- Without a velocity operand a voice is started at 1.0 (R83). -/
theorem velocityNum_none (elem : ElemFn → F32 → F32) : velocityNum (N := f32With elem) none = .one :=
  F32.ofInt_one

/-- With a velocity operand it is started at the quotient by 127 (R151). -/
theorem velocityNum_some {α : Type} [N : NumDomain α] (n : Velocity) :
    velocityNum (some n) = N.ofInt (n.toNat : ℤ) / N.ofInt 127 := rfl

/-- The quotient of binary32 (R10), said for operands that stay folded. -/
theorem f32With_div (elem : ElemFn → F32 → F32) (a b : F32) :
    letI := f32With elem
    a / b = F32.div a b := rfl

theorem f32_velocityNum_some (elem : ElemFn → F32 → F32) (n : Velocity) :
    velocityNum (N := f32With elem) (some n) = F32.div (F32.ofInt n.toNat) (F32.ofInt 127) :=
  (velocityNum_some (N := f32With elem) n).trans (f32With_div elem _ _)

/-- The voice a NOTEON starts (R151), field by field in binary32; only RETRIGGER clears the phases and
the filter states. -/
theorem voiceNoteOn_fields (elem : ElemFn → F32 → F32) (c : Cfg) (note : Note)
    (velocity : Option Velocity) (v : Voice F32) :
    let cleared := fun x : F32 => if c.retrig = .retrigger then .zero else x
    voiceNoteOn (N := f32With elem) c note velocity v =
      { phSaw := cleared v.phSaw, phSub := cleared v.phSub, note := note,
        vel := velocityNum (N := f32With elem) velocity, gate := true,
        aenv := ⟨.attack, v.aenv.val⟩, fenv := ⟨.attack, v.fenv.val⟩,
        s1 := cleared v.s1, s2 := cleared v.s2, s3 := cleared v.s3 } := by
  have hzero : (f32With elem).ofInt 0 = .zero := F32.ofInt_zero
  unfold voiceNoteOn
  cases c.retrig with
  | retrigger => simp only [fltReset, hzero, envGateOn, if_true]
  | legato => simp only [envGateOn, reduceCtorEq, if_false]

/-- The response to a NOTEON (R44): bit 15, the kind from bit 13 on, and the slot. -/
theorem noteOnResponse_eq (kind : NoteOnKind) {slot : ℕ} (h : slot < 128) :
    noteOnResponse kind slot = BitVec.ofNat 16 (0x8000 + 0x2000 * kind.code.toNat + slot) := by
  apply BitVec.eq_of_toNat_eq
  simp only [noteOnResponse, respWord, BitVec.toNat_append, BitVec.toNat_ofNat, BitVec.toNat_ofBool]
  rw [Nat.mod_eq_of_lt (by omega : slot < 2 ^ 8), ← Nat.shiftLeft_add_eq_or_of_lt (by omega : slot < 2 ^ 8)]
  cases kind with
  | held | free | steal => simp [NoteOnKind.code]; omega

/-- Settles O20: the slot is chosen by the priorities of R170, and its entry and its voice are written
where the two stand. -/
theorem noteOnStartsChosenVoice : Obligations.NoteOnStartsChosenVoice := by
  unfold Obligations.NoteOnStartsChosenVoice
  intro s note velocity hlen hpos hmax
  obtain ⟨slot, kind, hchoice⟩ : ∃ slot kind, chooseSlot s.alloc.slots note = (slot, kind) := ⟨_, _, rfl⟩
  have hchosen := chooseSlot_chosenBy (List.length_pos_iff.mp (hlen ▸ hpos)) note
  rw [hchoice] at hchosen
  have hlt : slot < s.voices.length := hlen ▸ chosenBy_lt hchosen
  have hv := List.getElem?_eq_getElem hlt
  refine ⟨slot, kind, _, hchosen, hv, ?_⟩
  calc exec (.noteOn note velocity) s
    _ = execNoteOn note velocity s := rfl
    _ = _ := by
      simp only [execNoteOn, allocNoteOn, hchoice, State.modifyVoice, State.raiseResponse,
        modify_eq_set_of_getElem? hv, voiceNoteOn_fields, noteOnResponse_eq kind (hlt.trans_le hmax)]
      cases kind with
      | held | free | steal =>
        simp only [NoteOnKind.code, BitVec.toNat_ofNat, Nat.reducePow, Nat.reduceMod]
        cases velocity with
        | none => rw [velocityNum_none]
        | some _ => rw [f32_velocityNum_some]

/-! ## NOTEOFF of a note that no slot holds -/

/-- Settles O23: the search finds no slot. -/
theorem noteOffOfUnheldNote : Obligations.NoteOffOfUnheldNote := by
  unfold Obligations.NoteOffOfUnheldNote
  exact fun s note h => execNoteOff_unheld (slotHolding_none.mpr h)

/-- With the notes apart (R36 (a)), a NOTEON that steals the slot of a note leaves that note in no slot. -/
theorem unheld_after_steal {a : Alloc} {note : Note} {slot : ℕ} {x : Slot} (hapart : a.notesApart)
    (hx : a.slots[slot]? = some x) (hvalid : x.valid = true)
    (hsteal : (allocNoteOn a note).1 = (slot, .steal)) :
    ∀ y ∈ (allocNoteOn a note).2.slots, y.valid = true → y.note ≠ x.note := by
  have hchoice : chooseSlot a.slots note = (slot, .steal) := hsteal
  have hmem : x ∈ a.slots := List.mem_of_getElem? hx
  have hchosen := chooseSlot_chosenBy (List.ne_nil_of_mem hmem) note
  rw [hchoice] at hchosen
  have hslots : (allocNoteOn a note).2.slots = a.slots.set slot ⟨true, note, a.ctr + 1⟩ := by
    simp only [allocNoteOn, hchoice]
  intro y hy hyvalid hnote
  obtain ⟨j, hj⟩ := List.mem_iff_getElem?.mp hy
  rw [hslots, List.set_eq_modify] at hj
  rcases getElem?_modify_eq_some hj with ⟨-, z, -, rfl⟩ | ⟨hjslot, hj⟩
  · exact (hchosen.1 x hmem).2 hnote.symm
  · have hfound := slotHolding_of_notesApart hapart hj hyvalid
    rw [hnote, slotHolding_of_notesApart hapart hx hvalid] at hfound
    exact hjslot (Option.some.inj hfound).symm

/-- Settles O24: after the theft no slot holds the stolen note, so its NOTEOFF finds nothing (O23). -/
theorem staleNoteOffIsHarmless : Obligations.StaleNoteOffIsHarmless := by
  unfold Obligations.StaleNoteOffIsHarmless
  rintro s note _ velocity slot x hapart hx hvalid rfl hsteal
  exact ⟨_, rfl, noteOffOfUnheldNote _ x.note (unheld_after_steal hapart hx hvalid hsteal)⟩

end Sys2Proof.Machine
end

section
/-! TICK (R204, R243, R263): each voice on its own, the sum of the samples through the chain into `OUT`;
and silence in `CFG_REF`. -/

namespace Sys2Proof.Machine

/-- Settles O27: the fold of the samples through `processVoices` is the ordered sum, and processing a
voice keeps its note, velocity and gate. -/
theorem tickProducesOneSample : Obligations.TickProducesOneSample := by
  unfold Obligations.TickProducesOneSample
  intro s result sum chain
  refine ⟨?_, voiceProcess_frame (N := f32Domain s.cfg.elem) s.cfg (readPatch s.cfg s.params)⟩
  have hvoices : processVoices (N := f32Domain s.cfg.elem) s.cfg (readPatch s.cfg s.params) .zero s.voices =
      (sum, s.voices.map fun v => (result v).2) :=
    processVoices_eq (N := f32Domain s.cfg.elem) s.cfg _ _ _
  calc exec .tick s
    _ = execTick s := rfl
    _ = _ := by
      simp only [execTick, tickSample, hvoices]
      rfl

/-- The voices a TICK leaves, one by one. -/
theorem voices_of_tick {s t : State} (h : exec .tick s = .next t) (i : ℕ) :
    t.voices[i]? = (s.voices[i]?).map fun v =>
      (voiceProcess (N := f32Domain s.cfg.elem) s.cfg (readPatch s.cfg s.params) v).2 := by
  rw [(tickProducesOneSample s).1] at h
  cases h
  exact List.getElem?_map

/-- Settles O30: a TICK takes voice `i` of both states through the same function. -/
theorem voicesShareNothing : Obligations.VoicesShareNothing := by
  unfold Obligations.VoicesShareNothing
  intro s s' t t' i hcfg hparams hvoice ht ht'
  rw [voices_of_tick ht, voices_of_tick ht', hcfg, hparams, hvoice]

/-! ## Zeros of binary32 -/

/-- No units are rounded to a zero of the given sign (R10). -/
theorem round_zero_units (neg : Bool) : F32.round neg 0 (1 <<< 149) = .fin neg 0 := by
  cases neg <;> decide

/-- The product of +0.0 with a finite number is a zero of its sign (R10). -/
theorem zero_mul_f32 (t : Bool) (n : F32Mag) : F32.mul .zero (.fin t n) = .fin t 0 :=
  calc F32.mul .zero (.fin t n) = F32.round (false != t) (0 * magUnits n) (1 <<< 149) := rfl
    _ = .fin t 0 := by rw [Bool.false_bne, Nat.zero_mul, round_zero_units]

/-- The product of a finite number with a zero of either sign is a zero (R10). -/
theorem mul_zero_f32 (s t : Bool) (m : F32Mag) : F32.mul (.fin s m) (.fin t 0) = .fin (s != t) 0 :=
  calc F32.mul (.fin s m) (.fin t 0) = F32.round (s != t) (magUnits m * 0) (1 <<< 149) := rfl
    _ = .fin (s != t) 0 := by rw [Nat.mul_zero, round_zero_units]

/-- A zero of either sign added to +0.0 is +0.0. -/
theorem zero_add_zero_f32 (s : Bool) : F32.add .zero (.fin s 0) = .zero := by cases s <;> rfl

/-- The chain's clamp keeps a zero (R14, R186). -/
theorem san_unit_zero (elem : ElemFn → F32 → F32) (s : Bool) :
    san (N := f32With elem) (.fin s 0) (F32.ofInt (-1)) (some (F32.ofInt 1)) = .fin s 0 := by
  rw [F32.ofInt_neg_one, F32.ofInt_one]
  exact san_of_mem elem rfl (by cases s <;> decide) fun _ h => by cases h; cases s <;> decide

/-- +0.0 taken from a zero of either sign leaves that zero. -/
theorem zero_sub_zero_f32 (s : Bool) : F32.sub (.fin s 0) .zero = .fin s 0 := by cases s <;> rfl

/-! ## Silence -/

/-- An amount in the unit interval gives a finite gain `1 + k · amt`, for a `k` far within the format. -/
theorem gain_isFinite {k amt : F32} {n : ℕ} (hk : k.isFinite = true) (hkn : |f32Real k| ≤ n)
    (hn : n + 1 ≤ 2 ^ 24) (hamt : F32.within .zero .one amt) :
    (F32.add (F32.ofInt 1) (F32.mul k amt)).isFinite = true := by
  obtain ⟨hone, honeval⟩ := f32Real_ofInt (n := 1) (by norm_num)
  obtain ⟨hfin, h0, h1⟩ := within_zero_one_iff.mp hamt
  have hprod : |f32Real k * f32Real amt| ≤ n := by
    rw [abs_mul, abs_of_nonneg h0]
    exact (mul_le_of_le_one_right (abs_nonneg _) h1).trans hkn
  obtain ⟨hmul, hmulle⟩ := roundedFrom_abs_le_int (roundedFrom_mul_of_isFinite hk hfin) n (by omega) hprod
  refine (roundedFrom_abs_le_int (roundedFrom_add_of_isFinite hone hmul) (n + 1) hn ?_).1
  calc |f32Real (F32.ofInt 1) + f32Real (F32.mul k amt)|
      ≤ |f32Real (F32.ofInt 1)| + |f32Real (F32.mul k amt)| := abs_add_le _ _
    _ ≤ 1 + n := add_le_add (by rw [honeval]; norm_num) hmulle
    _ = (n + 1 : ℕ) := by push_cast; ring

/-- The chain of `CFG_REF` answers +0.0 to +0.0 for every amount in the unit interval. -/
theorem fxRun_zero {amt : F32} (hamt : F32.within .zero .one amt) (st : FxState) :
    fxRun Cfg.ref .zero amt st = (.zero, st) := by
  cases hlow : F32.lt amt (F32.ofDec Cfg.ref.fxBypassEps) with
  | true => exact fxRun_bypass hlow .zero st
  | false =>
    have hkval : F32.ofDec Cfg.ref.fxK = F32.ofInt 4 := by decide
    obtain ⟨hk, hkreal⟩ := f32Real_ofInt (n := 4) (by norm_num)
    obtain ⟨t, n, hgain⟩ := exists_fin_of_isFinite
      (gain_isFinite (n := 4) hk (by rw [hkreal]; norm_num) (by norm_num) hamt)
    obtain ⟨s, m, rfl⟩ := exists_fin_of_isFinite (isFinite_of_within isFinite_zero isFinite_one hamt)
    rw [fxRun_of_b hlow rfl, f32_fxB, hkval, hgain, zero_mul_f32, san_unit_zero,
      zero_sub_zero_f32, mul_zero_f32, zero_add_zero_f32]

/-- The effects amount is read in the unit interval, whatever the register holds (R65, Table 20-1). -/
theorem rd_pFx_within (c : Cfg) (p : Params) : F32.within .zero .one (rd c p .pFx) := by
  have hends : rd c p .pFx = san (N := f32Domain c.elem) (F32.ofBits (p.get .pFx)) .zero (some .one) := by
    rw [rd, lo_eq_tableRange, hi_eq_tableRange]
    rfl
  have h := san_clampAnswer (elemApply c.elem) (x := F32.ofBits (p.get .pFx)) isFinite_zero
    (hi := some .one) (by rintro _ ⟨⟩; exact ⟨isFinite_one, by decide⟩)
  rw [hends]
  exact ⟨h.low, h.high _ rfl⟩

section Inactive
variable {elem : ElemFn → F32 → F32} {c : Cfg} {voices : List (Voice F32)}
  (h : ∀ v ∈ voices, isActive (N := f32With elem) c v = false) (p : Patch F32)
include h

/-- Inactive voices are left as they are (R156). -/
theorem map_voiceProcess_inactive :
    (voices.map fun v => (voiceProcess (N := f32With elem) c p v).2) = voices := by
  have hkept : ∀ v ∈ voices, (voiceProcess (N := f32With elem) c p v).2 = id v := fun v hv => by
    rw [voiceProcess_inactive (N := f32With elem) c p v (h v hv)]
    rfl
  rw [List.map_congr_left hkept, List.map_id]

/-- The samples of inactive voices add up to +0.0 (R156, R204). -/
theorem sum_voiceProcess_inactive :
    (voices.map fun v => (voiceProcess (N := f32With elem) c p v).1).foldl F32.add .zero = .zero := by
  have hzero : ∀ v ∈ voices, (voiceProcess (N := f32With elem) c p v).1 = .zero := fun v hv => by
    rw [voiceProcess_inactive (N := f32With elem) c p v (h v hv)]
    exact F32.ofInt_zero
  rw [List.map_congr_left hzero, List.foldl_map]
  exact List.foldl_fixed' (fun _ => zero_add_zero_f32 false) _

end Inactive

/-- Settles O29: the inactive voices are kept, their samples add up to +0.0, and the chain answers +0.0
to that. -/
theorem silentBlockGivesZero : Obligations.SilentBlockGivesZero := by
  unfold Obligations.SilentBlockGivesZero
  intro s hcfg hinactive
  rw [(tickProducesOneSample s).1, map_voiceProcess_inactive hinactive, sum_voiceProcess_inactive hinactive,
    hcfg, fxRun_zero (rd_pFx_within _ _), ← hcfg]
  rfl

end Sys2Proof.Machine
end

section
/-! Which command writes which output, and that no command looks at the stream (R205 (c), (e), R240). -/

namespace Sys2Proof.Machine

/-- What the outputs and the stream have to do with a command from `s` to `t`: `OUT`, `RESP` and the
parameter registers change under their own commands alone, and `t` follows from the state of the block
whatever the stream is. -/
structure OwnOutputs (i : Instr) (s t : State) : Prop where
  out : t.out ≠ s.out → i = .tick
  resp : t.resp ≠ s.resp → (∃ n v, i = .noteOn n v) ∨ ∃ n, i = .noteOff n
  params : t.params ≠ s.params → ∃ a v, i = .setp a v
  stream (n : ℕ) (ps : List CmdWord) :
    exec i { s with pc := n, pending := ps } = .next { t with pc := n, pending := ps }

theorem exec_ownOutputs (i : Instr) (s : State) : ∃ t, exec i s = .next t ∧ OwnOutputs i s t := by
  cases i with
  | nop => exact ⟨_, rfl, ⟨absurd rfl, absurd rfl, absurd rfl, fun _ _ => rfl⟩⟩
  | noteOn note velocity =>
    exact ⟨_, rfl, ⟨absurd rfl, fun _ => .inl ⟨note, velocity, rfl⟩, absurd rfl, fun _ _ => rfl⟩⟩
  | noteOff note =>
    cases h : slotHolding s.alloc.slots note with
    | none =>
      exact ⟨_, execNoteOff_unheld h, ⟨absurd rfl, fun _ => .inr ⟨note, rfl⟩, absurd rfl,
        fun _ _ => execNoteOff_unheld h⟩⟩
    | some k =>
      exact ⟨_, execNoteOff_held h, ⟨absurd rfl, fun _ => .inr ⟨note, rfl⟩, absurd rfl,
        fun _ _ => execNoteOff_held h⟩⟩
  | setp addr value =>
    exact ⟨_, rfl, ⟨absurd rfl, absurd rfl, fun _ => ⟨addr, value, rfl⟩, fun _ _ => rfl⟩⟩
  | tick => exact ⟨_, rfl, ⟨fun _ => rfl, absurd rfl, absurd rfl, fun _ _ => rfl⟩⟩
  | init => exact ⟨_, rfl, ⟨absurd rfl, absurd rfl, absurd rfl, fun _ _ => rfl⟩⟩

/-- The note commands are those with a response (R44). -/
theorem response_isSome_iff (a : Alloc) (i : Instr) :
    (response a i).isSome = true ↔ (∃ n v, i = .noteOn n v) ∨ ∃ n, i = .noteOff n := by
  cases i <;> simp [response]

theorem observed_sample_isSome (t : State) : t.observed.1.isSome = t.outValid := by
  cases h : t.outValid <;> simp [State.observed, h]

theorem observed_response_isSome (t : State) : t.observed.2.isSome = t.respValid := by
  cases h : t.respValid <;> simp [State.observed, h]

/-- Settles O31: the pulses are what a driver observes, the port and the configuration are left alone,
and the rest is `OwnOutputs`. -/
theorem outputsBelongToTheirCommands : Obligations.OutputsBelongToTheirCommands := by
  unfold Obligations.OutputsBelongToTheirCommands
  intro i s t hout hresp ht
  obtain ⟨t₁, ht₁, heffect⟩ := exec_controlEffect i s hout hresp
  obtain ⟨t₂, ht₂, hport⟩ := exec_samePort i s
  obtain ⟨t₃, ht₃, hown⟩ := exec_ownOutputs i s
  cases ht.symm.trans ht₁
  cases ht.symm.trans ht₂
  cases ht.symm.trans ht₃
  refine ⟨?sample, ?response, hown.out, hown.resp, hown.params, hport.cfg, hport.pc, hport.pending,
    hport.cmdReady, hport.rst, hown.stream⟩
  case sample => rw [← observed_sample_isSome, heffect.sample]
  case response => rw [← observed_response_isSome, heffect.response, response_isSome_iff]

end Sys2Proof.Machine
end

section
/-! The driver's reference curves: in REAL their shape (R221 to R225), and in binary32 the reset values of
the derived registers (R226). -/

namespace Sys2Proof.Machine

/-! ## REAL -/

section Curves
variable {x : ℝ} (h0 : 0 ≤ x) (h1 : x ≤ 1)
include h0 h1

theorem real_rawControl : rawControl (N := realDomain) x = x := by
  have hclamp := real_san x 0 1 zero_le_one
  rw [min_eq_right h1, max_eq_right h0] at hclamp
  simpa only [rawControl, realDomain_ofInt, Int.cast_zero, Int.cast_one] using hclamp

theorem real_curveCutoff :
    curveCutoff (N := realDomain) (fun a b => a ^ b) x = 5 * (3600 : ℝ) ^ x := by
  simp only [curveCutoff, real_rawControl h0 h1, realDomain_ofInt, Int.cast_ofNat]

/-- The curve's own case at 0 is the power's value there. -/
theorem real_curveDrive :
    curveDrive (N := realDomain) (fun a b => a ^ b) x = x ^ (3 / 5 : ℝ) := by
  simp only [curveDrive, real_rawControl h0 h1, realDomain_eq, realDomain_ofInt, realDomain_ofDec,
    Int.cast_zero, Int.cast_ofNat, Nat.cast_ofNat]
  split
  · next hx => rw [hx, Real.zero_rpow (by norm_num)]
  · rfl

theorem real_curveRes : curveRes (N := realDomain) x = x * x := by
  unfold curveRes
  rw [real_rawControl h0 h1]

theorem real_curveDecay :
    curveDecay (N := realDomain) (fun a b => a ^ b) x = 5 / 1000 * (1000 : ℝ) ^ x := by
  simp only [curveDecay, real_rawControl h0 h1, realDomain_ofInt, realDomain_ofDec, Int.cast_ofNat,
    Nat.cast_ofNat]

theorem real_curveFenv_ref : curveFenv (N := realDomain) Cfg.ref x = 10000 * x := by
  simp only [curveFenv, Cfg.ref, real_rawControl h0 h1, realDomain_ofInt, Int.cast_ofNat]

end Curves

/-- Settles O50: each curve is a power or a product of the raw control, strictly increasing as such. -/
theorem curvesAreIncreasing : Obligations.CurvesAreIncreasing := by
  unfold Obligations.CurvesAreIncreasing
  intro pow
  refine ⟨fun x y h0 hxy h1 => ?increasing, ?ends⟩
  case increasing =>
    have hx1 := hxy.le.trans h1
    have hy0 := h0.trans hxy.le
    rw [real_curveCutoff h0 hx1, real_curveCutoff hy0 h1, real_curveDrive h0 hx1, real_curveDrive hy0 h1,
      real_curveRes h0 hx1, real_curveRes hy0 h1, real_curveDecay h0 hx1, real_curveDecay hy0 h1,
      real_curveFenv_ref h0 hx1, real_curveFenv_ref hy0 h1]
    refine ⟨?_, Real.rpow_lt_rpow h0 hxy (by norm_num), mul_self_lt_mul_self h0 hxy, ?_, ?_⟩
    · exact mul_lt_mul_of_pos_left (Real.rpow_lt_rpow_of_exponent_lt (by norm_num) hxy) (by norm_num)
    · exact mul_lt_mul_of_pos_left (Real.rpow_lt_rpow_of_exponent_lt (by norm_num) hxy) (by norm_num)
    · exact mul_lt_mul_of_pos_left hxy (by norm_num)
  case ends =>
    have hroot : (3600 : ℝ) ^ (1 / 2 : ℝ) = 60 := by
      rw [← Real.sqrt_eq_rpow, show (3600 : ℝ) = 60 ^ 2 by norm_num, Real.sqrt_sq (by norm_num)]
    rw [real_curveCutoff le_rfl zero_le_one, real_curveCutoff zero_le_one le_rfl,
      real_curveCutoff (by norm_num) (by norm_num), real_curveDrive le_rfl zero_le_one,
      real_curveDrive zero_le_one le_rfl, real_curveRes le_rfl zero_le_one, real_curveRes zero_le_one le_rfl,
      real_curveDecay le_rfl zero_le_one, real_curveDecay zero_le_one le_rfl,
      real_curveFenv_ref le_rfl zero_le_one, real_curveFenv_ref zero_le_one le_rfl, hroot]
    norm_num

/-! ## The reset values -/

/-- The raw controls reset to 0.5 and to 0.0, within the range every curve clamps to. -/
theorem rawControl_half : rawControl (N := f32Domain .reference) (F32.ofBits 0x3F000000#32) =
    F32.ofBits 0x3F000000#32 := by decide

theorem rawControl_zero : rawControl (N := f32Domain .reference) (F32.ofBits 0#32) = .zero := by decide

/-- The square root of 3600 is exact. -/
theorem f32Pow_3600_half : f32Pow (F32.ofInt 3600) (F32.ofBits 0x3F000000#32) = F32.ofInt 60 := by
  decide +kernel

/-- The square root of 1000 rounded once. -/
theorem f32Pow_1000_half :
    f32Pow (F32.ofInt 1000) (F32.ofBits 0x3F000000#32) = F32.ofBits 0x41FCFB72#32 := by
  decide +kernel

theorem f32_curveCutoff_half : curveCutoff (N := f32Domain .reference) f32Pow (F32.ofBits 0x3F000000#32) =
    F32.mul (F32.ofInt 5) (F32.ofInt 60) := by
  unfold curveCutoff
  rw [rawControl_half]
  exact congrArg (F32.mul (F32.ofInt 5)) f32Pow_3600_half

theorem f32_curveDecay_half : curveDecay (N := f32Domain .reference) f32Pow (F32.ofBits 0x3F000000#32) =
    F32.mul (F32.ofDec ⟨5, 1000⟩) (F32.ofBits 0x41FCFB72#32) := by
  unfold curveDecay
  rw [rawControl_half]
  exact congrArg (F32.mul (F32.ofDec ⟨5, 1000⟩)) f32Pow_1000_half

/-- At 0.0 this curve takes no power (R222). -/
theorem f32_curveDrive_zero : curveDrive (N := f32Domain .reference) f32Pow (F32.ofBits 0#32) = .zero := by
  unfold curveDrive
  rw [rawControl_zero]
  exact (if_pos (by decide)).trans F32.ofInt_zero

theorem f32_curveRes_zero : curveRes (N := f32Domain .reference) (F32.ofBits 0#32) = F32.mul .zero .zero := by
  unfold curveRes
  rw [rawControl_zero]
  rfl

theorem f32_curveFenv_zero : curveFenv (N := f32Domain .reference) Cfg.ref (F32.ofBits 0#32) =
    F32.mul (F32.ofInt 10000) .zero := by
  unfold curveFenv
  rw [rawControl_zero]
  rfl

/-- Settles O51: the two curves with a power, at 0.5, and the three others, at 0.0. -/
theorem derivedRegistersResetOnTheirCurves : Obligations.DerivedRegistersResetOnTheirCurves := by
  unfold Obligations.DerivedRegistersResetOnTheirCurves
  simp only [Params.reset, f32_curveCutoff_half, f32_curveDrive_zero, f32_curveRes_zero,
    f32_curveDecay_half, f32_curveFenv_zero]
  decide

end Sys2Proof.Machine
end
